-- ==== Sys2Proof/Word.lean ====
section
/-! DEFINITION. The word and byte types of the block (00_scope.md R8, R10): every register is 32 bits, a byte is 8. -/

namespace Sys2Proof

/-- A register, an address, a length or a command word (00_scope.md R8). -/
abbrev Word := BitVec 32

/-- One byte of DMEM or of a stream (20_memory.md R80). -/
abbrev Byte := BitVec 8

end Sys2Proof
end

