-- ==== Sys2Proof/Config.lean ====
section
/-! DEFINITION. The fixed constants of the block, the DMEM size parameter's range, and the free values the spec leaves
open ("any value": 93_implementation_defined.md section 1). A free value has no body: nothing can be proved of it. -/

namespace Sys2Proof.Config

/-- The largest back-reference distance (00_scope.md R6, 42_deflate.md R224). -/
abbrev windowSize : Nat := 32768

/-- The number of entries of `head` and of `prev` (10_state.md R64, R65). -/
abbrev tableSize : Nat := 32768

/-- The most candidates one search compares (00_scope.md R6, 42_deflate.md R223). -/
abbrev maxProbes : Nat := 64

/-- The longest match (00_scope.md R6, 42_deflate.md R227). -/
abbrev maxMatch : Nat := 258

/-- The shortest match (00_scope.md R6, 42_deflate.md R222). -/
abbrev minMatch : Nat := 3

/-- The longest run of one RLE pair (00_scope.md R7, 41_rle.md R181). -/
abbrev maxRun : Nat := 255

/-- The bytes of an RLE header (00_scope.md R7, 30_encoding.md R121). -/
abbrev rleHeaderLen : Nat := 12

/-- The Adler-32 modulus (00_scope.md R7, 44_checksum.md R275). -/
abbrev adlerMod : Nat := 65521

/-- The value of the register ID, "CGD1" (10_state.md R41). -/
abbrev idValue : Word := 0x43474431

/-- The four ASCII bytes "RLEF" (30_encoding.md R121). -/
def rleMagic : List Byte := [0x52, 0x4C, 0x45, 0x46]

/-- The zlib header bytes (00_scope.md R7, 43_zlib.md R261). -/
def zlibHeader : List Byte := [0x78, 0x01]

/-- DMEM_SIZE as the parameter k gives it: a power of two from 2^4 to 2^32 (00_scope.md R8). -/
def dmemSizeOf (k : Fin 29) : Nat := 2 ^ (k.val + 4)

/-- Free value: a 32-bit word the spec calls "any value" (10_state.md R60, 42_deflate.md R235), by draw number.
DESIGN CHOICE, safe: log entries 3 and 6. -/
opaque freeWord : Nat → Word

/-- Free value: a byte the spec calls "any value" (20_memory.md R98, 70_reset_and_hazards.md R343), by draw number.
DESIGN CHOICE, safe: log entries 3 and 5. -/
opaque freeByte : Nat → Byte

/-- Free value: what DMEM holds at an address after power-on, fixed once drawn (10_state.md R71, item I5 of
93_implementation_defined.md). DESIGN CHOICE, safe: log entry 4. -/
opaque powerOnByte : Nat → Byte

end Sys2Proof.Config
end

