-- ==== Sys2Proof/Syntax.lean ====
section
/-! DEFINITION. The commands: one constructor per row of spec/opcode_table.json (30_encoding.md R113). A command word
has no operand fields (30_encoding.md R111), so no constructor has an argument. -/

namespace Sys2Proof

/-- A command of the engine (30_encoding.md R113). -/
inductive Instr where
  /-- `nop`, op 0x00 (40_control.md R168). -/
  | nop
  /-- `rle.enc`, op 0x01 (41_rle.md R180). -/
  | rleEnc
  /-- `rle.dec`, op 0x02 (41_rle.md R183). -/
  | rleDec
  /-- `deflate`, op 0x05 (42_deflate.md R210). -/
  | deflate
  /-- `zlib`, op 0x06 (43_zlib.md R260). -/
  | zlib
  /-- `crc32.start`, op 0x08 (44_checksum.md R272). -/
  | crc32Start
  /-- `crc32.cont`, op 0x09 (44_checksum.md R273). -/
  | crc32Cont
  /-- `adler32.start`, op 0x0A (44_checksum.md R276). -/
  | adler32Start
  /-- `adler32.cont`, op 0x0B (44_checksum.md R277). -/
  | adler32Cont
deriving DecidableEq, Repr

end Sys2Proof
end

