-- ==== Sys2Proof/Machine/Types.lean ====
section
/-! DEFINITION. The data types of the machine beside its commands: host transactions, the events the machine takes as
input, the registers by name, the engine's macro-state, the latched parameters, the error names, the command classes
and the symbols of a DEFLATE block. -/

namespace Sys2Proof.Machine

/-- The width of a register transaction; only `word` is defined (10_state.md R38). -/
inductive Width where
  | byte
  | half
  | word
deriving DecidableEq, Repr

/-- What the host, or the pin `rst_n`, does to the block. A DMEM address is an unbounded number (00_scope.md R10); one
outside DMEM has no meaning (20_memory.md R84; log entry 17). -/
inductive HostOp where
  /-- `RegWrite(off, v)` (10_state.md R32). -/
  | regWrite (w : Width) (off : BitVec 8) (v : Word)
  /-- `RegRead(off)` (10_state.md R32). -/
  | regRead (w : Width) (off : BitVec 8)
  /-- `HostByteWrite(a, b)` (20_memory.md R82). -/
  | byteWrite (a : Nat) (b : Byte)
  /-- `HostByteRead(a)` (20_memory.md R82). -/
  | byteRead (a : Nat)
  /-- `HostWordWrite(a, v)` (20_memory.md R83). -/
  | wordWrite (a : Nat) (v : Word)
  /-- `HostWordRead(a)` (20_memory.md R83). -/
  | wordRead (a : Nat)
  /-- `wait`: read STATUS until bit 0 of the value read is 0 (30_encoding.md R119, R120). -/
  | wait
  /-- `rst_n` goes low (70_reset_and_hazards.md R340). -/
  | assertReset
  /-- `rst_n` goes high (70_reset_and_hazards.md R340). -/
  | releaseReset
deriving DecidableEq, Repr

/-- One entry of the machine's input: a transaction, or a turn of the engine. The order of the entries is the order
in which the two agents move (10_state.md R30, R31, R37). DESIGN CHOICE, safe: log entry 1. -/
inductive Event where
  | host (op : HostOp)
  | engine
deriving DecidableEq, Repr

/-- The listed registers of the register window (10_state.md R40). -/
inductive Reg where
  | id
  | ctrl
  | status
  | cmd
  | srcAddr
  | srcLen
  | dstAddr
  | dstCap
  | outLen
  | errCode
  | errInfo
  | crcAcc
  | crcResult
  | adlerAcc
  | litCount
  | matchCount
  | hdrSizeLo
  | hdrSizeHi
  | dmemSize
deriving DecidableEq, Repr

/-- The engine's macro-state (10_state.md R36); what Busy carries is `Latch`. -/
inductive Eng where
  | idle
  | busy
deriving DecidableEq, Repr

/-- The latched command word and parameters of the running command (10_state.md R67, 40_control.md R162). -/
structure Latch where
  /-- the accepted command word -/
  cmd : Word
  /-- `SRC` -/
  src : Word
  /-- `n` -/
  n : Word
  /-- `DST` -/
  dst : Word
  /-- `CAP` -/
  cap : Word
deriving DecidableEq, Repr

/-- The error names of 60_exceptions.md R300. -/
inductive Err where
  | badMagic
  | truncatedInput
  | invalidRunLength
  /-- kept for the LZ4-style decoder outside the block: never raised (60_exceptions.md R300) -/
  | invalidOffset
  | sizeMismatch
  | outputOverflow
  | dstFull
  | range
  | overlap
  | illegalCmd
deriving DecidableEq, Repr

/-- Command classes by the regions they use (30_encoding.md R134). -/
inductive CmdClass where
  | transform
  | checksum
  | control
deriving DecidableEq, Repr

/-- One symbol of the greedy parse (42_deflate.md R212): a literal byte, or a match of a length at a distance. -/
inductive Sym where
  | lit (b : Byte)
  | pair (len dist : Nat)
deriving DecidableEq, Repr

/-- The match finder's tables (10_state.md R64, R65): `head` by hash, `prev` by position mod 32768. An entry that is
not listed is NIL. -/
structure MatchTables where
  head : List (Nat × Nat)
  prev : List (Nat × Nat)
deriving DecidableEq, Repr

/-- The bit packer (10_state.md R66, 42_deflate.md R230) and the bytes it has emitted, first byte first. -/
structure Packer where
  bitbuf : Byte
  bitcnt : Nat
  out : List Byte
deriving DecidableEq, Repr

/-- What `deflate_block` returns (42_deflate.md R212), with the internal state it leaves. -/
structure Block where
  bytes : List Byte
  lits : Nat
  pairs : Nat
  tables : MatchTables
  packer : Packer
deriving DecidableEq, Repr

/-- What the RLE decoder makes of a container (41_rle.md R183): the bytes it writes, the size field it shows, and
the error it ends with, with its detail word. -/
structure Decoded where
  out : List Byte
  hdr : Nat
  err : Option (Err × Nat)
deriving DecidableEq, Repr

end Sys2Proof.Machine
end

