-- ==== Sys2Proof/Machine/State.lean ====
section
/-! DEFINITION. The state of the block: everything 10_state.md names, plain data, and its value after reset (R70).
Also the reasons a step can stop. -/

namespace Sys2Proof.Machine

/-- The state. Registers and flags that the spec derives from others (BUSY, ERR, CRC_RESULT, ID, DMEM_SIZE, irq) are
computed, in Machine/Flags.lean and Machine/RegPort.lean; each other one has one field. -/
structure State where
  /-- the parameter DMEM_SIZE, 2^(dmemLog + 4) (00_scope.md R8, 10_state.md R58): nothing writes it -/
  dmemLog : Fin 29
  /-- Idle or Busy (10_state.md R36) -/
  eng : Eng
  /-- what Busy carries (10_state.md R67) -/
  latch : Latch
  /-- CTRL.IE (10_state.md R42) -/
  ie : Bool
  /-- STATUS.DONE (10_state.md R43) -/
  done : Bool
  /-- STATUS.OVR (10_state.md R43) -/
  ovr : Bool
  /-- CMD readback (10_state.md R44) -/
  cmd : Word
  /-- SRC_ADDR (10_state.md R45) -/
  srcAddr : Word
  /-- SRC_LEN (10_state.md R46) -/
  srcLen : Word
  /-- DST_ADDR (10_state.md R47) -/
  dstAddr : Word
  /-- DST_CAP (10_state.md R48) -/
  dstCap : Word
  /-- OUT_LEN (10_state.md R49) -/
  outLen : Word
  /-- ERR_CODE bits 3:0 (10_state.md R50) -/
  errCode : BitVec 4
  /-- ERR_INFO (10_state.md R51) -/
  errInfo : Word
  /-- CRC_ACC (10_state.md R52) -/
  crcAcc : Word
  /-- ADLER_ACC (10_state.md R54) -/
  adlerAcc : Word
  /-- LIT_COUNT (10_state.md R55) -/
  litCount : Word
  /-- MATCH_COUNT (10_state.md R56) -/
  matchCount : Word
  /-- HDR_SIZE_LO (10_state.md R57) -/
  hdrSizeLo : Word
  /-- HDR_SIZE_HI (10_state.md R57) -/
  hdrSizeHi : Word
  /-- `head` and `prev` (10_state.md R64, R65) -/
  tables : MatchTables
  /-- `bitbuf` (10_state.md R66) -/
  bitbuf : Byte
  /-- `bitcnt` (10_state.md R66) -/
  bitcnt : Nat
  /-- `za` (10_state.md R69) -/
  za : Nat
  /-- `zb` (10_state.md R69) -/
  zb : Nat
  /-- DMEM (20_memory.md R80): the bytes written since power-on, by rising address -/
  dmem : List Host.Cell
  /-- `rst_n` is low (10_state.md R35, 70_reset_and_hazards.md R340) -/
  inReset : Bool
  /-- the model's own: the value the last register read returned (10_state.md R32; log entry 9) -/
  regRdata : Word
  /-- the model's own: the value the last DMEM read returned (10_state.md R33; log entry 9) -/
  memRdata : Word
  /-- the model's own: the input still to come (log entry 1) -/
  inbox : List Event
  /-- the model's own: how many free values have been drawn (log entry 3) -/
  draws : Nat
deriving DecidableEq, Repr

/-- The machine never stops by itself: "The block has no halt or stop state" (70_reset_and_hazards.md R354), and its
errors are values of registers. So there is no fault (log entry 20; safe). -/
inductive Fault where
deriving DecidableEq, Repr

/-- A transaction the spec gives no meaning: "a model refuses it (errs toward unprovable)". Safe, all of them. -/
inductive Refusal where
  /-- Raised by an arm of `exec` for a command with no meaning yet; none is left. Safe. -/
  | notModelled (mnemonic : String)
  /-- Raised by a register transaction that is not 32 bits or not at a multiple of 4 (10_state.md R38). Safe. -/
  | regAccessForm
  /-- Raised by a host DMEM access outside DMEM (20_memory.md R84). Safe. -/
  | dmemOutOfRange
  /-- Raised by a misaligned host word access (20_memory.md R84). Safe. -/
  | dmemMisaligned
  /-- Raised by a host DMEM write into a running command's regions (70_reset_and_hazards.md R348). Safe. -/
  | dmemRegionBusy
  /-- Raised by a host transaction while `rst_n` is low (70_reset_and_hazards.md R340). Safe. -/
  | heldInReset
deriving DecidableEq, Repr

/-- The machine after power-on followed by a hardware reset (10_state.md R70), the reset released, no transaction
pending. The values the spec does not give are those of log entries 3, 7, 8, 9 and 10. -/
def State.reset : State where
  dmemLog := 16
  eng := .idle
  latch := { cmd := 0, src := 0, n := 0, dst := 0, cap := 0 }
  ie := false
  done := false
  ovr := false
  cmd := 0
  srcAddr := 0
  srcLen := 0
  dstAddr := 0
  dstCap := 0
  outLen := 0
  errCode := 0
  errInfo := 0
  crcAcc := 0xFFFFFFFF
  adlerAcc := 1
  litCount := 0
  matchCount := 0
  hdrSizeLo := 0
  hdrSizeHi := 0
  tables := { head := [], prev := [] }
  bitbuf := 0
  bitcnt := 0
  za := 0
  zb := 0
  dmem := []
  inReset := false
  regRdata := 0
  memRdata := 0
  inbox := []
  draws := 0

end Sys2Proof.Machine
end

