-- ==== Sys2Proof/Machine/Flags.lean ====
section
/-! DEFINITION. The flags (10_state.md R42, R43, R63), the words STATUS and CTRL they form, and the interrupt output
(60_exceptions.md R307). -/

namespace Sys2Proof.Machine

/-- The two-valued word of a flag at a bit position. -/
def flagBit (b : Bool) (i : Nat) : Word := if b then BitVec.ofNat 32 (2 ^ i) else 0

/-- STATUS.BUSY: the engine is Busy (10_state.md R36). -/
def State.busyFlag (s : State) : Bool := decide (s.eng = .busy)

/-- STATUS.ERR: ERR_CODE is not 0 (10_state.md R43). -/
def State.errFlag (s : State) : Bool := decide (s.errCode ≠ 0)

/-- The word STATUS with a given value of its ERR bit: BUSY, DONE, ERR, OVR in bits 0 to 3, the rest 0
(10_state.md R43). -/
def statusWith (s : State) (err : Bool) : Word :=
  flagBit s.busyFlag 0 ||| flagBit s.done 1 ||| flagBit err 2 ||| flagBit s.ovr 3

/-- The word STATUS (10_state.md R43). -/
def State.statusWord (s : State) : Word := statusWith s s.errFlag

/-- The word CTRL: IE in bit 0; SRST reads 0; the rest 0 (10_state.md R42). -/
def State.ctrlWord (s : State) : Word := flagBit s.ie 0

/-- The interrupt output, CTRL.IE AND STATUS.DONE at every instant (60_exceptions.md R307). -/
def State.irq (s : State) : Bool := s.ie && s.done

end Sys2Proof.Machine
end

