-- ==== Sys2Proof/WellFormed.lean ====
section
/-! DEFINITION. Well-formedness of terms: commands (all of them: a command has no operand), and host transactions,
whose form the spec restricts (10_state.md R38, 20_memory.md R83, R84). -/

namespace Sys2Proof

/-- A command has no field that could be out of range (30_encoding.md R111). -/
def Instr.wellFormed : Instr → Bool
  | .nop => true
  | .rleEnc => true
  | .rleDec => true
  | .deflate => true
  | .zlib => true
  | .crc32Start => true
  | .crc32Cont => true
  | .adler32Start => true
  | .adler32Cont => true

/-- A register transaction is for all 32 bits at an offset that is a multiple of 4 (10_state.md R38). -/
def wellFormedRegAccess (w : Machine.Width) (off : BitVec 8) : Bool :=
  w == .word && off.toNat % 4 == 0

/-- A word transaction on DMEM is aligned (20_memory.md R83). -/
def wellFormedWordAddr (a : Nat) : Bool := a % 4 == 0

/-- The form of a host transaction. Whether its address lies in DMEM depends on the state and is checked there. -/
def Machine.HostOp.wellFormed : Machine.HostOp → Bool
  | .regWrite w off _ => wellFormedRegAccess w off
  | .regRead w off => wellFormedRegAccess w off
  | .byteWrite _ _ => true
  | .byteRead _ => true
  | .wordWrite a _ => wellFormedWordAddr a
  | .wordRead a => wellFormedWordAddr a
  | .wait => true
  | .assertReset => true
  | .releaseReset => true

end Sys2Proof
end

