-- ==== Sys2Proof/Decode.lean ====
section
/-! DEFINITION. The command word: decoder (total, rejecting by name) and encoder (30_encoding.md R110 to R117). -/

namespace Sys2Proof

/-- Why a word is illegal (30_encoding.md R112, R114). -/
inductive DecodeError where
  /-- bits 31:8 are not 0 -/
  | reservedBitsSet
  /-- bits 7:0 are not in the command map -/
  | unassignedOp
deriving DecidableEq, Repr

/-- Field `op`, bits 7:0 (30_encoding.md R110). -/
def opField (w : Word) : BitVec 8 := w.extractLsb' 0 8

/-- Field `rsv`, bits 31:8 (30_encoding.md R110). -/
def rsvField (w : Word) : BitVec 24 := w.extractLsb' 8 24

/-- The command map, row by row (30_encoding.md R113). -/
def opMap : List (BitVec 8 × Instr) :=
  [(0x00, .nop), (0x01, .rleEnc), (0x02, .rleDec), (0x05, .deflate), (0x06, .zlib),
   (0x08, .crc32Start), (0x09, .crc32Cont), (0x0A, .adler32Start), (0x0B, .adler32Cont)]

/-- The row of an `op` value, if it has one. -/
def decodeOp (op : BitVec 8) : Option Instr := opMap.lookup op

/-- Every 32-bit word is exactly one command or illegal (30_encoding.md R112). -/
def decode (w : Word) : Except DecodeError Instr :=
  if rsvField w = 0 then
    match decodeOp (opField w) with
    | some i => .ok i
    | none => .error .unassignedOp
  else .error .reservedBitsSet

/-- The `op` value of a command (30_encoding.md R113). -/
def Instr.op : Instr → BitVec 8
  | .nop => 0x00
  | .rleEnc => 0x01
  | .rleDec => 0x02
  | .deflate => 0x05
  | .zlib => 0x06
  | .crc32Start => 0x08
  | .crc32Cont => 0x09
  | .adler32Start => 0x0A
  | .adler32Cont => 0x0B

/-- The word of a command: `op` in bits 7:0 and `rsv` = 0 in bits 31:8 (30_encoding.md R110). -/
def encode (i : Instr) : Word := (0 : BitVec 24) ++ i.op

/-- The command word whose bits, numbered as the opcode table numbers them, are the low `nbits` bits of `w`. -/
def tableWord (nbits w : Nat) : Word := BitVec.ofNat 32 (w % 2 ^ nbits)

/-- What the decoder reads from a word of the opcode table. A command is one 32-bit word written to a register: it has
no byte order (20_memory.md R92) and no further words (30_encoding.md R116). -/
def decodeTableWord (nbits w : Nat) : Option Instr := (decode (tableWord nbits w)).toOption

end Sys2Proof
end

