-- ==== Sys2Proof/Machine/Memory.lean ====
section
/-! DEFINITION. Sparse tables as lists by rising key, and DMEM as such a table of bytes (20_memory.md R80, R82, R83,
R85). The match finder's tables (10_state.md R64, R65) use the same lists. -/

namespace Sys2Proof.Machine

/-- The value listed at a key. -/
def listGet {α : Type} : List (Nat × α) → Nat → Option α
  | [], _ => none
  | (k, v) :: rest, a => if a = k then some v else listGet rest a

/-- List a value at a key, keeping the keys rising. -/
def listSet {α : Type} : List (Nat × α) → Nat → α → List (Nat × α)
  | [], a, v => [(a, v)]
  | (k, w) :: rest, a, v =>
    if a < k then (a, v) :: (k, w) :: rest
    else if a = k then (a, v) :: rest
    else (k, w) :: listSet rest a v

/-- Take a key off the list. -/
def listErase {α : Type} : List (Nat × α) → Nat → List (Nat × α)
  | [], _ => []
  | (k, w) :: rest, a => if a = k then rest else (k, w) :: listErase rest a

/-- List a value, or take the key off the list where there is none. -/
def listPut {α : Type} (t : List (Nat × α)) (a : Nat) : Option α → List (Nat × α)
  | some v => listSet t a v
  | none => listErase t a

/-- The keys rise strictly: the one form in which a table is held. -/
abbrev keysRise {α : Type} (t : List (Nat × α)) : Prop := t.Pairwise (fun x y => x.1 < y.1)

/-- DMEM is in its canonical form: the addresses rise strictly. An unlisted address has no known value (it reads as
the free power-on byte), so no entry can equal it (log entry 4). -/
abbrev Memory.wf (m : List Host.Cell) : Prop := keysRise m

/-- What the list holds at an address: `none` where nothing has been written since power-on. -/
def Memory.lookup (m : List Host.Cell) (a : Nat) : Option Byte := listGet m a

/-- `MemRead(a, 1)` (00_scope.md R12): an address never written since power-on holds "any value", fixed once drawn
(10_state.md R71). -/
def Memory.read (m : List Host.Cell) (a : Nat) : Byte := (Memory.lookup m a).getD (Config.powerOnByte a)

/-- `MemWrite(a, 1, v)` (00_scope.md R12). -/
def Memory.write (m : List Host.Cell) (a : Nat) (v : Byte) : List Host.Cell := listSet m a v

/-- The k bytes from address a on. -/
def Memory.readBytes (m : List Host.Cell) : Nat → Nat → List Byte
  | _, 0 => []
  | a, k + 1 => Memory.read m a :: Memory.readBytes m (a + 1) k

/-- Store bytes at a, a + 1, and so on. -/
def Memory.writeBytes (m : List Host.Cell) : Nat → List Byte → List Host.Cell
  | _, [] => m
  | a, b :: rest => Memory.writeBytes (Memory.write m a b) (a + 1) rest

/-- Byte i (0 to 3) of a word, byte 0 the least significant. -/
def wordByte (w : Word) (i : Nat) : Byte := w.extractLsb' (8 * i) 8

/-- The four bytes of a word, least significant first (20_memory.md R83). -/
def le32 (w : Word) : List Byte := [wordByte w 0, wordByte w 1, wordByte w 2, wordByte w 3]

/-- The four bytes of a word, most significant first (00_scope.md R15). -/
def be32 (w : Word) : List Byte := [wordByte w 3, wordByte w 2, wordByte w 1, wordByte w 0]

/-- The word of four bytes, the first the least significant (20_memory.md R83). -/
def ofLe32 (b0 b1 b2 b3 : Byte) : Word := b3 ++ b2 ++ b1 ++ b0

/-- The k low bytes of a number, least significant first. -/
def leBytes : Nat → Nat → List Byte
  | 0, _ => []
  | k + 1, v => BitVec.ofNat 8 v :: leBytes k (v / 256)

/-- `le64(v)` (00_scope.md R15). -/
def le64 (v : Nat) : List Byte := leBytes 8 v

/-- The number whose bytes, least significant first, are these. -/
def ofLeBytes : List Byte → Nat
  | [] => 0
  | b :: rest => b.toNat + 256 * ofLeBytes rest

end Sys2Proof.Machine
end

