-- ==== Sys2Proof/Machine/Operands.lean ====
section
/-! DEFINITION. What a command works on: its class (30_encoding.md R134), the latched parameters and the input bytes
(00_scope.md R12, 40_control.md R162), and the region checks (20_memory.md R86, R87). -/

namespace Sys2Proof.Machine

/-- The class of a command (30_encoding.md R134). -/
def commandClass : Instr → CmdClass
  | .nop => .control
  | .rleEnc => .transform
  | .rleDec => .transform
  | .deflate => .transform
  | .zlib => .transform
  | .crc32Start => .checksum
  | .crc32Cont => .checksum
  | .adler32Start => .checksum
  | .adler32Cont => .checksum

/-- The class of a command word; an illegal word is a control command (30_encoding.md R134). -/
def wordClass (w : Word) : CmdClass :=
  match decode w with
  | .ok i => commandClass i
  | .error _ => .control

/-- DMEM_SIZE of this machine (00_scope.md R8). -/
def State.dmemSize (s : State) : Nat := Config.dmemSizeOf s.dmemLog

/-- An address lies in the region of `len` bytes from `base` on, in unbounded integers (20_memory.md R86). -/
def inRegion (base len : Word) (a : Nat) : Bool := decide (base.toNat ≤ a) && decide (a < base.toNat + len.toNat)

/-- The source region lies in DMEM: `SRC + n ≤ DMEM_SIZE` (20_memory.md R86). -/
def State.srcInRange (s : State) : Bool := decide (s.latch.src.toNat + s.latch.n.toNat ≤ s.dmemSize)

/-- The destination region lies in DMEM: `DST + CAP ≤ DMEM_SIZE` (20_memory.md R86). -/
def State.dstInRange (s : State) : Bool := decide (s.latch.dst.toNat + s.latch.cap.toNat ≤ s.dmemSize)

/-- The two regions overlap (20_memory.md R87). -/
def State.regionsOverlap (s : State) : Bool :=
  decide (0 < s.latch.n.toNat) && decide (0 < s.latch.cap.toNat) &&
  decide (s.latch.src.toNat < s.latch.dst.toNat + s.latch.cap.toNat) &&
  decide (s.latch.dst.toNat < s.latch.src.toNat + s.latch.n.toNat)

/-- The checks of the common prologue, in their order, and the error of the first that fails (40_control.md R167,
60_exceptions.md R301, R302). -/
def State.prologueError (s : State) : CmdClass → Option (Err × Word)
  | .control => none
  | .checksum => if s.srcInRange then none else some (.range, 0)
  | .transform =>
    if !s.srcInRange then some (.range, 0)
    else if !s.dstInRange then some (.range, 1)
    else if s.regionsOverlap then some (.overlap, 0)
    else none

/-- The command's input `in[0 .. n-1]` (00_scope.md R12). -/
def State.srcBytes (s : State) : List Byte :=
  Memory.readBytes s.dmem s.latch.src.toNat s.latch.n.toNat

end Sys2Proof.Machine
end

