-- ==== Sys2Proof/Machine/Ops.lean ====
section
/-! DEFINITION. The shared operations of the commands: acceptance, the two completions (the error completion is this
block's "exception entry", 60_exceptions.md R303) and the acknowledgement (R305), the common prologue, the bounded
output write, and the free values of an unsuccessful DEFLATE. -/

namespace Sys2Proof.Machine

/-- The number an error writes to ERR_CODE (60_exceptions.md R300). -/
def Err.code : Err → BitVec 4
  | .badMagic => 1
  | .truncatedInput => 2
  | .invalidRunLength => 3
  | .invalidOffset => 4
  | .sizeMismatch => 5
  | .outputOverflow => 6
  | .dstFull => 7
  | .range => 8
  | .overlap => 9
  | .illegalCmd => 10

/-- Acceptance of a command word (40_control.md R161, R162). -/
def State.accept (s : State) (w : Word) : State :=
  { s with
    eng := .busy
    latch := { cmd := w, src := s.srcAddr, n := s.srcLen, dst := s.dstAddr, cap := s.dstCap }
    cmd := w
    done := false
    errCode := 0
    errInfo := 0 }

/-- Successful completion, `complete()` (40_control.md R164). ERR_CODE and ERR_INFO "stay 0" since acceptance: they
are 0 afterwards (log entry 14). -/
def State.complete (s : State) : State :=
  { s with eng := .idle, done := true, errCode := 0, errInfo := 0 }

/-- Error completion, `raise Err(code, info)` (40_control.md R165, 60_exceptions.md R303): the one way a command ends
with an error. -/
def State.raiseErr (s : State) (e : Err) (info : Word) : State :=
  { s with eng := .idle, done := true, errCode := e.code, errInfo := info }

/-- Acknowledging a completion (60_exceptions.md R305): DONE falls, ERR_CODE and ERR_INFO survive. -/
def State.ackDone (s : State) : State := { s with done := false }

/-- The first effect of `complete` for a transform or checksum command (40_control.md R166). -/
def State.clearOutLen (s : State) : State := { s with outLen := 0 }

/-- The common prologue (40_control.md R167) before the command's own rule. `onErr` is what the command does to its
registers when it ends with an error. -/
def withPrologue (c : CmdClass) (onErr : State → State) (rule : State → State) (s : State) : State :=
  match s.prologueError c with
  | some (e, info) => (onErr s.clearOutLen).raiseErr e info
  | none => rule s.clearOutLen

/-- Write the first k bytes of an output stream at DST and count them in OUT_LEN, for k at most CAP
(20_memory.md R88). -/
def State.writePrefix (s : State) (stream : List Byte) : State :=
  { s with
    dmem := Memory.writeBytes s.dmem s.latch.dst.toNat (stream.take s.latch.cap.toNat)
    outLen := BitVec.ofNat 32 (min stream.length s.latch.cap.toNat) }

/-- The whole stream fits the capacity (20_memory.md R88). -/
def State.fits (s : State) (stream : List Byte) : Bool := decide (stream.length ≤ s.latch.cap.toNat)

/-- Write an output stream and end the command: with success after `onOk`, or with `Err(DST_FULL, CAP)` after `onErr`
(20_memory.md R88). -/
def State.finishStream (s : State) (stream : List Byte) (onOk onErr : State → State) : State :=
  if s.fits stream then (onOk (s.writePrefix stream)).complete
  else (onErr (s.writePrefix stream)).raiseErr .dstFull s.latch.cap

/-- LIT_COUNT and MATCH_COUNT after an unsuccessful DEFLATE or ZLIB: any value each (42_deflate.md R235; free values,
log entry 6). -/
def State.drawCounts (s : State) : State :=
  { s with
    litCount := Config.freeWord s.draws
    matchCount := Config.freeWord (s.draws + 1)
    draws := s.draws + 2 }

/-- The next k free bytes. -/
def freeBytes : Nat → Nat → List Byte
  | _, 0 => []
  | d, k + 1 => Config.freeByte d :: freeBytes (d + 1) k

/-- The destination region of a transform command after its abort: any value in each byte (70_reset_and_hazards.md
R343; free values, log entry 5). -/
def State.drawDestination (s : State) : State :=
  { s with
    dmem := Memory.writeBytes s.dmem s.latch.dst.toNat (freeBytes s.draws s.latch.cap.toNat)
    draws := s.draws + s.latch.cap.toNat }

end Sys2Proof.Machine
end

