-- ==== Sys2Proof/Machine/Control.lean ====
section
/-! DEFINITION. `nop` and the illegal command words (40_control.md R168, R169). -/

namespace Sys2Proof.Machine

/-- `nop` (40_control.md R168). -/
def execNop (s : State) : Host.Outcome State Fault Refusal := .next s.complete

/-- An illegal command word w: `raise Err(ILLEGAL_CMD, w)` (40_control.md R169). -/
def execIllegal (w : Word) (s : State) : Host.Outcome State Fault Refusal := .next (s.raiseErr .illegalCmd w)

end Sys2Proof.Machine
end

