-- ==== Sys2Proof/Machine/Rle.lean ====
section
/-! DEFINITION. The RLE encoder and decoder (41_rle.md R180 to R187). -/

namespace Sys2Proof.Machine

/-- How many of the next bytes, at most `k`, equal `v`. -/
def runMore (v : Byte) : Nat → List Byte → Nat
  | 0, _ => 0
  | _, [] => 0
  | k + 1, b :: rest => if b = v then runMore v k rest + 1 else 0

/-- The (count, value) pairs of an input, a run at most 255 long (41_rle.md R180, R181). `fuel` is at least the length
of the input: each pair consumes a byte or more. -/
def rlePairs : Nat → List Byte → List Byte
  | 0, _ => []
  | _, [] => []
  | fuel + 1, v :: rest =>
    let more := runMore v (Config.maxRun - 1) rest
    BitVec.ofNat 8 (more + 1) :: v :: rlePairs fuel (rest.drop more)

/-- The RLE container of an input (41_rle.md R180, 30_encoding.md R121). -/
def rleEncode (input : List Byte) : List Byte :=
  Config.rleMagic ++ le64 input.length ++ rlePairs input.length input

/-- `rle.enc` (41_rle.md R180). HDR_SIZE is written also when DST_FULL is raised. -/
def execRleEnc (s : State) : Host.Outcome State Fault Refusal :=
  .next (withPrologue .transform id
    (fun t => { t with hdrSizeLo := t.latch.n, hdrSizeHi := 0 }.finishStream (rleEncode t.srcBytes) id id) s)

/-- Put decoded bytes in front of what the rest of the container gives. -/
def emitRun (count : Nat) (v : Byte) (r : List Byte × Option (Err × Nat)) : List Byte × Option (Err × Nat) :=
  (List.replicate count v ++ r.1, r.2)

/-- The pairs of a container from offset `k` on, with `produced` bytes written so far, a declared size `size` and a
capacity `cap`; `n` is the container's length (41_rle.md R183, R185, R186). -/
def rleExpand (n size cap : Nat) : List Byte → Nat → Nat → List Byte × Option (Err × Nat)
  | [], _, produced => ([], if produced = size then none else some (.sizeMismatch, n))
  | [_], k, _ => ([], some (.truncatedInput, k))
  | count :: v :: rest, k, produced =>
    if count.toNat = 0 then ([], some (.invalidRunLength, k))
    else if size < produced + count.toNat then ([], some (.outputOverflow, k))
    else if cap < produced + count.toNat then (List.replicate (cap - produced) v, some (.dstFull, cap))
    else emitRun count.toNat v (rleExpand n size cap rest (k + 2) (produced + count.toNat))

/-- The index of the first byte that differs from the magic (41_rle.md R184, 60_exceptions.md R301). -/
def firstMismatch : List Byte → List Byte → Nat → Option Nat
  | m :: ms, b :: bs, j => if b = m then firstMismatch ms bs (j + 1) else some j
  | _, _, _ => none

/-- The decoder on a whole container with a capacity (41_rle.md R183, R184). -/
def rleDecode (input : List Byte) (cap : Nat) : Decoded :=
  if input.length < Config.rleHeaderLen then
    { out := [], hdr := 0, err := some (.truncatedInput, input.length) }
  else
    match firstMismatch Config.rleMagic input 0 with
    | some j => { out := [], hdr := 0, err := some (.badMagic, j) }
    | none =>
      let size := ofLeBytes ((input.drop 4).take 8)
      let r := rleExpand input.length size cap (input.drop Config.rleHeaderLen) Config.rleHeaderLen 0
      { out := r.1, hdr := size, err := r.2 }

/-- The decoder's effect on the state: what it wrote, what HDR_SIZE shows, and how it ended (41_rle.md R183). -/
def State.finishDecode (s : State) (d : Decoded) : State :=
  let t := { s with
    dmem := Memory.writeBytes s.dmem s.latch.dst.toNat d.out
    outLen := BitVec.ofNat 32 d.out.length
    hdrSizeLo := BitVec.ofNat 32 d.hdr
    hdrSizeHi := BitVec.ofNat 32 (d.hdr / 2 ^ 32) }
  match d.err with
  | none => t.complete
  | some (e, info) => t.raiseErr e (BitVec.ofNat 32 info)

/-- `rle.dec` (41_rle.md R183). -/
def execRleDec (s : State) : Host.Outcome State Fault Refusal :=
  .next (withPrologue .transform id (fun t => t.finishDecode (rleDecode t.srcBytes t.latch.cap.toNat)) s)

end Sys2Proof.Machine
end

