-- ==== Sys2Proof/Machine/Checksum.lean ====
section
/-! DEFINITION. The CRC-32 and Adler-32 engines (44_checksum.md R270 to R279). -/

namespace Sys2Proof.Machine

/-- One of the eight shifts that make a CRC table entry (44_checksum.md R270). -/
def crcShift (c : Word) : Word := if c.getLsbD 0 then (c >>> 1) ^^^ 0xEDB88320 else c >>> 1

/-- `k` shifts. -/
def crcShifts : Nat → Word → Word
  | 0, c => c
  | k + 1, c => crcShifts k (crcShift c)

/-- `crc_table[i]` (44_checksum.md R270). -/
def crcTable (i : Byte) : Word := crcShifts 8 (i.setWidth 32)

/-- `crc_step(acc, b)` (44_checksum.md R271). -/
def crcStep (acc : Word) (b : Byte) : Word := crcTable ((acc ^^^ b.setWidth 32).setWidth 8) ^^^ (acc >>> 8)

/-- A running CRC-32 fed a string in increasing address order (44_checksum.md R271). -/
def crcFeed (acc : Word) (bytes : List Byte) : Word := bytes.foldl crcStep acc

/-- The start value of a CRC-32 (44_checksum.md R271). -/
def crcInit : Word := 0xFFFFFFFF

/-- `adler_step((A, B), b)` (44_checksum.md R275). -/
def adlerStep (ab : Nat × Nat) (b : Byte) : Nat × Nat :=
  let a' := (ab.1 + b.toNat) % Config.adlerMod
  (a', (ab.2 + a') % Config.adlerMod)

/-- A running Adler-32 pair fed a string (44_checksum.md R275). -/
def adlerFeed (ab : Nat × Nat) (bytes : List Byte) : Nat × Nat := bytes.foldl adlerStep ab

/-- The word `(B << 16) OR A` (44_checksum.md R275). -/
def adlerPack (ab : Nat × Nat) : Word := BitVec.ofNat 16 ab.2 ++ BitVec.ofNat 16 ab.1

/-- The pair of a word: A in bits 15:0, B in bits 31:16 (10_state.md R54, 44_checksum.md R277). -/
def adlerUnpack (w : Word) : Nat × Nat := ((w.extractLsb' 0 16).toNat, (w.extractLsb' 16 16).toNat)

/-- The start pair of an Adler-32 (44_checksum.md R275). -/
def adlerInit : Nat × Nat := (1, 0)

/-- A CRC command from a start value (44_checksum.md R272, R273). -/
def crcCommand (start : State → Word) (s : State) : State :=
  withPrologue .checksum id (fun t => { t with crcAcc := crcFeed (start t) t.srcBytes }.complete) s

/-- An Adler command from a start pair (44_checksum.md R276, R277). -/
def adlerCommand (start : State → Nat × Nat) (s : State) : State :=
  withPrologue .checksum id (fun t => { t with adlerAcc := adlerPack (adlerFeed (start t) t.srcBytes) }.complete) s

/-- `crc32.start` (44_checksum.md R272). -/
def execCrc32Start (s : State) : Host.Outcome State Fault Refusal := .next (crcCommand (fun _ => crcInit) s)

/-- `crc32.cont` (44_checksum.md R273). -/
def execCrc32Cont (s : State) : Host.Outcome State Fault Refusal := .next (crcCommand (fun t => t.crcAcc) s)

/-- `adler32.start` (44_checksum.md R276). -/
def execAdler32Start (s : State) : Host.Outcome State Fault Refusal := .next (adlerCommand (fun _ => adlerInit) s)

/-- `adler32.cont` (44_checksum.md R277). -/
def execAdler32Cont (s : State) : Host.Outcome State Fault Refusal :=
  .next (adlerCommand (fun t => adlerUnpack t.adlerAcc) s)

end Sys2Proof.Machine
end

