-- ==== Sys2Proof/Machine/BitPacker.lean ====
section
/-! DEFINITION. The fixed Huffman code, the length and distance tables, and the bit packer (30_encoding.md R124 to R132,
42_deflate.md R213 to R217, R230 to R233). -/

namespace Sys2Proof.Machine

/-- `fixed_code(sym)`: the code and its length (30_encoding.md R125). -/
def fixedCode (sym : Nat) : Nat × Nat :=
  if sym ≤ 143 then (0x30 + sym, 8)
  else if sym ≤ 255 then (0x190 + (sym - 144), 9)
  else if sym ≤ 279 then (sym - 256, 7)
  else (0xC0 + (sym - 280), 8)

/-- `LBASE` (30_encoding.md R127). -/
def lengthBase : List Nat :=
  [3, 4, 5, 6, 7, 8, 9, 10, 11, 13, 15, 17, 19, 23, 27, 31, 35, 43, 51, 59, 67, 83, 99, 115, 131, 163, 195, 227, 258]

/-- `LEXTRA` (30_encoding.md R127). -/
def lengthExtra : List Nat :=
  [0, 0, 0, 0, 0, 0, 0, 0, 1, 1, 1, 1, 2, 2, 2, 2, 3, 3, 3, 3, 4, 4, 4, 4, 5, 5, 5, 5, 0]

/-- `DBASE` (30_encoding.md R128). -/
def distBase : List Nat :=
  [1, 2, 3, 4, 5, 7, 9, 13, 17, 25, 33, 49, 65, 97, 129, 193, 257, 385, 513, 769, 1025, 1537, 2049, 3073, 4097, 6145,
   8193, 12289, 16385, 24577]

/-- `DEXTRA` (30_encoding.md R128). -/
def distExtra : List Nat :=
  [0, 0, 0, 0, 1, 1, 2, 2, 3, 3, 4, 4, 5, 5, 6, 6, 7, 7, 8, 8, 9, 9, 10, 10, 11, 11, 12, 12, 13, 13]

/-- The largest index i, at most `top`, whose base is at most x (42_deflate.md R215, R216). -/
def largestIndex (bases : List Nat) (x : Nat) : Nat → Nat
  | 0 => 0
  | top + 1 => if bases.getD (top + 1) 0 ≤ x then top + 1 else largestIndex bases x top

/-- The index of a length's symbol, 0 to 28 (42_deflate.md R215). -/
def lengthIndex (len : Nat) : Nat := largestIndex lengthBase len 28

/-- The distance symbol of a distance, 0 to 29 (42_deflate.md R216). -/
def distIndex (dist : Nat) : Nat := largestIndex distBase dist 29

/-- `rev(v, k)`: the k low bits in reversed order (00_scope.md R14). -/
def revBits : Nat → Nat → Nat
  | _, 0 => 0
  | v, k + 1 => (v % 2) * 2 ^ k + revBits (v / 2) k

/-- Append one bit (42_deflate.md R230, R231). -/
def putBit (pk : Packer) (b : Nat) : Packer :=
  let buf := pk.bitbuf ||| (BitVec.ofNat 8 (b % 2) <<< pk.bitcnt)
  if pk.bitcnt + 1 = 8 then { bitbuf := 0, bitcnt := 0, out := pk.out ++ [buf] }
  else { pk with bitbuf := buf, bitcnt := pk.bitcnt + 1 }

/-- `put(v, k)`: append the k low bits of v, bit 0 first (00_scope.md R14, 42_deflate.md R230). -/
def putBits (pk : Packer) : Nat → Nat → Packer
  | _, 0 => pk
  | v, k + 1 => putBits (putBit pk v) (v / 2) k

/-- `emit_sym(sym)` (42_deflate.md R232). -/
def emitCode (pk : Packer) (sym : Nat) : Packer :=
  let c := fixedCode sym
  putBits pk (revBits c.1 c.2) c.2

/-- `emit_length(len)` (42_deflate.md R215). -/
def emitLength (pk : Packer) (len : Nat) : Packer :=
  let i := lengthIndex len
  putBits (emitCode pk (257 + i)) (len - lengthBase.getD i 0) (lengthExtra.getD i 0)

/-- `emit_distance(dist)` (42_deflate.md R216). -/
def emitDistance (pk : Packer) (dist : Nat) : Packer :=
  let j := distIndex dist
  putBits (putBits pk (revBits j 5) 5) (dist - distBase.getD j 0) (distExtra.getD j 0)

/-- One symbol of the parse (42_deflate.md R213, R214). -/
def emitSym (pk : Packer) : Sym → Packer
  | .lit b => emitCode pk b.toNat
  | .pair len dist => emitDistance (emitLength pk len) dist

/-- `flush_to_byte()` (42_deflate.md R233). -/
def flushToByte (pk : Packer) : Packer :=
  if 0 < pk.bitcnt then { pk with bitcnt := 0, out := pk.out ++ [pk.bitbuf] } else pk

/-- The packer at the start of a command (42_deflate.md R212). -/
def initPacker : Packer := { bitbuf := 0, bitcnt := 0, out := [] }

/-- The packer after the block header (42_deflate.md R211). -/
def packHeader (pk : Packer) : Packer := putBits (putBits pk 1 1) 1 2

/-- The packer after a whole block: header, symbols, end of block, padding (42_deflate.md R212, R217). -/
def packBlock (syms : List Sym) : Packer :=
  flushToByte (emitCode (syms.foldl emitSym (packHeader initPacker)) 256)

end Sys2Proof.Machine
end

