-- ==== Sys2Proof/Machine/MatchFinder.lean ====
section
/-! DEFINITION. The LZ77 match finder and the greedy parse (42_deflate.md R212, R218 to R229, R238). -/

namespace Sys2Proof.Machine

/-- `in[i]`. Every rule reads an index below n only. -/
def inByte (input : List Byte) (i : Nat) : Byte := input.getD i 0

/-- `HASH3(b0, b1, b2)` (42_deflate.md R219). -/
def hash3 (b0 b1 b2 : Byte) : Nat := ((b0.toNat <<< 10) ^^^ (b1.toNat <<< 5) ^^^ b2.toNat) &&& 0x7FFF

/-- The hash of the 3-byte window at position q (42_deflate.md R219). -/
def hashAt (input : List Byte) (q : Nat) : Nat :=
  hash3 (inByte input q) (inByte input (q + 1)) (inByte input (q + 2))

/-- `init_tables()` (42_deflate.md R218). -/
def initTables : MatchTables := { head := [], prev := [] }

/-- `head[h]`; `none` is NIL (10_state.md R64). -/
def headAt (t : MatchTables) (h : Nat) : Option Nat := listGet t.head h

/-- `prev[c mod 32768]`; `none` is NIL (10_state.md R65, 42_deflate.md R228). -/
def prevAt (t : MatchTables) (c : Nat) : Option Nat := listGet t.prev (c % Config.tableSize)

/-- `insert(q)` (42_deflate.md R220). -/
def insertPos (input : List Byte) (t : MatchTables) (q : Nat) : MatchTables :=
  if q + 3 ≤ input.length then
    { head := listSet t.head (hashAt input q) q
      prev := listPut t.prev (q % Config.tableSize) (headAt t (hashAt input q)) }
  else t

/-- `insert(q)` for q = p, p + 1, ..., p + k - 1 (42_deflate.md R221). -/
def insertRange (input : List Byte) (t : MatchTables) : Nat → Nat → MatchTables
  | _, 0 => t
  | p, k + 1 => insertRange input (insertPos input t p) (p + 1) k

/-- How many bytes from c and from p on agree, at most `maxlen` (42_deflate.md R226, R227). -/
def matchLen (input : List Byte) : Nat → Nat → Nat → Nat
  | 0, _, _ => 0
  | maxlen + 1, c, p => if inByte input c = inByte input p then matchLen input maxlen (c + 1) (p + 1) + 1 else 0

/-- The loop of `find_match` (42_deflate.md R222): `probes` candidates may still be compared, `cand` is the next one,
`best` and `bestd` the best length so far and its distance. -/
def searchChain (input : List Byte) (t : MatchTables) (p maxlen : Nat) : Nat → Option Nat → Nat → Nat → Nat × Nat
  | 0, _, best, bestd => (best, bestd)
  | _, none, best, bestd => (best, bestd)
  | probes + 1, some c, best, bestd =>
    if Config.windowSize < p - c then (best, bestd)
    else
      let l := matchLen input maxlen c p
      if best < l then
        if l = maxlen then (l, p - c)
        else searchChain input t p maxlen probes (prevAt t c) l (p - c)
      else searchChain input t p maxlen probes (prevAt t c) best bestd

/-- `find_match(p)` (42_deflate.md R222): a length and a distance, or (0, 0). -/
def findMatch (input : List Byte) (t : MatchTables) (p : Nat) : Nat × Nat :=
  if p + 3 ≤ input.length then
    let r := searchChain input t p (min Config.maxMatch (input.length - p)) Config.maxProbes
      (headAt t (hashAt input p)) 0 0
    if Config.minMatch ≤ r.1 then r else (0, 0)
  else (0, 0)

/-- The greedy parse from position p on (42_deflate.md R212, R238): the symbols, and the tables it leaves. `fuel` is
at least n - p: each symbol covers a byte or more. The bits of a symbol do not act on the search, so the symbols are
listed here and coded in Machine/BitPacker.lean (log entry 15). -/
def parseFrom (input : List Byte) : Nat → Nat → MatchTables → List Sym × MatchTables
  | 0, _, t => ([], t)
  | fuel + 1, p, t =>
    if p < input.length then
      let m := findMatch input t p
      if Config.minMatch ≤ m.1 then
        let r := parseFrom input fuel (p + m.1) (insertRange input t p m.1)
        (.pair m.1 m.2 :: r.1, r.2)
      else
        let r := parseFrom input fuel (p + 1) (insertPos input t p)
        (.lit (inByte input p) :: r.1, r.2)
    else ([], t)

/-- The parse of a whole input (42_deflate.md R212). -/
def parse (input : List Byte) : List Sym × MatchTables := parseFrom input input.length 0 initTables

end Sys2Proof.Machine
end

