-- ==== Sys2Proof/Machine/Deflate.lean ====
section
/-! DEFINITION. The DEFLATE block encoder and its command (42_deflate.md R210, R212, R235, R236). -/

namespace Sys2Proof.Machine

/-- A symbol is a literal (42_deflate.md R235). -/
def Sym.isLit : Sym → Bool
  | .lit _ => true
  | .pair _ _ => false

/-- `deflate_block(in)` (42_deflate.md R212): the bytes, the number of literals and of length/distance pairs, and the
internal state at its end. -/
def deflateBlock (input : List Byte) : Block :=
  let r := parse input
  let pk := packBlock r.1
  { bytes := pk.out
    lits := r.1.countP Sym.isLit
    pairs := r.1.countP (fun y => !y.isLit)
    tables := r.2
    packer := pk }

/-- The internal state a block leaves (42_deflate.md R218, R230). -/
def State.keepTables (s : State) (b : Block) : State :=
  { s with tables := b.tables, bitbuf := b.packer.bitbuf, bitcnt := b.packer.bitcnt }

/-- The counters of a successful block (42_deflate.md R235). -/
def State.keepCounts (s : State) (b : Block) : State :=
  { s with litCount := BitVec.ofNat 32 b.lits, matchCount := BitVec.ofNat 32 b.pairs }

/-- The rule of `deflate` after the prologue (42_deflate.md R210). -/
def deflateRule (s : State) : State :=
  let b := deflateBlock s.srcBytes
  (s.keepTables b).finishStream b.bytes (fun t => t.keepCounts b) State.drawCounts

/-- `deflate` (42_deflate.md R210). -/
def execDeflate (s : State) : Host.Outcome State Fault Refusal :=
  .next (withPrologue .transform State.drawCounts deflateRule s)

end Sys2Proof.Machine
end

