-- ==== Sys2Proof/Machine/Zlib.lean ====
section
/-! DEFINITION. The zlib wrapper (43_zlib.md R260 to R265). -/

namespace Sys2Proof.Machine

/-- The zlib stream around a DEFLATE block with the checksum `adl` of its input (43_zlib.md R260 to R262). -/
def zlibStream (b : Block) (adl : Word) : List Byte := Config.zlibHeader ++ b.bytes ++ be32 adl

/-- The rule of `zlib` after the prologue (43_zlib.md R260, R263). -/
def zlibRule (s : State) : State :=
  let b := deflateBlock s.srcBytes
  let ab := adlerFeed adlerInit s.srcBytes
  { s.keepTables b with za := ab.1, zb := ab.2 }.finishStream (zlibStream b (adlerPack ab))
    (fun t => { t.keepCounts b with adlerAcc := adlerPack ab }) State.drawCounts

/-- `zlib` (43_zlib.md R260). -/
def execZlib (s : State) : Host.Outcome State Fault Refusal :=
  .next (withPrologue .transform State.drawCounts zlibRule s)

end Sys2Proof.Machine
end

