-- ==== Sys2Proof/Machine/Dispatch.lean ====
section
/-! DEFINITION. One arm per command of the command map (30_encoding.md R113): the engine's step `complete` for it
(40_control.md R163). -/

namespace Sys2Proof.Machine

def exec (i : Instr) (s : State) : Host.Outcome State Fault Refusal :=
  match i with
  | .nop => Sys2Proof.Machine.execNop s
  | .rleEnc => Sys2Proof.Machine.execRleEnc s
  | .rleDec => Sys2Proof.Machine.execRleDec s
  | .deflate => Sys2Proof.Machine.execDeflate s
  | .zlib => Sys2Proof.Machine.execZlib s
  | .crc32Start => Sys2Proof.Machine.execCrc32Start s
  | .crc32Cont => Sys2Proof.Machine.execCrc32Cont s
  | .adler32Start => Sys2Proof.Machine.execAdler32Start s
  | .adler32Cont => Sys2Proof.Machine.execAdler32Cont s

end Sys2Proof.Machine
end

