-- ==== Sys2Proof/Machine/Engine.lean ====
section
/-! DEFINITION. The engine's step `complete`: it takes the latched command word, decodes it and performs its whole rule
(40_control.md R163). -/

namespace Sys2Proof.Machine

/-- The word of the running command (10_state.md R67). -/
def State.fetchWord (s : State) : Word := s.latch.cmd

/-- `complete` for a word: a command's rule, or that of the illegal words (30_encoding.md R112, 40_control.md R163,
R169). -/
def completeWord (w : Word) (s : State) : Host.Outcome State Fault Refusal :=
  match decode w with
  | .ok i => exec i s
  | .error _ => execIllegal w s

/-- A turn of the engine: `complete` while Busy, nothing while Idle (40_control.md R163, 60_exceptions.md R317). -/
def engineStep (s : State) : Host.Outcome State Fault Refusal :=
  if s.eng = .busy then completeWord s.fetchWord s else .next s

end Sys2Proof.Machine
end

