-- ==== Sys2Proof/Machine/DmemPort.lean ====
section
/-! DEFINITION. The DMEM host port (10_state.md R33, 20_memory.md R82 to R84, R98, 70_reset_and_hazards.md R348). -/

namespace Sys2Proof.Machine

/-- An address lies in the running transform command's destination region: a host read there returns any value
(20_memory.md R98; log entry 13). -/
def State.inBusyDestination (s : State) (a : Nat) : Bool :=
  decide (s.eng = .busy) && decide (wordClass s.latch.cmd = .transform) && inRegion s.latch.dst s.latch.cap a

/-- An address the host may not write while a command runs: one of `[SRC, SRC + n)` or, for a transform command, of
`[DST, DST + CAP)` (70_reset_and_hazards.md R348; log entry 12). -/
def State.writeBarred (s : State) (a : Nat) : Bool :=
  (decide (s.eng = .busy) && inRegion s.latch.src s.latch.n a) || s.inBusyDestination a

/-- The byte a host read returns at an address; `i` tells the draws of one word read apart (20_memory.md R82, R98;
free value, log entry 3). -/
def State.hostByte (s : State) (i a : Nat) : Byte :=
  if s.inBusyDestination a then Config.freeByte (s.draws + i) else Memory.read s.dmem a

/-- A host access to `len` bytes from address a on lies in DMEM (20_memory.md R82 to R84). -/
def State.hostInRange (s : State) (a len : Nat) : Bool := decide (a + len ≤ s.dmemSize)

/-- A word access is aligned (20_memory.md R83). -/
def wordAligned (a : Nat) : Bool := decide (a % 4 = 0)

/-- A DMEM read hands its value to the read port. It has no other effect (20_memory.md R94); the draw counter moves
only while Busy. -/
def State.takeRead (s : State) (v : Word) (k : Nat) : State :=
  { s with memRdata := v, draws := if s.eng = .busy then s.draws + k else s.draws }

/-- `HostByteRead(a)` (20_memory.md R82, R84). -/
def doByteRead (s : State) (a : Nat) : Host.Outcome State Fault Refusal :=
  if s.hostInRange a 1 then .next (s.takeRead ((s.hostByte 0 a).setWidth 32) 1) else .refused .dmemOutOfRange

/-- `HostWordRead(a)` (20_memory.md R83, R84). -/
def doWordRead (s : State) (a : Nat) : Host.Outcome State Fault Refusal :=
  if s.hostInRange a 4 then
    if wordAligned a then
      .next (s.takeRead (ofLe32 (s.hostByte 0 a) (s.hostByte 1 (a + 1)) (s.hostByte 2 (a + 2)) (s.hostByte 3 (a + 3))) 4)
    else .refused .dmemMisaligned
  else .refused .dmemOutOfRange

/-- `HostByteWrite(a, b)` (20_memory.md R82, R84, 70_reset_and_hazards.md R348). -/
def doByteWrite (s : State) (a : Nat) (b : Byte) : Host.Outcome State Fault Refusal :=
  if s.hostInRange a 1 then
    if s.writeBarred a then .refused .dmemRegionBusy
    else .next { s with dmem := Memory.write s.dmem a b }
  else .refused .dmemOutOfRange

/-- `HostWordWrite(a, w)` (20_memory.md R83, R84, 70_reset_and_hazards.md R348): refused whole when one of its bytes
is barred. -/
def doWordWrite (s : State) (a : Nat) (w : Word) : Host.Outcome State Fault Refusal :=
  if s.hostInRange a 4 then
    if wordAligned a then
      if s.writeBarred a || s.writeBarred (a + 1) || s.writeBarred (a + 2) || s.writeBarred (a + 3) then
        .refused .dmemRegionBusy
      else .next { s with dmem := Memory.writeBytes s.dmem a (le32 w) }
    else .refused .dmemMisaligned
  else .refused .dmemOutOfRange

end Sys2Proof.Machine
end

