-- ==== Sys2Proof/Machine/Reset.lean ====
section
/-! DEFINITION. The two resets, the hardware one and the soft one: one state change (70_reset_and_hazards.md R340 to
R345, 10_state.md R70). -/

namespace Sys2Proof.Machine

/-- A reset that happens now aborts a transform command whose region checks pass, so that its destination region
holds any value afterwards (70_reset_and_hazards.md R343). -/
def State.abortsTransform (s : State) : Bool :=
  decide (s.eng = .busy) && decide (wordClass s.latch.cmd = .transform) && decide (s.prologueError .transform = none)

/-- DMEM after a reset: unchanged (70_reset_and_hazards.md R344) but for the destination region of an aborted
transform command (R343). -/
def State.abort (s : State) : State := if s.abortsTransform then s.drawDestination else s

/-- Every register at its reset value and the engine Idle (10_state.md R70). The internal tables, which the spec
leaves unspecified and unobservable there, keep what they hold (log entry 8). -/
def State.resetRegisters (s : State) : State :=
  { s with
    eng := .idle
    ie := false
    done := false
    ovr := false
    cmd := 0
    srcAddr := 0
    srcLen := 0
    dstAddr := 0
    dstCap := 0
    outLen := 0
    errCode := 0
    errInfo := 0
    crcAcc := 0xFFFFFFFF
    adlerAcc := 1
    litCount := 0
    matchCount := 0
    hdrSizeLo := 0
    hdrSizeHi := 0 }

/-- The state change of either reset (70_reset_and_hazards.md R340, R342). -/
def State.applyReset (s : State) : State := s.abort.resetRegisters

/-- `rst_n` goes low (70_reset_and_hazards.md R340). -/
def State.assertReset (s : State) : State := { s.applyReset with inReset := true }

/-- `rst_n` goes high: at the release every piece of state has its reset value (70_reset_and_hazards.md R340). If
`rst_n` was high already, nothing changes (log entry 11). -/
def State.releaseReset (s : State) : State := if s.inReset then { s.applyReset with inReset := false } else s

end Sys2Proof.Machine
end

