-- ==== Sys2Proof/Machine/RegPort.lean ====
section
/-! DEFINITION. The register port: the register map (10_state.md R40), what a write does (R41 to R59) and what a read
returns (R39, R60). -/

namespace Sys2Proof.Machine

/-- The offset of a register (10_state.md R40). -/
def Reg.offset : Reg → BitVec 8
  | .id => 0x00
  | .ctrl => 0x04
  | .status => 0x08
  | .cmd => 0x0C
  | .srcAddr => 0x10
  | .srcLen => 0x14
  | .dstAddr => 0x18
  | .dstCap => 0x1C
  | .outLen => 0x20
  | .errCode => 0x24
  | .errInfo => 0x28
  | .crcAcc => 0x2C
  | .crcResult => 0x30
  | .adlerAcc => 0x34
  | .litCount => 0x38
  | .matchCount => 0x3C
  | .hdrSizeLo => 0x40
  | .hdrSizeHi => 0x44
  | .dmemSize => 0x48

/-- The register map, by offset (10_state.md R40). -/
def regMap : List (BitVec 8 × Reg) :=
  [(0x00, .id), (0x04, .ctrl), (0x08, .status), (0x0C, .cmd), (0x10, .srcAddr), (0x14, .srcLen), (0x18, .dstAddr),
   (0x1C, .dstCap), (0x20, .outLen), (0x24, .errCode), (0x28, .errInfo), (0x2C, .crcAcc), (0x30, .crcResult),
   (0x34, .adlerAcc), (0x38, .litCount), (0x3C, .matchCount), (0x40, .hdrSizeLo), (0x44, .hdrSizeHi),
   (0x48, .dmemSize)]

/-- The register at an aligned offset; `none` is a reserved offset (10_state.md R39, R40). -/
def regAt (off : BitVec 8) : Option Reg := regMap.lookup off

/-- A register transaction that has a meaning: all 32 bits, an offset that is a multiple of 4 (10_state.md R38). -/
def regAccessDefined (w : Width) (off : BitVec 8) : Bool := decide (w = .word) && decide (off.toNat % 4 = 0)

/-- What a register holds (10_state.md R41 to R58). -/
def State.regValue (s : State) : Reg → Word
  | .id => Config.idValue
  | .ctrl => s.ctrlWord
  | .status => s.statusWord
  | .cmd => s.cmd
  | .srcAddr => s.srcAddr
  | .srcLen => s.srcLen
  | .dstAddr => s.dstAddr
  | .dstCap => s.dstCap
  | .outLen => s.outLen
  | .errCode => s.errCode.setWidth 32
  | .errInfo => s.errInfo
  | .crcAcc => s.crcAcc
  | .crcResult => s.crcAcc ^^^ 0xFFFFFFFF
  | .adlerAcc => s.adlerAcc
  | .litCount => s.litCount
  | .matchCount => s.matchCount
  | .hdrSizeLo => s.hdrSizeLo
  | .hdrSizeHi => s.hdrSizeHi
  | .dmemSize => BitVec.ofNat 32 s.dmemSize

/-- The result registers, whose reads while Busy return any value (10_state.md R60). -/
def Reg.isResult : Reg → Bool
  | .outLen | .errCode | .errInfo | .crcAcc | .crcResult | .adlerAcc | .litCount | .matchCount | .hdrSizeLo
  | .hdrSizeHi => true
  | .id | .ctrl | .status | .cmd | .srcAddr | .srcLen | .dstAddr | .dstCap | .dmemSize => false

/-- What a read of a listed register returns: its value, but while Busy any value for a result register and any value
for the bit STATUS.ERR (10_state.md R60; free values, log entry 3). -/
def State.regRead (s : State) (r : Reg) : Word :=
  if s.eng = .busy then
    if r.isResult then Config.freeWord s.draws
    else if r = .status then statusWith s ((Config.freeWord s.draws).getLsbD 0)
    else s.regValue r
  else s.regValue r

/-- What a read at an aligned offset returns; a reserved offset reads 0 (10_state.md R39). -/
def State.offsetRead (s : State) (off : BitVec 8) : Word :=
  match regAt off with
  | some r => s.regRead r
  | none => 0

/-- `RegRead(off)` (10_state.md R32): the value goes to the read port. A read has no other effect (20_memory.md R94);
the draw counter moves only while Busy. -/
def State.doRegRead (s : State) (off : BitVec 8) : State :=
  { s with
    regRdata := s.offsetRead off
    draws := if s.eng = .busy then s.draws + 1 else s.draws }

/-- A write of CTRL: bit 1 is the soft reset, and then IE is 0 whatever bit 0 is (10_state.md R42). -/
def State.writeCtrl (s : State) (v : Word) : State :=
  if v.getLsbD 1 then s.applyReset else { s with ie := v.getLsbD 0 }

/-- A write of STATUS: write-one-to-clear of DONE and of OVR (10_state.md R43). -/
def State.writeStatus (s : State) (v : Word) : State :=
  { s with done := s.done && !v.getLsbD 1, ovr := s.ovr && !v.getLsbD 3 }

/-- A write of CMD: accepted when Idle (40_control.md R160); dropped, setting OVR, when Busy (R170). -/
def State.writeCmd (s : State) (v : Word) : State :=
  if s.eng = .busy then { s with ovr := true } else s.accept v

/-- A write that is ignored while Busy (10_state.md R59). -/
def State.whenIdle (s : State) (t : State) : State := if s.eng = .busy then s else t

/-- What a write of a listed register does (10_state.md R41 to R59). -/
def State.regWrite (s : State) (r : Reg) (v : Word) : State :=
  match r with
  | .ctrl => s.writeCtrl v
  | .status => s.writeStatus v
  | .cmd => s.writeCmd v
  | .srcAddr => s.whenIdle { s with srcAddr := v }
  | .srcLen => s.whenIdle { s with srcLen := v }
  | .dstAddr => s.whenIdle { s with dstAddr := v }
  | .dstCap => s.whenIdle { s with dstCap := v }
  | .crcAcc => s.whenIdle { s with crcAcc := v }
  | .adlerAcc => s.whenIdle { s with adlerAcc := v }
  | .id | .outLen | .errCode | .errInfo | .crcResult | .litCount | .matchCount | .hdrSizeLo | .hdrSizeHi
  | .dmemSize => s

/-- `RegWrite(off, v)` (10_state.md R32); a write of a reserved offset has no effect (R39). -/
def State.doRegWrite (s : State) (off : BitVec 8) (v : Word) : State :=
  match regAt off with
  | some r => s.regWrite r v
  | none => s

end Sys2Proof.Machine
end

