-- ==== Sys2Proof/Machine/HostPort.lean ====
section
/-! DEFINITION. One step of the host, or of the reset pin (10_state.md R30, R37, 70_reset_and_hazards.md R340), and the
pseudo-operations of a host program (30_encoding.md R118, R119). -/

namespace Sys2Proof.Machine

/-- `RegWrite` of a given width (10_state.md R32, R38). -/
def hostRegWrite (s : State) (w : Width) (off : BitVec 8) (v : Word) : Host.Outcome State Fault Refusal :=
  if regAccessDefined w off then .next (s.doRegWrite off v) else .refused .regAccessForm

/-- `RegRead` of a given width (10_state.md R32, R38). -/
def hostRegRead (s : State) (w : Width) (off : BitVec 8) : Host.Outcome State Fault Refusal :=
  if regAccessDefined w off then .next (s.doRegRead off) else .refused .regAccessForm

/-- One read of the loop `wait` (30_encoding.md R119): a read of STATUS that finds BUSY repeats after a turn of the
engine, which must come (70_reset_and_hazards.md R353; log entry 2). -/
def State.pollStatus (s : State) : State :=
  let t := s.doRegRead Reg.status.offset
  if t.regRdata.getLsbD 0 then { t with inbox := .engine :: .host .wait :: t.inbox } else t

/-- A host transaction while `rst_n` is low has no meaning (70_reset_and_hazards.md R340). -/
def whenOutOfReset (s : State) (o : Host.Outcome State Fault Refusal) : Host.Outcome State Fault Refusal :=
  if s.inReset then .refused .heldInReset else o

/-- One step of the host or of the reset pin, its entry already taken from the inbox. -/
def hostStep (op : HostOp) (s : State) : Host.Outcome State Fault Refusal :=
  match op with
  | .regWrite w off v => whenOutOfReset s (hostRegWrite s w off v)
  | .regRead w off => whenOutOfReset s (hostRegRead s w off)
  | .byteWrite a b => whenOutOfReset s (doByteWrite s a b)
  | .byteRead a => whenOutOfReset s (doByteRead s a)
  | .wordWrite a v => whenOutOfReset s (doWordWrite s a v)
  | .wordRead a => whenOutOfReset s (doWordRead s a)
  | .wait => whenOutOfReset s (.next s.pollStatus)
  | .assertReset => .next s.assertReset
  | .releaseReset => .next s.releaseReset

/-- `wr REG, v` (30_encoding.md R118). -/
def wr (r : Reg) (v : Word) : Event := .host (.regWrite .word r.offset v)

/-- `rd REG` (30_encoding.md R118). -/
def rd (r : Reg) : Event := .host (.regRead .word r.offset)

/-- `sb a, b` (30_encoding.md R118). -/
def sb (a : Nat) (b : Byte) : Event := .host (.byteWrite a b)

/-- `lb a` (30_encoding.md R118). -/
def lb (a : Nat) : Event := .host (.byteRead a)

/-- `sw a, w` (30_encoding.md R118). -/
def sw (a : Nat) (w : Word) : Event := .host (.wordWrite a w)

/-- `lw a` (30_encoding.md R118). -/
def lw (a : Nat) : Event := .host (.wordRead a)

/-- `bytes a, b0 b1 ...`: one `sb a+i, b_i` for each byte, the address an unbounded sum, so that bytes behind the end of
DMEM are refused and none wraps to address 0 (30_encoding.md R119, 00_scope.md R10, 20_memory.md R84). -/
def storeBytes : Nat → List Byte → List Event
  | _, [] => []
  | a, b :: rest => sb a b :: storeBytes (a + 1) rest

/-- `ack` (30_encoding.md R119). -/
def ackEvent : Event := wr .status 2

/-- `run MNEM src, len, dst, cap` (30_encoding.md R119). -/
def runCommand (i : Instr) (src len dst cap : Word) : List Event :=
  [wr .srcAddr src, wr .srcLen len, wr .dstAddr dst, wr .dstCap cap, wr .cmd (encode i), .host .wait]

/-- `sum MNEM src, len` (30_encoding.md R119). -/
def sumCommand (i : Instr) (src len : Word) : List Event :=
  [wr .srcAddr src, wr .srcLen len, wr .cmd (encode i), .host .wait]

end Sys2Proof.Machine
end

