-- ==== Sys2Proof/Machine/Step.lean ====
section
/-! DEFINITION. One step of the machine: the next entry of the inbox says which agent moves (10_state.md R30, R31, R37;
log entry 1). With no entry left the engine moves: it completes a running command (70_reset_and_hazards.md R353), and
an idle block does nothing (R345). -/

namespace Sys2Proof.Machine

/-- The state whose next inbox entry has been taken. -/
def State.takeEvent (s : State) : State := { s with inbox := s.inbox.tail }

/-- One step. -/
def step (s : State) : Host.Outcome State Fault Refusal :=
  match s.inbox with
  | [] => engineStep s
  | .engine :: _ => engineStep s.takeEvent
  | .host op :: _ => hostStep op s.takeEvent

/-- The state in which the command word, the low `nbits` bits of `w`, has just been accepted from the registers
(40_control.md R161) and the very next step is its `complete`. It stands for the host's CMD write (log entry 10). -/
def State.withFetchWord (s : State) (nbits w : Nat) : State :=
  { s.accept (tableWord nbits w) with inReset := false, inbox := .engine :: s.inbox }

end Sys2Proof.Machine
end

