-- ==== Sys2Proof/Safety.lean ====
section
/-! DEFINITION. The terms in which claims are made: when a command's regions are sound, when a host transaction has a
meaning, what a safe run is, and the invariant of the machine. -/

namespace Sys2Proof.Machine

/-- The source region lies in DMEM (20_memory.md R86). -/
abbrev State.SrcOk (s : State) : Prop := s.latch.src.toNat + s.latch.n.toNat ≤ s.dmemSize

/-- The destination region lies in DMEM (20_memory.md R86). -/
abbrev State.DstOk (s : State) : Prop := s.latch.dst.toNat + s.latch.cap.toNat ≤ s.dmemSize

/-- The two regions share no byte (20_memory.md R87). -/
abbrev State.Apart (s : State) : Prop :=
  s.latch.n.toNat = 0 ∨ s.latch.cap.toNat = 0 ∨
  s.latch.dst.toNat + s.latch.cap.toNat ≤ s.latch.src.toNat ∨
  s.latch.src.toNat + s.latch.n.toNat ≤ s.latch.dst.toNat

/-- The regions of a transform command pass all three checks (40_control.md R167). -/
abbrev State.RegionsOk (s : State) : Prop := s.SrcOk ∧ s.DstOk ∧ s.Apart

/-- The numbers ERR_CODE may hold: 4 and 11 to 15 are never raised (60_exceptions.md R300). -/
def legalErrCodes : List (BitVec 4) := [0, 1, 2, 3, 5, 6, 7, 8, 9, 10]

/-- The engine's turn is next: no transaction is pending, or the next entry of the inbox is a turn of the engine. -/
abbrev State.EngineNext (s : State) : Prop := s.inbox = [] ∨ s.inbox.head? = some .engine

/-- The next entry of the inbox is this host operation. -/
abbrev State.HostNext (s : State) (op : HostOp) : Prop := s.inbox.head? = some (.host op)

/-- A host write of `len` bytes from address a on touches no region of the running command
(70_reset_and_hazards.md R348). -/
abbrev State.WriteFree (s : State) (a len : Nat) : Prop :=
  s.eng = .busy →
    (∀ x, a ≤ x → x < a + len → ¬ (s.latch.src.toNat ≤ x ∧ x < s.latch.src.toNat + s.latch.n.toNat)) ∧
    (wordClass s.latch.cmd = .transform →
      ∀ x, a ≤ x → x < a + len → ¬ (s.latch.dst.toNat ≤ x ∧ x < s.latch.dst.toNat + s.latch.cap.toNat))

/-- A host operation has a meaning in a state: the pin operations always; every other one when `rst_n` is high, its
form is defined, its address lies in DMEM, and a write spares the running command's regions (10_state.md R38,
20_memory.md R84, 70_reset_and_hazards.md R340, R348). -/
def State.HasMeaning (s : State) : HostOp → Prop
  | .regWrite w off _ => s.inReset = false ∧ w = .word ∧ off.toNat % 4 = 0
  | .regRead w off => s.inReset = false ∧ w = .word ∧ off.toNat % 4 = 0
  | .byteWrite a _ => s.inReset = false ∧ a < s.dmemSize ∧ s.WriteFree a 1
  | .byteRead a => s.inReset = false ∧ a < s.dmemSize
  | .wordWrite a _ => s.inReset = false ∧ a % 4 = 0 ∧ a + 4 ≤ s.dmemSize ∧ s.WriteFree a 4
  | .wordRead a => s.inReset = false ∧ a % 4 = 0 ∧ a + 4 ≤ s.dmemSize
  | .wait => s.inReset = false
  | .assertReset => True
  | .releaseReset => True

/-- A run of k steps that no refusal ends. -/
def SafeRun (k : Nat) (s : State) : Prop := ∃ t : State, Host.Core.run core k s = .next t

/-- The invariant of the machine: what every step keeps from any state that has it. -/
structure State.Inv (s : State) : Prop where
  /-- DMEM is in its canonical form -/
  dmemWf : Memory.wf s.dmem
  /-- every listed byte lies in DMEM (20_memory.md R80) -/
  dmemBound : ∀ c ∈ s.dmem, c.1 < s.dmemSize
  /-- no reserved error code appears (60_exceptions.md R300) -/
  errLegal : s.errCode ∈ legalErrCodes
  /-- without an error there is no detail word (10_state.md R51) -/
  errInfoZero : s.errCode = 0 → s.errInfo = 0
  /-- while Busy, DONE and the error registers are as acceptance left them (40_control.md R161) -/
  busyClear : s.eng = .busy → s.done = false ∧ s.errCode = 0 ∧ s.errInfo = 0
  /-- while Busy, the latched copies equal the registers (40_control.md R162) -/
  busyLatch : s.eng = .busy →
    s.latch = { cmd := s.cmd, src := s.srcAddr, n := s.srcLen, dst := s.dstAddr, cap := s.dstCap }
  /-- while `rst_n` is low every register has its reset value (70_reset_and_hazards.md R340) -/
  heldInReset : s.inReset = true → s.resetRegisters = s
  /-- `head` in its canonical form, indexed below 32768 (10_state.md R64) -/
  headWf : keysRise s.tables.head ∧ ∀ c ∈ s.tables.head, c.1 < Config.tableSize
  /-- `prev` in its canonical form, indexed below 32768 (10_state.md R65) -/
  prevWf : keysRise s.tables.prev ∧ ∀ c ∈ s.tables.prev, c.1 < Config.tableSize
  /-- at most 7 bits are buffered (10_state.md R66) -/
  bitcntBound : s.bitcnt < 8
  /-- the internal Adler pair is reduced (43_zlib.md R260) -/
  zBound : s.za < Config.adlerMod ∧ s.zb < Config.adlerMod

end Sys2Proof.Machine
end

