-- ==== Sys2Proof/Certificates/Slice0/Reference.lean ====
section
/-! DEFINITION. Reference functions the statements compare the model with: each is written from the spec's words about
the RESULT (a decoder, an expansion, a bit-serial register), not from the encoder's pseudocode. -/

namespace Sys2Proof.Reference

open Sys2Proof Sys2Proof.Machine

/-- One bit into a bit-serial reflected CRC-32 register: the equivalent bitwise logic of 44_checksum.md R270. -/
def crcBit (acc : Word) (bit : Bool) : Word :=
  if acc.getLsbD 0 != bit then (acc >>> 1) ^^^ 0xEDB88320 else acc >>> 1

/-- A byte into the bit-serial register, least significant bit first. -/
def crcByte (acc : Word) (b : Byte) : Word := (List.range 8).foldl (fun c i => crcBit c (b.getLsbD i)) acc

/-- The sum of the bytes of a string. -/
def byteSum (l : List Byte) : Nat := (l.map BitVec.toNat).sum

/-- The sum of the bytes, each weighted by how many bytes remain from it on. -/
def weightedSum : List Byte → Nat
  | [] => 0
  | b :: rest => (rest.length + 1) * b.toNat + weightedSum rest

/-- The eight bytes of a size, byte k holding its bits 8k+7 to 8k: least significant byte first (00_scope.md R15,
20_memory.md R92, 30_encoding.md R121). -/
def sizeField (size : Nat) : List Byte := (List.range 8).map (fun k => BitVec.ofNat 8 (size / 256 ^ k))

/-- The bytes of an RLE container with a declared size and (count, value) pairs (30_encoding.md R121, R122). -/
def container (size : Nat) (pairs : List (Byte × Byte)) : List Byte :=
  [0x52, 0x4C, 0x45, 0x46] ++ sizeField size ++ pairs.flatMap (fun p => [p.1, p.2])

/-- What the pairs of a container expand to (30_encoding.md R122). -/
def expansion (pairs : List (Byte × Byte)) : List Byte :=
  pairs.flatMap (fun p => List.replicate p.1.toNat p.2)

/-- Copy `k` bytes from `dist` back, byte by byte, so that a copy may overlap itself (42_deflate.md R227). -/
def copyBack (dist : Nat) : Nat → List Byte → List Byte
  | 0, out => out
  | k + 1, out => copyBack dist k (out ++ [out.getD (out.length - dist) 0])

/-- The expansion of DEFLATE symbols behind the bytes already there; `none` where a pair has no legal length or
distance or points before the start (42_deflate.md R237). -/
def expandSyms : List Sym → List Byte → Option (List Byte)
  | [], out => some out
  | .lit b :: rest, out => expandSyms rest (out ++ [b])
  | .pair len dist :: rest, out =>
    if 3 ≤ len ∧ len ≤ 258 ∧ 1 ≤ dist ∧ dist ≤ 32768 ∧ dist ≤ out.length then
      expandSyms rest (copyBack dist len out)
    else none

/-- The bits of a byte string in stream order: bit 0 of the first byte first (30_encoding.md R132). -/
def bitsOf (l : List Byte) : List Bool := l.flatMap (fun b => (List.range 8).map (fun i => b.getLsbD i))

/-- The `k` low bits of v, the most significant of them first: a Huffman code in stream order (30_encoding.md R125). -/
def msbBits (v k : Nat) : List Bool := (List.range k).map (fun i => v.testBit (k - 1 - i))

/-- The `k` low bits of v, least significant first: a plain field in stream order (30_encoding.md R129). -/
def lsbBits (v k : Nat) : List Bool := (List.range k).map (fun i => v.testBit i)

/-- The code of a literal/length symbol in stream order, by the four ranges of 30_encoding.md R125. -/
def codeBits (sym : Nat) : List Bool :=
  if sym < 144 then msbBits (0x30 + sym) 8
  else if sym < 256 then msbBits (0x190 + (sym - 144)) 9
  else if sym < 280 then msbBits (sym - 256) 7
  else msbBits (0xC0 + (sym - 280)) 8

/-- The rows of the length symbols 257 to 285: extra bits and base (30_encoding.md R127). -/
def lengthRows : List (Nat × Nat) :=
  [(0, 3), (0, 4), (0, 5), (0, 6), (0, 7), (0, 8), (0, 9), (0, 10)] ++
  [(1, 11), (1, 13), (1, 15), (1, 17), (2, 19), (2, 23), (2, 27), (2, 31)] ++
  [(3, 35), (3, 43), (3, 51), (3, 59), (4, 67), (4, 83), (4, 99), (4, 115)] ++
  [(5, 131), (5, 163), (5, 195), (5, 227), (0, 258)]

/-- The rows of the distance symbols 0 to 29: extra bits and base (30_encoding.md R128). -/
def distRows : List (Nat × Nat) :=
  [(0, 1), (0, 2), (0, 3), (0, 4), (1, 5), (1, 7), (2, 9), (2, 13), (3, 17), (3, 25)] ++
  [(4, 33), (4, 49), (5, 65), (5, 97), (6, 129), (6, 193), (7, 257), (7, 385), (8, 513), (8, 769)] ++
  [(9, 1025), (9, 1537), (10, 2049), (10, 3073), (11, 4097), (11, 6145), (12, 8193), (12, 12289)] ++
  [(13, 16385), (13, 24577)]

/-- The extra bits of a row. -/
def rowExtra (rows : List (Nat × Nat)) (i : Nat) : Nat := (rows.getD i (0, 0)).1

/-- The base of a row. -/
def rowBase (rows : List (Nat × Nat)) (i : Nat) : Nat := (rows.getD i (0, 0)).2

/-- The last row whose base is at most x, the bases rising: how many such rows there are, less 1
(42_deflate.md R215, R216). -/
def rowOf (rows : List (Nat × Nat)) (x : Nat) : Nat := (rows.filter (fun r => r.2 ≤ x)).length - 1

/-- The extra bits of a value in stream order: its difference from its row's base (30_encoding.md R129). -/
def extraBits (rows : List (Nat × Nat)) (x : Nat) : List Bool :=
  lsbBits (x - rowBase rows (rowOf rows x)) (rowExtra rows (rowOf rows x))

/-- The bits of a symbol of the parse: for a pair, length symbol, its extra bits, distance symbol, its extra bits
(30_encoding.md R125 to R130). -/
def symBits : Sym → List Bool
  | .lit b => codeBits b.toNat
  | .pair len dist =>
    codeBits (257 + rowOf lengthRows len) ++ extraBits lengthRows len ++
    msbBits (rowOf distRows dist) 5 ++ extraBits distRows dist

/-- Read `k` bits as a number, most significant first, behind the bits already read. -/
def readMsb : Nat → Nat → List Bool → Option (Nat × List Bool)
  | 0, acc, bits => some (acc, bits)
  | _ + 1, _, [] => none
  | k + 1, acc, b :: bits => readMsb k (2 * acc + b.toNat) bits

/-- Read `k` bits as a number, least significant first; `i` is the weight's exponent of the next bit. -/
def readLsb : Nat → Nat → List Bool → Option (Nat × List Bool)
  | 0, _, bits => some (0, bits)
  | _ + 1, _, [] => none
  | k + 1, i, b :: bits => (readLsb k (i + 1) bits).map (fun r => (b.toNat * 2 ^ i + r.1, r.2))

/-- Read one literal/length symbol by the code ranges of 30_encoding.md R125. -/
def readSymbol (bits : List Bool) : Option (Nat × List Bool) :=
  match readMsb 7 0 bits with
  | none => none
  | some (v7, rest7) =>
    if v7 ≤ 0x17 then some (256 + v7, rest7)
    else match readMsb 8 0 bits with
      | none => none
      | some (v8, rest8) =>
        if v8 ≤ 0xBF then some (v8 - 0x30, rest8)
        else if v8 ≤ 0xC7 then some (280 + (v8 - 0xC0), rest8)
        else (readMsb 9 0 bits).map (fun r => (144 + (r.1 - 0x190), r.2))

/-- Read the extra bits of a row and add its base. -/
def readExtra (rows : List (Nat × Nat)) (i : Nat) (bits : List Bool) : Option (Nat × List Bool) :=
  (readLsb (rowExtra rows i) 0 bits).map (fun r => (rowBase rows i + r.1, r.2))

/-- Read the symbols of a block up to its end-of-block symbol (30_encoding.md R124 to R131). -/
def readBlock : Nat → List Bool → Option (List Sym × List Bool)
  | 0, _ => none
  | fuel + 1, bits =>
    match readSymbol bits with
    | none => none
    | some (sym, rest) =>
      if sym ≤ 255 then
        (readBlock fuel rest).map (fun r => (.lit (BitVec.ofNat 8 sym) :: r.1, r.2))
      else if sym = 256 then some ([], rest)
      else if 285 < sym then none
      else match readExtra lengthRows (sym - 257) rest with
        | none => none
        | some (len, rest1) =>
          match readMsb 5 0 rest1 with
          | none => none
          | some (dsym, rest2) =>
            if 29 < dsym then none
            else match readExtra distRows dsym rest2 with
              | none => none
              | some (dist, rest3) =>
                (readBlock fuel rest3).map (fun r => (.pair len dist :: r.1, r.2))

/-- A decoder of one final fixed-Huffman block: header bits 1, 1, 0, symbols, end of block, fewer than eight zero bits
of padding, and the expansion of the symbols (30_encoding.md R124, 42_deflate.md R237). -/
def inflate (bytes : List Byte) : Option (List Byte) :=
  match bitsOf bytes with
  | true :: true :: false :: bits =>
    match readBlock bits.length bits with
    | none => none
    | some (syms, pad) => if pad.length < 8 ∧ pad.all (fun b => !b) then expandSyms syms [] else none
  | _ => none

/-- The hash in its rolled form, from h = 0: `h' = ((h << 5) XOR b) AND 0x7FFF` for each of the three bytes
(42_deflate.md R219). -/
def rolledHash (bytes : List Byte) : Nat := bytes.foldl (fun h b => (h * 32 ^^^ b.toNat) % 32768) 0

/-- The reference hash of the 3-byte window at position q. -/
def windowHash (input : List Byte) (q : Nat) : Nat := rolledHash ((input.drop q).take 3)

/-- `insert(q)` with a chain array that has one entry for every position, of no bounded size (42_deflate.md R228). -/
def insertUnbounded (input : List Byte) (t : MatchTables) (q : Nat) : MatchTables :=
  if q + 3 ≤ input.length then
    { head := listSet t.head (windowHash input q) q
      prev := listPut t.prev q (listGet t.head (windowHash input q)) }
  else t

/-- The tables after `insert(0)`, ..., `insert(p - 1)`, with the unbounded chain array. -/
def unboundedTables (input : List Byte) : Nat → MatchTables
  | 0 => { head := [], prev := [] }
  | p + 1 => insertUnbounded input (unboundedTables input p) p

/-- The tables after `insert(0)`, ..., `insert(p - 1)` of the block, with its ring (42_deflate.md R221). -/
def ringTables (input : List Byte) (p : Nat) : MatchTables := insertRange input initTables 0 p

/-- The candidates of a search at p, in the order of the unbounded chain from c on: at most `k`, each within the
window, the first one beyond it ending the list (42_deflate.md R222 to R224). -/
def candidates (t : MatchTables) (p : Nat) : Nat → Option Nat → List Nat
  | 0, _ => []
  | _, none => []
  | k + 1, some c => if 32768 < p - c then [] else c :: candidates t p k (listGet t.prev c)

/-- The candidates of the search at p over the whole input, at most 64 (42_deflate.md R223). -/
def searchCandidates (input : List Byte) (p : Nat) : List Nat :=
  let t := unboundedTables input p
  candidates t p 64 (listGet t.head (windowHash input p))

/-- How many bytes from c and from p on agree, at most `min(258, n - p)`: the longest such length. -/
def agrees (input : List Byte) (c p l : Nat) : Prop :=
  l ≤ min 258 (input.length - p) ∧ ∀ k < l, input.getD (c + k) 0 = input.getD (p + k) 0

/-- The greedy parse from position p on, in which the search at p sees exactly the positions 0 to p - 1
(42_deflate.md R221, R238). -/
def greedy (input : List Byte) : Nat → Nat → List Sym
  | 0, _ => []
  | fuel + 1, p =>
    if p < input.length then
      let m := findMatch input (ringTables input p) p
      if 3 ≤ m.1 then .pair m.1 m.2 :: greedy input fuel (p + m.1)
      else .lit (input.getD p 0) :: greedy input fuel (p + 1)
    else []

/-- The state as `complete()` leaves it (40_control.md R164). -/
def completed (s : State) : State := { s with eng := .idle, done := true, errCode := 0, errInfo := 0 }

/-- The state as `raise Err(code, info)` leaves it (40_control.md R165), the code as a number. -/
def failed (s : State) (code : BitVec 4) (info : Word) : State :=
  { s with eng := .idle, done := true, errCode := code, errInfo := info }

end Sys2Proof.Reference
end

