-- ==== Sys2Proof/Certificates/Slice0/Obligations.lean ====
section
/-! DEFINITION. The statements for the provers. Each is about the machine as it stands; nothing is proved here. The
next state of a step is always given from `s.takeEvent`, the state whose inbox entry has been taken; `s.draws` counts
free values and is the model's own. Where a next state is the old state with some fields changed, the spec says
nothing of some of the fields that stay: the latch after a command and the internal tables (log entries 8 and 16) and the
values on the read ports (log entry 9) are as those entries choose, and `rst_n` acts as log entry 11 has it. -/

open Sys2Proof Sys2Proof.Machine Sys2Proof.Reference

/-! ### Command words -/

/-- 30_encoding.md R112: every 32-bit word is either exactly one command, whose rule `complete` then performs, or it
is illegal and performs the illegal command's. -/
def Obligations.EveryWordIsOneCommandOrIllegal : Prop :=
  ∀ w : Word,
    (∃ i : Instr, (w.toNat / 256 = 0 ∧ w.toNat % 256 = i.op.toNat) ∧
      (∀ j : Instr, w.toNat / 256 = 0 ∧ w.toNat % 256 = j.op.toNat → j = i) ∧
      ∀ s : State, completeWord w s = exec i s) ∨
    ((∀ i : Instr, ¬ (w.toNat / 256 = 0 ∧ w.toNat % 256 = i.op.toNat)) ∧
      ∀ s : State, completeWord w s = .next (failed s 10 w))

/-- 30_encoding.md R113: the command map, each word written out in its 32 bits. -/
def Obligations.CommandMapWordsDecode : Prop :=
  decode 0b00000000000000000000000000000000#32 = .ok .nop ∧
  decode 0b00000000000000000000000000000001#32 = .ok .rleEnc ∧
  decode 0b00000000000000000000000000000010#32 = .ok .rleDec ∧
  decode 0b00000000000000000000000000000101#32 = .ok .deflate ∧
  decode 0b00000000000000000000000000000110#32 = .ok .zlib ∧
  decode 0b00000000000000000000000000001000#32 = .ok .crc32Start ∧
  decode 0b00000000000000000000000000001001#32 = .ok .crc32Cont ∧
  decode 0b00000000000000000000000000001010#32 = .ok .adler32Start ∧
  decode 0b00000000000000000000000000001011#32 = .ok .adler32Cont

/-- Decode and encode agree in both directions: a word decodes to a command exactly when it is that command's
encoding. -/
def Obligations.DecodeInvertsEncode : Prop := ∀ (w : Word) (i : Instr), decode w = .ok i ↔ w = encode i

/-- 30_encoding.md R114: the illegal words are those with a bit of 31:8 set and those with op 0x03, 0x04, 0x07 or
0x0C to 0xFF; an idle engine accepts each like any command, and its completion is Err(ILLEGAL_CMD, w). -/
def Obligations.IllegalWordsAreAcceptedAndRefusedAlike : Prop :=
  ∀ w : Word,
    ((∀ i : Instr, decode w ≠ .ok i) ↔
      (w.toNat / 256 ≠ 0 ∨ w.toNat % 256 = 0x03 ∨ w.toNat % 256 = 0x04 ∨ w.toNat % 256 = 0x07 ∨
        0x0C ≤ w.toNat % 256)) ∧
    ((∀ i : Instr, decode w ≠ .ok i) → ∀ s : State, s.inReset = false →
      (s.eng = .idle → s.HostNext (.regWrite .word 0x0C w) →
        ∃ t : State, step s = .next t ∧ t.eng = .busy ∧ t.latch.cmd = w ∧ t.cmd = w) ∧
      (s.eng = .busy → s.latch.cmd = w → s.EngineNext → step s = .next (failed s.takeEvent 10 w)))

/-! ### Steps -/

/-- When the engine's turn comes while a command runs, the step is `exec` of the decoded command (40_control.md
R163), with nothing around it but the taking of the inbox entry. -/
def Obligations.EngineTurnRunsTheLatchedCommand : Prop :=
  ∀ (s : State) (i : Instr), s.eng = .busy → s.EngineNext → decode s.latch.cmd = .ok i →
    step s = exec i s.takeEvent

/-- A command word placed by `withFetchWord` runs at the very next step, on the state its acceptance leaves. -/
def Obligations.FetchedWordRunsAtTheNextStep : Prop :=
  ∀ (s : State) (i : Instr) (nbits w : Nat), decodeTableWord nbits w = some i →
    step (s.withFetchWord nbits w) = exec i { s.accept (tableWord nbits w) with inReset := false }

/-- 70_reset_and_hazards.md R345, 60_exceptions.md R317: a turn of the engine changes nothing while it is Idle. -/
def Obligations.IdleEngineTurnChangesNothing : Prop :=
  ∀ s : State, s.eng = .idle → s.EngineNext → step s = .next s.takeEvent

/-- A host operation gets a next state exactly when it has a meaning, and is refused otherwise (10_state.md R38,
20_memory.md R84, 70_reset_and_hazards.md R340, R348). The model's own part of it: the two edges of `rst_n` always have a
meaning, also a rise while high (log entry 11), a write into the source region is refused for every running word
(log entry 12), and a refusal is how a transaction without a meaning ends (log entry 22). -/
def Obligations.HostStepIsRefusedExactlyWithoutMeaning : Prop :=
  ∀ (s : State) (op : HostOp), s.HostNext op →
    ((∃ t : State, step s = .next t) ↔ s.HasMeaning op) ∧
    ((∃ r : Refusal, step s = .refused r) ↔ ¬ s.HasMeaning op)

/-- 70_reset_and_hazards.md R353: a running command comes to an end, or a reset ends it, or a meaningless transaction
ends the run, in a number of steps bounded by the pending input. -/
def Obligations.AcceptedCommandComesToAnEnd : Prop :=
  ∀ s : State, s.eng = .busy →
    ∃ k, k ≤ s.inbox.length + 2 ∧
      ((∃ t : State, Host.Core.run core k s = .next t ∧ t.eng = .idle) ∨
        ∃ r : Refusal, Host.Core.run core k s = .refused r)

/-- 10_state.md R36: STATUS.BUSY is 1 exactly when the engine is Busy; only an accepted CMD write moves Idle to Busy;
only the engine's `complete` or a reset moves Busy to Idle. -/
def Obligations.BusyChangesOnlyByAcceptanceCompletionReset : Prop :=
  (∀ s : State, s.statusWord.getLsbD 0 = true ↔ s.eng = .busy) ∧
  (∀ s t : State, step s = .next t → s.eng = .idle → t.eng = .busy →
    ∃ w : Word, s.HostNext (.regWrite .word 0x0C w) ∧ t = s.takeEvent.accept w) ∧
  (∀ s t : State, step s = .next t → s.eng = .busy → t.eng = .idle →
    s.EngineNext ∨ s.HostNext .assertReset ∨ s.HostNext .releaseReset ∨
    ∃ v : Word, v.getLsbD 1 = true ∧ s.HostNext (.regWrite .word 0x04 v))

/-- 60_exceptions.md R309: DONE falls exactly by a W1C write to STATUS bit 1, by acceptance, or by a reset. That the pin
`rst_n` resets at its two edges, and that a rise while high does nothing, is the model's form of it (log entry 11). -/
def Obligations.DoneFallsOnlyByClearAcceptanceReset : Prop :=
  ∀ s t : State, step s = .next t → s.done = true →
    (t.done = false ↔
      (∃ v : Word, v.getLsbD 1 = true ∧ s.HostNext (.regWrite .word 0x08 v)) ∨
      (s.eng = .idle ∧ ∃ w : Word, s.HostNext (.regWrite .word 0x0C w)) ∨
      (∃ v : Word, v.getLsbD 1 = true ∧ s.HostNext (.regWrite .word 0x04 v)) ∨
      s.HostNext .assertReset ∨ (s.inReset = true ∧ s.HostNext .releaseReset))

/-! ### Registers -/

/-- 40_control.md R160, R161, R162: a CMD write while Idle is accepted whatever the word is: readback, DONE and the
error registers cleared, the parameters latched, everything else unchanged; so irq falls. -/
def Obligations.IdleEngineAcceptsAnyCommandWord : Prop :=
  ∀ (s : State) (w : Word), s.eng = .idle → s.inReset = false → s.HostNext (.regWrite .word 0x0C w) →
    step s = .next { s.takeEvent with
      eng := .busy
      latch := { cmd := w, src := s.srcAddr, n := s.srcLen, dst := s.dstAddr, cap := s.dstCap }
      cmd := w
      done := false
      errCode := 0
      errInfo := 0 } ∧
    (s.takeEvent.accept w).irq = false

/-- 40_control.md R170: a CMD write while Busy is dropped and sets OVR; nothing else changes, so the running command
and the readback stay. -/
def Obligations.BusyEngineDropsACommandWord : Prop :=
  ∀ (s : State) (w : Word), s.eng = .busy → s.inReset = false → s.HostNext (.regWrite .word 0x0C w) →
    step s = .next { s.takeEvent with ovr := true }

/-- 10_state.md R59: the parameter and accumulator registers ignore writes while Busy; CTRL and STATUS writes take
effect then. -/
def Obligations.BusyEngineIgnoresParameterWrites : Prop :=
  ∀ (s : State) (v : Word), s.eng = .busy → s.inReset = false →
    (∀ off ∈ [(0x10 : BitVec 8), 0x14, 0x18, 0x1C, 0x2C, 0x34], s.HostNext (.regWrite .word off v) →
      step s = .next s.takeEvent) ∧
    (s.HostNext (.regWrite .word 0x04 v) → v.getLsbD 1 = false →
      step s = .next { s.takeEvent with ie := v.getLsbD 0 }) ∧
    (s.HostNext (.regWrite .word 0x08 v) →
      step s = .next { s.takeEvent with
        done := s.done && !v.getLsbD 1, ovr := s.ovr && !v.getLsbD 3 })

/-- 10_state.md R42, R43, R45 to R48, R52, R54: while Idle each parameter or accumulator register takes the written
word and nothing else changes; a CTRL write without SRST sets IE from bit 0; a STATUS write clears DONE and OVR where it
holds a 1, leaves them where it holds a 0, and touches nothing else. -/
def Obligations.IdleEngineTakesRegisterWrites : Prop :=
  ∀ (s : State) (v : Word), s.eng = .idle → s.inReset = false →
    let u := s.takeEvent
    (∀ p ∈ [((0x10 : BitVec 8), { u with srcAddr := v }), (0x14, { u with srcLen := v }),
        (0x18, { u with dstAddr := v }), (0x1C, { u with dstCap := v }), (0x2C, { u with crcAcc := v }),
        (0x34, { u with adlerAcc := v })],
      s.HostNext (.regWrite .word p.1 v) → step s = .next p.2) ∧
    (s.HostNext (.regWrite .word 0x04 v) → v.getLsbD 1 = false → step s = .next { u with ie := v.getLsbD 0 }) ∧
    (s.HostNext (.regWrite .word 0x08 v) →
      step s = .next { u with done := s.done && !v.getLsbD 1, ovr := s.ovr && !v.getLsbD 3 })

/-- 10_state.md R39, R41, R53, R58, 20_memory.md R94: writes of the read-only registers and of the reserved offsets have
no effect, and a read of a reserved offset returns 0 and changes nothing but the value on the read port (and, while
Busy, the draw counter). -/
def Obligations.ReadOnlyAndReservedOffsetsIgnoreWrites : Prop :=
  ∀ (s : State) (off : BitVec 8) (v : Word), s.inReset = false → off.toNat % 4 = 0 →
    (off ∈ [(0x00 : BitVec 8), 0x20, 0x24, 0x28, 0x30, 0x38, 0x3C, 0x40, 0x44, 0x48] ∨ 0x4C ≤ off.toNat →
      s.HostNext (.regWrite .word off v) → step s = .next s.takeEvent) ∧
    (0x4C ≤ off.toNat → s.HostNext (.regRead .word off) →
      ∃ d : Nat, (s.eng = .idle → d = s.draws) ∧
        step s = .next { s.takeEvent with regRdata := 0, draws := d })

/-- 10_state.md R40 to R58, 20_memory.md R94: while Idle a register read returns what the register map says, and
changes nothing but the value on the read port. -/
def Obligations.IdleReadsFollowTheRegisterMap : Prop :=
  ∀ s : State, s.eng = .idle → s.inReset = false →
    ∀ p ∈ [((0x00 : BitVec 8), (0x43474431 : Word)),
        (0x04, BitVec.ofNat 32 s.ie.toNat),
        (0x08, BitVec.ofNat 32 (2 * s.done.toNat + 4 * (decide (s.errCode ≠ 0)).toNat + 8 * s.ovr.toNat)),
        (0x0C, s.cmd), (0x10, s.srcAddr), (0x14, s.srcLen), (0x18, s.dstAddr), (0x1C, s.dstCap),
        (0x20, s.outLen), (0x24, BitVec.ofNat 32 s.errCode.toNat), (0x28, s.errInfo), (0x2C, s.crcAcc),
        (0x30, s.crcAcc ^^^ 0xFFFFFFFF), (0x34, s.adlerAcc), (0x38, s.litCount), (0x3C, s.matchCount),
        (0x40, s.hdrSizeLo), (0x44, s.hdrSizeHi), (0x48, BitVec.ofNat 32 (s.dmemSize % 2 ^ 32))],
      s.HostNext (.regRead .word p.1) → step s = .next { s.takeEvent with regRdata := p.2 }

/-- 10_state.md R60: while Busy the control, parameter and identity registers read their defined values, and so do
BUSY, DONE and OVR of STATUS; a read leaves everything but the read port (and the draw counter) as it was. The value
read from a result register, and STATUS.ERR, are free: nothing is said of them. -/
def Obligations.BusyReadsKeepTheDefinedValues : Prop :=
  ∀ (s : State) (r : Reg), s.eng = .busy → s.inReset = false → s.HostNext (.regRead .word r.offset) →
    ∃ (v : Word) (d : Nat), step s = .next { s.takeEvent with regRdata := v, draws := d } ∧
      (∀ p ∈ [(Reg.id, (0x43474431 : Word)), (.ctrl, BitVec.ofNat 32 s.ie.toNat), (.cmd, s.cmd),
          (.srcAddr, s.srcAddr), (.srcLen, s.srcLen), (.dstAddr, s.dstAddr), (.dstCap, s.dstCap),
          (.dmemSize, BitVec.ofNat 32 (s.dmemSize % 2 ^ 32))], r = p.1 → v = p.2) ∧
      (r = .status → v.getLsbD 0 = true ∧ v.getLsbD 1 = s.done ∧ v.getLsbD 3 = s.ovr ∧
        ∀ k, 4 ≤ k → v.getLsbD k = false)

/-- 60_exceptions.md R307, R308: irq is CTRL.IE AND STATUS.DONE. Every completion, with success or error, raises it
when enabled; setting IE with DONE set raises it at once; clearing IE lowers it and keeps DONE; OVR does not raise it. -/
def Obligations.InterruptFollowsEnableAndDone : Prop :=
  (∀ s : State, s.irq = true ↔ s.ie = true ∧ s.done = true) ∧
  (∀ (w : Word) (s t : State), completeWord w s = .next t → t.irq = s.ie) ∧
  (∀ (s : State) (w : Word), (s.regWrite .ctrl w).irq = (!w.getLsbD 1 && (w.getLsbD 0 && s.done))) ∧
  (∀ (s : State) (w : Word), w.getLsbD 1 = false → (s.regWrite .ctrl w).done = s.done) ∧
  (∀ s : State, { s with ovr := true }.irq = s.irq)

/-- `wait` is the loop it stands for (30_encoding.md R119): a poll that reads BUSY = 0 ends it; a poll that reads
BUSY = 1 leaves it pending behind a turn of the engine (log entry 2, the model's choice). -/
def Obligations.WaitPollsUntilIdle : Prop :=
  ∀ s : State, s.inReset = false → s.HostNext .wait →
    (s.eng = .idle → step s = .next { s.takeEvent with regRdata := s.statusWord }) ∧
    (s.eng = .busy → ∃ (v : Word) (d : Nat), v.getLsbD 0 = true ∧
      step s = .next { s.takeEvent with
        regRdata := v, draws := d, inbox := .engine :: .host .wait :: s.inbox.tail })

/-! ### DMEM port -/

/-- 20_memory.md R82, R83, R93: a host write that has a meaning stores its byte, or its four bytes with the least
significant first, and changes no other byte and no register. -/
def Obligations.HostWritesStoreLittleEndian : Prop :=
  (∀ (s : State) (a : Nat) (b : Byte), s.HostNext (.byteWrite a b) → s.HasMeaning (.byteWrite a b) →
    ∃ m : List Host.Cell, step s = .next { s.takeEvent with dmem := m } ∧
      Memory.read m a = b ∧ ∀ x, x ≠ a → Memory.read m x = Memory.read s.dmem x) ∧
  ∀ (s : State) (a : Nat) (w : Word), s.HostNext (.wordWrite a w) → s.HasMeaning (.wordWrite a w) →
    ∃ m : List Host.Cell, step s = .next { s.takeEvent with dmem := m } ∧
      (∀ k < 4, Memory.read m (a + k) = BitVec.ofNat 8 (w.toNat / 2 ^ (8 * k))) ∧
      (∀ x, ¬ (a ≤ x ∧ x < a + 4) → Memory.read m x = Memory.read s.dmem x)

/-- 20_memory.md R82, R83, R94: while Idle a byte read returns the byte, a word read the four bytes combined
little-endian, and neither changes anything but the value on the read port. -/
def Obligations.IdleDmemReadsReturnTheBytes : Prop :=
  ∀ (s : State) (a : Nat), s.eng = .idle →
    (s.HostNext (.byteRead a) → s.HasMeaning (.byteRead a) →
      step s = .next { s.takeEvent with
        memRdata := BitVec.ofNat 32 (Memory.read s.dmem a).toNat }) ∧
    (s.HostNext (.wordRead a) → s.HasMeaning (.wordRead a) →
      step s = .next { s.takeEvent with
        memRdata := BitVec.ofNat 32 ((Memory.read s.dmem a).toNat +
          (Memory.read s.dmem (a + 1)).toNat * 2 ^ 8 +
          (Memory.read s.dmem (a + 2)).toNat * 2 ^ 16 +
          (Memory.read s.dmem (a + 3)).toNat * 2 ^ 24) })

/-- 20_memory.md R83, R94, R98, 70_reset_and_hazards.md R348: while Busy a host read of a byte outside the running
command's destination region returns the byte as it is, and so does a word read whose four bytes all lie outside it,
combined little-endian; this holds in the source region too, but for a source byte that also lies in the destination
region of a command whose overlap check will fail (log entry 13). No read changes DMEM or anything but the value on the
read port (and the draw counter). -/
def Obligations.BusyByteReadsOutsideTheDestination : Prop :=
  ∀ (s : State) (a : Nat), s.eng = .busy →
    let outside := fun x : Nat => ¬ (wordClass s.latch.cmd = .transform ∧ s.latch.dst.toNat ≤ x ∧
      x < s.latch.dst.toNat + s.latch.cap.toNat)
    (s.HostNext (.byteRead a) → s.HasMeaning (.byteRead a) →
      ∃ (v : Word) (d : Nat), step s = .next { s.takeEvent with memRdata := v, draws := d } ∧
        (outside a → v = BitVec.ofNat 32 (Memory.read s.dmem a).toNat)) ∧
    (s.HostNext (.wordRead a) → s.HasMeaning (.wordRead a) →
      ∃ (v : Word) (d : Nat), step s = .next { s.takeEvent with memRdata := v, draws := d } ∧
        ((∀ k < 4, outside (a + k)) →
          v = BitVec.ofNat 32 ((Memory.read s.dmem a).toNat + (Memory.read s.dmem (a + 1)).toNat * 2 ^ 8 +
            (Memory.read s.dmem (a + 2)).toNat * 2 ^ 16 + (Memory.read s.dmem (a + 3)).toNat * 2 ^ 24)))

/-! ### Resets -/

/-- 10_state.md R70: the values the spec states for reset, in the state after reset. (What the spec leaves
unspecified there, and the model's own fields, are not claimed.) -/
def Obligations.ResetStateHoldsTheResetValues : Prop :=
  let s := State.reset
  s.eng = .idle ∧ s.ie = false ∧ s.statusWord = 0 ∧ s.cmd = 0 ∧ s.srcAddr = 0 ∧ s.srcLen = 0 ∧ s.dstAddr = 0 ∧
  s.dstCap = 0 ∧ s.outLen = 0 ∧ s.errCode = 0 ∧ s.errInfo = 0 ∧ s.crcAcc = 0xFFFFFFFF ∧
  s.regValue .crcResult = 0 ∧ s.adlerAcc = 1 ∧ s.litCount = 0 ∧ s.matchCount = 0 ∧ s.hdrSizeLo = 0 ∧
  s.hdrSizeHi = 0 ∧ s.regValue .id = 0x43474431 ∧ s.irq = false

/-- 70_reset_and_hazards.md R342, R344 and R343's case of no running command: a soft reset while Idle puts every
register at its reset value, IE included whatever bit 0 of the word is, and leaves DMEM and DMEM_SIZE as they are. That
the latch and the internal tables, which R70 leaves unspecified, and the read ports stay too is the model's choice (log
entries 8 and 9). -/
def Obligations.SoftResetWhileIdle : Prop :=
  ∀ (s : State) (v : Word), s.eng = .idle → s.inReset = false → v.getLsbD 1 = true →
    s.HostNext (.regWrite .word 0x04 v) →
    step s = .next { s.takeEvent with
      ie := false, done := false, ovr := false, cmd := 0, srcAddr := 0, srcLen := 0, dstAddr := 0, dstCap := 0
      outLen := 0, errCode := 0, errInfo := 0, crcAcc := 0xFFFFFFFF, adlerAcc := 1, litCount := 0
      matchCount := 0, hdrSizeLo := 0, hdrSizeHi := 0 }

/-- 70_reset_and_hazards.md R340, R342, R343: a soft or hardware reset while a command runs aborts it: the engine is
Idle, every register has its reset value (DONE not set, no error recorded, irq 0). DMEM outside the destination
region of a transform command whose region checks pass is unchanged; otherwise all of DMEM is. That the latch and the
internal tables, which 10_state.md R70 leaves unspecified, and the read ports stay is the model's choice (log entries 8
and 9), and so is the fall of `rst_n` as one event (log entry 11). -/
def Obligations.ResetAbortsTheRunningCommand : Prop :=
  ∀ s : State, s.eng = .busy →
    s.HostNext .assertReset ∨
      (s.inReset = false ∧ ∃ v : Word, v.getLsbD 1 = true ∧ s.HostNext (.regWrite .word 0x04 v)) →
    ∃ (m : List Host.Cell) (d : Nat) (low : Bool),
      step s = .next { s.takeEvent with
        dmem := m, draws := d, inReset := low, eng := .idle, ie := false, done := false, ovr := false, cmd := 0
        srcAddr := 0, srcLen := 0, dstAddr := 0, dstCap := 0, outLen := 0, errCode := 0, errInfo := 0
        crcAcc := 0xFFFFFFFF, adlerAcc := 1, litCount := 0, matchCount := 0, hdrSizeLo := 0, hdrSizeHi := 0 } ∧
      (s.HostNext .assertReset → low = true) ∧ (¬ s.HostNext .assertReset → low = false) ∧
      (∀ x, ¬ (s.latch.dst.toNat ≤ x ∧ x < s.latch.dst.toNat + s.latch.cap.toNat) →
        Memory.read m x = Memory.read s.dmem x) ∧
      (¬ (wordClass s.latch.cmd = .transform ∧ s.RegionsOk) → m = s.dmem)

/-- 70_reset_and_hazards.md R340, R345: releasing `rst_n` after an idle hold leaves the block ready, every register at
its reset value, DMEM as it was. That the latch and the internal tables, which 10_state.md R70 leaves unspecified, and
the read ports stay is the model's choice (log entries 8 and 9), and so is the rise as one event (log entry 11). -/
def Obligations.ReleaseLeavesTheBlockReady : Prop :=
  ∀ s : State, s.eng = .idle → s.inReset = true → s.HostNext .releaseReset →
    step s = .next { s.takeEvent with
      inReset := false, ie := false, done := false, ovr := false, cmd := 0, srcAddr := 0, srcLen := 0
      dstAddr := 0, dstCap := 0, outLen := 0, errCode := 0, errInfo := 0, crcAcc := 0xFFFFFFFF, adlerAcc := 1
      litCount := 0, matchCount := 0, hdrSizeLo := 0, hdrSizeHi := 0 }

/-- 70_reset_and_hazards.md R340, R344: the fall of `rst_n` while Idle puts every register at its reset value, holds the
block in reset and leaves DMEM and DMEM_SIZE as they are, whether or not `rst_n` was low already. That the latch and the
internal tables, which 10_state.md R70 leaves unspecified, and the read ports stay is the model's choice (log entries 8
and 9), and so is the fall as one event (log entry 11). -/
def Obligations.HardwareResetWhileIdle : Prop :=
  ∀ s : State, s.eng = .idle → s.HostNext .assertReset →
    step s = .next { s.takeEvent with
      inReset := true, ie := false, done := false, ovr := false, cmd := 0, srcAddr := 0, srcLen := 0
      dstAddr := 0, dstCap := 0, outLen := 0, errCode := 0, errInfo := 0, crcAcc := 0xFFFFFFFF, adlerAcc := 1
      litCount := 0, matchCount := 0, hdrSizeLo := 0, hdrSizeHi := 0 }

/-! ### All commands -/

/-- Every command gets a next state from every state, and so does every illegal word: the block never stops by itself
(70_reset_and_hazards.md R354), it completes: DONE is set and the engine is Idle (40_control.md R163 to R165). -/
def Obligations.EveryCommandCompletes : Prop :=
  ∀ (w : Word) (s : State), ∃ t : State, completeWord w s = .next t ∧ t.done = true ∧ t.eng = .idle

/-- 10_state.md R42, R43, R44, R58, R61 and the 'Registers written' clauses of the commands: no command changes a
parameter register, a control flag, the readback or DMEM_SIZE. That it leaves the latch (log entry 8), the read ports
(log entry 9) and the pending input (log entry 1) as they are is the model's choice: the spec has no latched value once
a command has ended. -/
def Obligations.NoCommandWritesControlRegisters : Prop :=
  ∀ (i : Instr) (s t : State), exec i s = .next t →
    t.srcAddr = s.srcAddr ∧ t.srcLen = s.srcLen ∧ t.dstAddr = s.dstAddr ∧ t.dstCap = s.dstCap ∧ t.ie = s.ie ∧
    t.ovr = s.ovr ∧ t.cmd = s.cmd ∧ t.latch = s.latch ∧ t.inReset = s.inReset ∧ t.regRdata = s.regRdata ∧
    t.memRdata = s.memRdata ∧ t.inbox = s.inbox ∧ t.dmemLog = s.dmemLog

/-- 20_memory.md R89, R90: the footprint. A command changes no byte outside [DST, DST + OUT_LEN) with the OUT_LEN it
leaves, none at all if it is no transform command, and none of its source region. -/
def Obligations.CommandFootprintIsTheOutput : Prop :=
  ∀ (i : Instr) (s t : State), exec i s = .next t →
    (∀ x, ¬ (s.latch.dst.toNat ≤ x ∧ x < s.latch.dst.toNat + t.outLen.toNat) →
      Memory.read t.dmem x = Memory.read s.dmem x) ∧
    (commandClass i ≠ .transform → t.dmem = s.dmem) ∧
    (commandClass i = .transform → t.outLen.toNat ≤ s.latch.cap.toNat) ∧
    (∀ x, s.latch.src.toNat ≤ x → x < s.latch.src.toNat + s.latch.n.toNat →
      Memory.read t.dmem x = Memory.read s.dmem x)

/-- 20_memory.md R86, R87, 40_control.md R167, 60_exceptions.md R302: the prologue errors of the RLE commands, in their
order, and the one of the checksum commands, which check the source region only (44_checksum.md R272 to R277): no
effect but OUT_LEN = 0 and the error completion, so the accumulators keep their values. -/
def Obligations.RleAndChecksumPrologueErrors : Prop :=
  (∀ (s : State), ∀ i ∈ [Instr.crc32Start, .crc32Cont, .adler32Start, .adler32Cont],
    ¬ s.SrcOk → exec i s = .next (failed { s with outLen := 0 } 8 0)) ∧
  ∀ (s : State), ∀ i ∈ [Instr.rleEnc, .rleDec],
    (¬ s.SrcOk → exec i s = .next (failed { s with outLen := 0 } 8 0)) ∧
    (s.SrcOk → ¬ s.DstOk → exec i s = .next (failed { s with outLen := 0 } 8 1)) ∧
    (s.SrcOk → s.DstOk → ¬ s.Apart → exec i s = .next (failed { s with outLen := 0 } 9 0))

/-- The same for deflate and zlib, whose counters then hold any value (42_deflate.md R235; log entry 6). -/
def Obligations.DeflatePrologueErrors : Prop :=
  ∀ (s : State), ∀ i ∈ [Instr.deflate, .zlib], ∃ (l m : Word) (d : Nat),
    let u := { s with outLen := 0, litCount := l, matchCount := m, draws := d }
    (¬ s.SrcOk → exec i s = .next (failed u 8 0)) ∧
    (s.SrcOk → ¬ s.DstOk → exec i s = .next (failed u 8 1)) ∧
    (s.SrcOk → s.DstOk → ¬ s.Apart → exec i s = .next (failed u 9 0))

/-- 10_state.md R72: the result of a transform command depends only on its latched parameters, DMEM_SIZE and the bytes
of its source region: from two states that agree on those it leaves the same OUT_LEN, error registers and output
bytes, and, on success, the same counters; zlib then leaves the same ADLER_ACC and the RLE commands the same size
field. -/
def Obligations.TransformResultDependsOnItsOperandsOnly : Prop :=
  ∀ (i : Instr) (s1 s2 t1 t2 : State), commandClass i = .transform →
    s1.latch = s2.latch → s1.dmemLog = s2.dmemLog →
    (∀ x, s1.latch.src.toNat ≤ x → x < s1.latch.src.toNat + s1.latch.n.toNat →
      Memory.read s1.dmem x = Memory.read s2.dmem x) →
    exec i s1 = .next t1 → exec i s2 = .next t2 →
    t1.outLen = t2.outLen ∧ t1.errCode = t2.errCode ∧ t1.errInfo = t2.errInfo ∧
    (∀ k < t1.outLen.toNat,
      Memory.read t1.dmem (s1.latch.dst.toNat + k) = Memory.read t2.dmem (s1.latch.dst.toNat + k)) ∧
    (t1.errCode = 0 → (i = .deflate ∨ i = .zlib) → t1.litCount = t2.litCount ∧ t1.matchCount = t2.matchCount) ∧
    (t1.errCode = 0 → i = .zlib → t1.adlerAcc = t2.adlerAcc) ∧
    (s1.RegionsOk → (i = .rleEnc ∨ i = .rleDec) → t1.hdrSizeLo = t2.hdrSizeLo ∧ t1.hdrSizeHi = t2.hdrSizeHi)

/-! ### nop -/

/-- 40_control.md R168: `nop` completes, and nothing else changes, whatever the parameter registers hold. -/
def Obligations.NopOnlyCompletes : Prop := ∀ s : State, exec .nop s = .next (completed s)

/-! ### Checksums -/

/-- 44_checksum.md R271, R272: `crc32.start` leaves in CRC_ACC the CRC-32 register of the source bytes, fed bit by bit
from 0xFFFFFFFF, OUT_LEN 0 and success; nothing else changes. -/
def Obligations.CrcStartComputesTheCrc : Prop :=
  ∀ s : State, s.SrcOk → exec .crc32Start s =
    .next (completed { s with outLen := 0, crcAcc := s.srcBytes.foldl crcByte 0xFFFFFFFF })

/-- 44_checksum.md R273: `crc32.cont` does the same from CRC_ACC. -/
def Obligations.CrcContContinuesTheCrc : Prop :=
  ∀ s : State, s.SrcOk → exec .crc32Cont s =
    .next (completed { s with outLen := 0, crcAcc := s.srcBytes.foldl crcByte s.crcAcc })

/-- 44_checksum.md R275, R276: `adler32.start` in closed form: A is 1 plus the sum of the bytes, B the number of bytes
plus their weighted sum, both mod 65521. -/
def Obligations.AdlerStartComputesTheAdler : Prop :=
  ∀ s : State, s.SrcOk → exec .adler32Start s =
    .next (completed { s with
      outLen := 0
      adlerAcc := BitVec.ofNat 32
        ((s.srcBytes.length + weightedSum s.srcBytes) % 65521 * 65536 + (1 + byteSum s.srcBytes) % 65521) })

/-- 44_checksum.md R277, R278: `adler32.cont` continues from the halves of ADLER_ACC, whatever they are: with no byte
the word stays, and after one byte or more both halves are the closed form's, below 65521. -/
def Obligations.AdlerContContinuesTheAdler : Prop :=
  ∀ s : State, s.SrcOk →
    let a := s.adlerAcc.toNat % 65536
    let b := s.adlerAcc.toNat / 65536
    let l := s.srcBytes
    exec .adler32Cont s = .next (completed { s with
      outLen := 0
      adlerAcc := if s.latch.n = 0 then s.adlerAcc else BitVec.ofNat 32
        ((b + l.length * a + weightedSum l) % 65521 * 65536 + (a + byteSum l) % 65521) })

/-- 44_checksum.md R273: splitting a string anywhere into a START and a CONT over its two parts gives the CRC of one
START over the whole, and the same for the Adler pair (R277). -/
def Obligations.SplitChecksumsAgreeWithTheWhole : Prop :=
  ∀ (s : State) (k : Nat), s.SrcOk → k ≤ s.latch.n.toNat →
    let first := { s with latch := { s.latch with n := BitVec.ofNat 32 k } }
    let rest := fun t : State =>
      { t with latch := { s.latch with src := BitVec.ofNat 32 (s.latch.src.toNat + k), n := s.latch.n - BitVec.ofNat 32 k } }
    (∀ t1 t2 t : State, exec .crc32Start first = .next t1 → exec .crc32Cont (rest t1) = .next t2 →
      exec .crc32Start s = .next t → t2.crcAcc = t.crcAcc) ∧
    (∀ t1 t2 t : State, exec .adler32Start first = .next t1 → exec .adler32Cont (rest t1) = .next t2 →
      exec .adler32Start s = .next t → t2.adlerAcc = t.adlerAcc)

/-! ### RLE -/

/-- 41_rle.md R180: with sound regions and enough room `rle.enc` writes the container of its input at DST: OUT_LEN is
its length, HDR_SIZE is n; success; every other register unchanged. -/
def Obligations.RleEncWritesTheContainer : Prop :=
  ∀ s : State, s.RegionsOk → (rleEncode s.srcBytes).length ≤ s.latch.cap.toNat →
    exec .rleEnc s = .next (completed { s with
      outLen := BitVec.ofNat 32 (rleEncode s.srcBytes).length
      hdrSizeLo := s.latch.n
      hdrSizeHi := 0
      dmem := Memory.writeBytes s.dmem s.latch.dst.toNat (rleEncode s.srcBytes) })

/-- 41_rle.md R180, 20_memory.md R88: without the room it writes the first CAP bytes and raises Err(DST_FULL, CAP);
HDR_SIZE is n all the same. -/
def Obligations.RleEncStopsAtTheCapacity : Prop :=
  ∀ s : State, s.RegionsOk → s.latch.cap.toNat < (rleEncode s.srcBytes).length →
    exec .rleEnc s = .next (failed { s with
      outLen := s.latch.cap
      hdrSizeLo := s.latch.n
      hdrSizeHi := 0
      dmem := Memory.writeBytes s.dmem s.latch.dst.toNat ((rleEncode s.srcBytes).take s.latch.cap.toNat) }
      7 s.latch.cap)

/-- 41_rle.md R181, R182: the container of an input is a header with its length and pairs whose counts are 1 to 255,
which expand to the input, two neighbours differing in value unless the first has count 255; so it has at most
12 + 2n bytes. -/
def Obligations.RleContainerHasMaximalRuns : Prop :=
  ∀ x : List Byte, ∃ pairs : List (Byte × Byte),
    rleEncode x = container x.length pairs ∧ expansion pairs = x ∧ (∀ p ∈ pairs, p.1 ≠ 0) ∧
    pairs.IsChain (fun p q => p.2 ≠ q.2 ∨ p.1 = 255) ∧ (rleEncode x).length ≤ 12 + 2 * x.length

/-- 41_rle.md R183: on a container of valid pairs whose expansion has the declared size and fits CAP, `rle.dec` writes
the expansion at DST; OUT_LEN and HDR_SIZE are its length; success; every other register unchanged. -/
def Obligations.RleDecExpandsAValidContainer : Prop :=
  ∀ (s : State) (pairs : List (Byte × Byte)), s.RegionsOk →
    (∀ p ∈ pairs, p.1 ≠ 0) →
    s.srcBytes = container (expansion pairs).length pairs →
    (expansion pairs).length ≤ s.latch.cap.toNat →
    exec .rleDec s = .next (completed { s with
      outLen := BitVec.ofNat 32 (expansion pairs).length
      hdrSizeLo := BitVec.ofNat 32 (expansion pairs).length
      hdrSizeHi := 0
      dmem := Memory.writeBytes s.dmem s.latch.dst.toNat (expansion pairs) })

/-- 41_rle.md R184, 60_exceptions.md R301: the header checks. Fewer than 12 bytes end in Err(TRUNCATED_INPUT, n),
whatever they are; then a wrong magic ends in Err(BAD_MAGIC, j) with the first differing index j; neither writes a
byte, and HDR_SIZE is 0. -/
def Obligations.RleDecChecksTheHeader : Prop :=
  ∀ s : State, s.RegionsOk →
    let magic : List Byte := [0x52, 0x4C, 0x45, 0x46]
    let u := { s with outLen := 0, hdrSizeLo := 0, hdrSizeHi := 0 }
    (s.latch.n.toNat < 12 → exec .rleDec s = .next (failed u 2 s.latch.n)) ∧
    (12 ≤ s.latch.n.toNat → ∀ j < 4,
      (∀ k < j, s.srcBytes.getD k 0 = magic.getD k 0) → s.srcBytes.getD j 0 ≠ magic.getD j 0 →
      exec .rleDec s = .next (failed u 1 (BitVec.ofNat 32 j)))

/-- 41_rle.md R185, R186, 60_exceptions.md R301: behind any valid pairs that fit the declared size and CAP, the first
fault decides: a lone byte, a zero count, a run past the declared size, a run past CAP, or the end short of the
declared size. The bytes of the earlier pairs (and, past CAP, of this one up to CAP) are written and counted. -/
def Obligations.RleDecStopsAtTheFirstFault : Prop :=
  ∀ (s : State) (size : Nat) (pairs : List (Byte × Byte)) (tail : List Byte), s.RegionsOk → size < 2 ^ 64 →
    (∀ p ∈ pairs, p.1 ≠ 0) →
    s.srcBytes = container size pairs ++ tail →
    (expansion pairs).length ≤ size → (expansion pairs).length ≤ s.latch.cap.toNat →
    let k := BitVec.ofNat 32 (12 + 2 * pairs.length)
    let done := fun l : List Byte => { s with
      outLen := BitVec.ofNat 32 l.length
      hdrSizeLo := BitVec.ofNat 32 size
      hdrSizeHi := BitVec.ofNat 32 (size / 2 ^ 32)
      dmem := Memory.writeBytes s.dmem s.latch.dst.toNat l }
    (tail = [] → (expansion pairs).length < size →
      exec .rleDec s = .next (failed (done (expansion pairs)) 5 s.latch.n)) ∧
    (∀ b, tail = [b] → exec .rleDec s = .next (failed (done (expansion pairs)) 2 k)) ∧
    (∀ c v more, tail = c :: v :: more →
      (c = 0 → exec .rleDec s = .next (failed (done (expansion pairs)) 3 k)) ∧
      (c ≠ 0 → size < (expansion pairs).length + c.toNat →
        exec .rleDec s = .next (failed (done (expansion pairs)) 6 k)) ∧
      (c ≠ 0 → (expansion pairs).length + c.toNat ≤ size →
        s.latch.cap.toNat < (expansion pairs).length + c.toNat →
        exec .rleDec s = .next (failed
          (done (expansion pairs ++ List.replicate (s.latch.cap.toNat - (expansion pairs).length) v)) 7 s.latch.cap)))

/-- 41_rle.md R188: the round trip. With sound regions, room for 12 + 2n bytes, and a second command whose source is
the first one's output and whose regions are sound with room for n bytes, `rle.dec` after `rle.enc` succeeds and
writes exactly the input. -/
def Obligations.RleRoundTrip : Prop :=
  ∀ (s t : State) (dst2 cap2 : Word), s.RegionsOk → 12 + 2 * s.latch.n.toNat ≤ s.latch.cap.toNat →
    exec .rleEnc s = .next t →
    let u := { t with latch := { t.latch with src := s.latch.dst, n := t.outLen, dst := dst2, cap := cap2 } }
    u.RegionsOk → s.latch.n.toNat ≤ cap2.toNat →
    ∃ v : State, exec .rleDec u = .next v ∧ v.errCode = 0 ∧ v.outLen = s.latch.n ∧ v.hdrSizeLo = s.latch.n ∧
      v.hdrSizeHi = 0 ∧ Memory.readBytes v.dmem dst2.toNat s.latch.n.toNat = s.srcBytes

/-! ### DEFLATE and zlib -/

/-- 42_deflate.md R210, R235: with sound regions and enough room `deflate` writes the block of its input at DST and
counts its literals and pairs; success; every other register unchanged. That `head`, `prev`, `bitbuf` and `bitcnt`
then hold what the rule leaves in them is the model's reading (log entry 16): the spec calls them any value between
commands. -/
def Obligations.DeflateWritesTheBlock : Prop :=
  ∀ s : State, s.RegionsOk →
    let b := deflateBlock s.srcBytes
    let syms := greedy s.srcBytes s.srcBytes.length 0
    b.bytes.length ≤ s.latch.cap.toNat →
    exec .deflate s = .next (completed { s with
      outLen := BitVec.ofNat 32 b.bytes.length
      litCount := BitVec.ofNat 32 (syms.filter (fun y => match y with | .lit _ => true | .pair _ _ => false)).length
      matchCount := BitVec.ofNat 32 (syms.filter (fun y => match y with | .lit _ => false | .pair _ _ => true)).length
      tables := b.tables
      bitbuf := b.packer.bitbuf
      bitcnt := b.packer.bitcnt
      dmem := Memory.writeBytes s.dmem s.latch.dst.toNat b.bytes })

/-- 42_deflate.md R236, 43_zlib.md R260 (Errors), 20_memory.md R88: without the room deflate and zlib write the prefix
of CAP bytes a larger capacity would have shown, and raise Err(DST_FULL, CAP); ADLER_ACC keeps its value, and the
counters hold any value (log entry 6). -/
def Obligations.DeflateStopsAtTheCapacity : Prop :=
  ∀ (s : State) (i : Instr) (stream : List Byte), s.RegionsOk →
    let za := (1 + byteSum s.srcBytes) % 65521
    let zb := (s.srcBytes.length + weightedSum s.srcBytes) % 65521
    (i = .deflate ∧ stream = (deflateBlock s.srcBytes).bytes) ∨
      (i = .zlib ∧ stream = [0x78, 0x01] ++ (deflateBlock s.srcBytes).bytes ++
        [BitVec.ofNat 8 (zb / 256), BitVec.ofNat 8 zb, BitVec.ofNat 8 (za / 256), BitVec.ofNat 8 za]) →
    s.latch.cap.toNat < stream.length →
    ∃ t : State, exec i s = .next t ∧ t.errCode = 7 ∧ t.errInfo = s.latch.cap ∧ t.outLen = s.latch.cap ∧
      t.dmem = Memory.writeBytes s.dmem s.latch.dst.toNat (stream.take s.latch.cap.toNat) ∧
      t.adlerAcc = s.adlerAcc ∧ t.crcAcc = s.crcAcc ∧ t.hdrSizeLo = s.hdrSizeLo ∧ t.hdrSizeHi = s.hdrSizeHi

/-- 42_deflate.md R234: a capacity of ceil((10 + 9n) / 8) bytes or more rules out DST_FULL: `deflate` succeeds. -/
def Obligations.DeflateFitsTheWorstCase : Prop :=
  ∀ s : State, s.RegionsOk → (10 + 9 * s.latch.n.toNat + 7) / 8 ≤ s.latch.cap.toNat →
    ∃ t : State, exec .deflate s = .next t ∧ t.errCode = 0 ∧ t.outLen.toNat ≤ (10 + 9 * s.latch.n.toNat + 7) / 8

/-- 42_deflate.md R221, R238: the parse is greedy, and its search at p sees exactly the positions 0 to p - 1. -/
def Obligations.ParseIsGreedyOverTheConsumedPrefix : Prop :=
  ∀ input : List Byte, (parse input).1 = greedy input input.length 0

/-- 42_deflate.md R219: the hash is a 15-bit shift-and-XOR of the three bytes at a position, which can be rolled one byte
at a time; only the five low bits of the first byte count, so "Abc" and "abc" collide at 0x0823 (95_test_vectors.md). -/
def Obligations.HashIsAFifteenBitRolledXor : Prop :=
  (∀ b0 b1 b2 : Byte,
    hash3 b0 b1 b2 = (b0.toNat * 2 ^ 10 ^^^ b1.toNat * 2 ^ 5 ^^^ b2.toNat) % 2 ^ 15 ∧
    hash3 b0 b1 b2 = rolledHash [b0, b1, b2] ∧
    ∀ c0 : Byte, c0.toNat % 32 = b0.toNat % 32 → hash3 c0 b1 b2 = hash3 b0 b1 b2) ∧
  (∀ (input : List Byte) (q : Nat), q + 3 ≤ input.length → hashAt input q = windowHash input q) ∧
  hash3 0x61 0x62 0x63 = 0x0823 ∧ hash3 0x41 0x62 0x63 = 0x0823 ∧ hash3 0x62 0x63 0x61 = 0x0401 ∧
  hash3 0x63 0x61 0x62 = 0x0042

/-- 42_deflate.md R222 to R228: at every position the search gives a longest match among the first 64 in-window
candidates of the chain of all earlier positions with the same hash (the reference hash in its rolled form, the chain
followed in an array of no bounded size: the model's hash and ring give the same), the nearest of the longest, or no match when none reaches 3 bytes. -/
def Obligations.SearchFindsTheLongestNearestCandidate : Prop :=
  ∀ (input : List Byte) (p : Nat), p + 3 ≤ input.length →
    let m := findMatch input (ringTables input p) p
    let cs := searchCandidates input p
    (m = (0, 0) ∧ ∀ c ∈ cs, ∀ l, agrees input c p l → l < 3) ∨
    (3 ≤ m.1 ∧ ∃ c ∈ cs, c < p ∧ m.2 = p - c ∧ m.2 ≤ 32768 ∧ agrees input c p m.1 ∧
      (∀ c' ∈ cs, ∀ l, agrees input c' p l → l ≤ m.1) ∧
      (∀ c' ∈ cs, agrees input c' p m.1 → c' ≤ c))

/-- 42_deflate.md R237: expanding the symbols of the parse, each legal where it stands, gives the input. -/
def Obligations.ParseExpandsToTheInput : Prop :=
  ∀ input : List Byte, expandSyms (parse input).1 [] = some input

/-- 30_encoding.md R124, R132, 42_deflate.md R211, R217, R233: the bits of a block in stream order are 1, 1, 0, the
bits of its symbols, the end-of-block code, and fewer than eight zeros. -/
def Obligations.BlockBitsInStreamOrder : Prop :=
  ∀ syms : List Sym, ∃ pad : Nat, pad < 8 ∧
    bitsOf (packBlock syms).out =
      [true, true, false] ++ syms.flatMap symBits ++ codeBits 256 ++ List.replicate pad false

/-- 30_encoding.md R127, R128, 42_deflate.md R215, R216: the model's tables hold the rows of the spec's two tables, whose
ranges follow each other without a gap, from 3 to 258 (symbol 284 ending at 257) and from 1 to 32768; every length and
distance gets the row it lies in, and its extra bits hold the difference; length 258 is symbol 285 without extra bits. -/
def Obligations.ExtraBitsHoldTheDifference : Prop :=
  (lengthBase.length = 29 ∧ lengthExtra.length = 29 ∧
    ∀ i < 29, lengthBase.getD i 0 = rowBase lengthRows i ∧ lengthExtra.getD i 0 = rowExtra lengthRows i) ∧
  (distBase.length = 30 ∧ distExtra.length = 30 ∧
    ∀ j < 30, distBase.getD j 0 = rowBase distRows j ∧ distExtra.getD j 0 = rowExtra distRows j) ∧
  (lengthBase.getD 0 0 = 3 ∧ lengthBase.getD 28 0 = 258 ∧ lengthExtra.getD 28 0 = 0 ∧
    ∀ i < 28, lengthBase.getD i 0 + 2 ^ lengthExtra.getD i 0 =
      if i = 27 then lengthBase.getD (i + 1) 0 + 1 else lengthBase.getD (i + 1) 0) ∧
  (distBase.getD 0 0 = 1 ∧ distBase.getD 29 0 + 2 ^ distExtra.getD 29 0 = 32769 ∧
    ∀ j < 29, distBase.getD j 0 + 2 ^ distExtra.getD j 0 = distBase.getD (j + 1) 0) ∧
  (∀ len, 3 ≤ len → len ≤ 258 →
    lengthIndex len = rowOf lengthRows len ∧
    lengthIndex len ≤ 28 ∧ lengthBase.getD (lengthIndex len) 0 ≤ len ∧
    len - lengthBase.getD (lengthIndex len) 0 < 2 ^ lengthExtra.getD (lengthIndex len) 0) ∧
  257 + lengthIndex 258 = 285 ∧
  (∀ dist, 1 ≤ dist → dist ≤ 32768 →
    distIndex dist = rowOf distRows dist ∧
    distIndex dist ≤ 29 ∧ distBase.getD (distIndex dist) 0 ≤ dist ∧
    dist - distBase.getD (distIndex dist) 0 < 2 ^ distExtra.getD (distIndex dist) 0)

/-- 00_scope.md R9, 42_deflate.md R237: the stream is one final fixed-Huffman block, and decoding it gives back the
input, for every input. -/
def Obligations.InflateInvertsDeflate : Prop :=
  ∀ input : List Byte, inflate (deflateBlock input).bytes = some input

/-- 43_zlib.md R260 to R265: with sound regions and enough room `zlib` writes 78 01, the bytes `deflate` gives for the
input, and the Adler-32 of the input most significant byte first, which ADLER_ACC then holds; the counters are
`deflate`'s; success; every other register unchanged. That `head`, `prev`, `bitbuf`, `bitcnt`, `za` and `zb` then hold
what the rule leaves in them is the model's reading (log entry 16): the spec calls them any value between commands. -/
def Obligations.ZlibWritesTheWrappedBlock : Prop :=
  ∀ s : State, s.RegionsOk →
    let b := deflateBlock s.srcBytes
    let za := (1 + byteSum s.srcBytes) % 65521
    let zb := (s.srcBytes.length + weightedSum s.srcBytes) % 65521
    let stream := [0x78, 0x01] ++ b.bytes ++
      [BitVec.ofNat 8 (zb / 256), BitVec.ofNat 8 zb, BitVec.ofNat 8 (za / 256), BitVec.ofNat 8 za]
    stream.length ≤ s.latch.cap.toNat →
    exec .zlib s = .next (completed { s with
      outLen := BitVec.ofNat 32 (b.bytes.length + 6)
      adlerAcc := BitVec.ofNat 32 (zb * 65536 + za)
      litCount := BitVec.ofNat 32 b.lits
      matchCount := BitVec.ofNat 32 b.pairs
      tables := b.tables
      bitbuf := b.packer.bitbuf
      bitcnt := b.packer.bitcnt
      za := za
      zb := zb
      dmem := Memory.writeBytes s.dmem s.latch.dst.toNat stream })

/-! ### The invariant -/

/-- The invariant holds in the state after reset. -/
def Obligations.ResetStateMeetsInvariants : Prop := State.reset.Inv

/-- Every step keeps the invariant, from every state that has it: DMEM's canonical form and bounds, the legal error
codes, what acceptance established while a command runs, the reset values while `rst_n` is low, the internal tables'
form. -/
def Obligations.EveryStepKeepsInvariants : Prop := ∀ s t : State, s.Inv → step s = .next t → t.Inv
end

