-- ==== Sys2Proof/Laws/Checksum.lean ====
section
/-! SUPPORT. The checksums: feeding a string in parts, and the bounds of the Adler-32 pair. -/

namespace Sys2Proof.Machine

theorem crcFeed_append (acc : Word) (l m : List Byte) : crcFeed acc (l ++ m) = crcFeed (crcFeed acc l) m :=
  List.foldl_append

theorem adlerFeed_append (ab : Nat × Nat) (l m : List Byte) : adlerFeed ab (l ++ m) = adlerFeed (adlerFeed ab l) m :=
  List.foldl_append

theorem adlerStep_lt (ab : Nat × Nat) (b : Byte) :
    (adlerStep ab b).1 < Config.adlerMod ∧ (adlerStep ab b).2 < Config.adlerMod :=
  ⟨Nat.mod_lt _ (by decide), Nat.mod_lt _ (by decide)⟩

theorem adlerFeed_lt {ab : Nat × Nat} (l : List Byte) (h : ab.1 < Config.adlerMod ∧ ab.2 < Config.adlerMod) :
    (adlerFeed ab l).1 < Config.adlerMod ∧ (adlerFeed ab l).2 < Config.adlerMod := by
  induction l generalizing ab with
  | nil => exact h
  | cons b l ih => exact ih (adlerStep_lt ab b)

theorem toNat_adlerPack {ab : Nat × Nat} (h : ab.1 < 65536 ∧ ab.2 < 65536) :
    (adlerPack ab).toNat = ab.2 * 65536 + ab.1 := by
  simp only [adlerPack, BitVec.toNat_append, BitVec.toNat_ofNat]
  rw [Nat.mod_eq_of_lt h.1, Nat.mod_eq_of_lt h.2, ← Nat.shiftLeft_add_eq_or_of_lt (by exact h.1), Nat.shiftLeft_eq]

/-- Packing and unpacking a pair of halfwords. -/
theorem adlerUnpack_adlerPack {ab : Nat × Nat} (h : ab.1 < 65536 ∧ ab.2 < 65536) : adlerUnpack (adlerPack ab) = ab := by
  have e := toNat_adlerPack h
  obtain ⟨a, b⟩ := ab
  simp only at h e
  simp only [adlerUnpack, BitVec.extractLsb'_toNat, e, Nat.shiftRight_eq_div_pow, Prod.mk.injEq]
  omega

theorem adlerPack_adlerUnpack (w : Word) : adlerPack (adlerUnpack w) = w := by
  simp only [adlerPack, adlerUnpack, BitVec.ofNat_toNat, BitVec.setWidth_eq]
  apply BitVec.eq_of_getLsbD_eq
  intro i hi
  simp only [BitVec.getLsbD_append, BitVec.getLsbD_extractLsb']
  by_cases h : i < 16
  · simp [h]
  · simp only [h, if_false, show i - 16 < 16 by omega, decide_true, Bool.true_and]
    rw [show 16 + (i - 16) = i by omega]

end Sys2Proof.Machine
end

