-- ==== Sys2Proof/Laws/Memory.lean ====
section
/-! SUPPORT. The laws of sparse lists and of DMEM: what is read after a write, and that every operation keeps the one
canonical form and the bound on the addresses. -/

namespace Sys2Proof.Machine

/-! ### Lists by key -/

theorem listGet_listSet {α : Type} (t : List (Nat × α)) (a b : Nat) (v : α) :
    listGet (listSet t a v) b = if b = a then some v else listGet t b := by
  induction t with
  | nil => simp [listSet, listGet]
  | cons c t ih =>
    obtain ⟨k, w⟩ := c
    by_cases h1 : a < k
    · simp [listSet, listGet, h1]
    · by_cases h2 : a = k
      · subst h2
        simp only [listSet, Nat.lt_irrefl, if_false, if_true, listGet]
        by_cases hb : b = a <;> simp [hb]
      · simp only [listSet, h1, h2, if_false, listGet, ih]
        by_cases hb : b = k
        · subst hb; simp [Ne.symm h2]
        · simp [hb]

theorem mem_listSet {α : Type} {t : List (Nat × α)} {a : Nat} {v : α} {c : Nat × α} (h : c ∈ listSet t a v) :
    c = (a, v) ∨ c ∈ t := by
  induction t with
  | nil => simpa [listSet] using h
  | cons d t ih =>
    obtain ⟨k, w⟩ := d
    simp only [listSet] at h
    split at h
    · simpa using h
    · split at h
      · rcases List.mem_cons.1 h with h | h
        · exact .inl h
        · exact .inr (List.mem_cons_of_mem _ h)
      · rcases List.mem_cons.1 h with h | h
        · exact .inr (h ▸ List.mem_cons_self)
        · exact (ih h).imp id (List.mem_cons_of_mem _)

theorem keysRise_listSet {α : Type} {t : List (Nat × α)} (a : Nat) (v : α) (h : keysRise t) :
    keysRise (listSet t a v) := by
  induction t with
  | nil => simp [listSet, keysRise]
  | cons d t ih =>
    obtain ⟨k, w⟩ := d
    obtain ⟨hk, ht⟩ := List.pairwise_cons.1 h
    simp only [listSet]
    split
    · rename_i hlt
      refine List.pairwise_cons.2 ⟨fun c hc => ?_, h⟩
      rcases List.mem_cons.1 hc with rfl | hc
      · exact hlt
      · exact Nat.lt_trans hlt (hk c hc)
    · split
      · rename_i heq
        subst heq
        exact List.pairwise_cons.2 ⟨hk, ht⟩
      · refine List.pairwise_cons.2 ⟨fun c hc => ?_, ih ht⟩
        rcases mem_listSet hc with rfl | hc
        · simp only; omega
        · exact hk c hc

theorem mem_of_mem_listErase {α : Type} {t : List (Nat × α)} {a : Nat} {c : Nat × α} (h : c ∈ listErase t a) :
    c ∈ t := by
  induction t with
  | nil => simp [listErase] at h
  | cons d t ih =>
    obtain ⟨k, w⟩ := d
    simp only [listErase] at h
    split at h
    · exact List.mem_cons_of_mem _ h
    · rcases List.mem_cons.1 h with h | h
      · exact h ▸ List.mem_cons_self
      · exact List.mem_cons_of_mem _ (ih h)

theorem keysRise_listErase {α : Type} {t : List (Nat × α)} (a : Nat) (h : keysRise t) : keysRise (listErase t a) := by
  induction t with
  | nil => simp [listErase, keysRise]
  | cons d t ih =>
    obtain ⟨k, w⟩ := d
    obtain ⟨hk, ht⟩ := List.pairwise_cons.1 h
    simp only [listErase]
    split
    · exact ht
    · exact List.pairwise_cons.2 ⟨fun c hc => hk c (mem_of_mem_listErase hc), ih ht⟩

theorem listGet_eq_none_of_lt {α : Type} {t : List (Nat × α)} {a : Nat} (h : ∀ c ∈ t, a < c.1) :
    listGet t a = none := by
  induction t with
  | nil => rfl
  | cons d t ih =>
    obtain ⟨k, w⟩ := d
    have hk : a < k := h (k, w) List.mem_cons_self
    have hne : a ≠ k := by omega
    simp only [listGet, hne, if_false]
    exact ih fun c hc => h c (List.mem_cons_of_mem _ hc)

theorem listGet_listErase {α : Type} {t : List (Nat × α)} (a b : Nat) (h : keysRise t) :
    listGet (listErase t a) b = if b = a then none else listGet t b := by
  induction t with
  | nil => simp [listErase, listGet]
  | cons d t ih =>
    obtain ⟨k, w⟩ := d
    obtain ⟨hk, ht⟩ := List.pairwise_cons.1 h
    simp only [listErase]
    by_cases hak : a = k
    · subst hak
      simp only [if_true]
      by_cases hb : b = a
      · subst hb; simpa using listGet_eq_none_of_lt hk
      · simp [listGet, hb]
    · simp only [hak, if_false, listGet, ih ht]
      by_cases hb : b = k
      · subst hb; simp [Ne.symm hak]
      · simp [hb]

theorem listGet_listPut {α : Type} {t : List (Nat × α)} (a b : Nat) (v : Option α) (h : keysRise t) :
    listGet (listPut t a v) b = if b = a then v else listGet t b := by
  cases v with
  | none => exact listGet_listErase a b h
  | some v => exact listGet_listSet t a b v

theorem keysRise_listPut {α : Type} {t : List (Nat × α)} (a : Nat) (v : Option α) (h : keysRise t) :
    keysRise (listPut t a v) := by
  cases v with
  | none => exact keysRise_listErase a h
  | some v => exact keysRise_listSet a v h

theorem keyBound_listSet {α : Type} {t : List (Nat × α)} {a n : Nat} {v : α} (ha : a < n)
    (h : ∀ c ∈ t, c.1 < n) : ∀ c ∈ listSet t a v, c.1 < n := by
  intro c hc
  rcases mem_listSet hc with rfl | hc
  · exact ha
  · exact h c hc

theorem keyBound_listPut {α : Type} {t : List (Nat × α)} {a n : Nat} {v : Option α} (ha : a < n)
    (h : ∀ c ∈ t, c.1 < n) : ∀ c ∈ listPut t a v, c.1 < n := by
  cases v with
  | none => exact fun c hc => h c (mem_of_mem_listErase hc)
  | some v => exact keyBound_listSet ha h

/-- The word of four bytes as a number (20_memory.md R83). -/
theorem ofLe32_eq (b0 b1 b2 b3 : Byte) :
    ofLe32 b0 b1 b2 b3 = BitVec.ofNat 32 (b0.toNat + b1.toNat * 2 ^ 8 + b2.toNat * 2 ^ 16 + b3.toNat * 2 ^ 24) := by
  apply BitVec.eq_of_toNat_eq
  have h0 := b0.isLt
  have h1 := b1.isLt
  have h2 := b2.isLt
  have h3 := b3.isLt
  simp only [ofLe32, BitVec.toNat_append, BitVec.toNat_ofNat]
  rw [← Nat.shiftLeft_add_eq_or_of_lt (by omega), ← Nat.shiftLeft_add_eq_or_of_lt (by omega),
    ← Nat.shiftLeft_add_eq_or_of_lt (by omega)]
  simp only [Nat.shiftLeft_eq]
  omega

/-! ### DMEM -/

namespace Memory

theorem wf_nil : Memory.wf [] := List.Pairwise.nil

theorem wf_write {m : List Host.Cell} (a : Nat) (v : Byte) (h : Memory.wf m) : Memory.wf (write m a v) :=
  keysRise_listSet a v h

theorem wf_writeBytes {m : List Host.Cell} (a : Nat) (l : List Byte) (h : Memory.wf m) :
    Memory.wf (writeBytes m a l) := by
  induction l generalizing m a with
  | nil => exact h
  | cons b l ih => exact ih (a + 1) (wf_write a b h)

theorem bound_write {m : List Host.Cell} {a n : Nat} {v : Byte} (ha : a < n) (h : ∀ c ∈ m, c.1 < n) :
    ∀ c ∈ write m a v, c.1 < n := keyBound_listSet ha h

theorem bound_writeBytes {m : List Host.Cell} {a n : Nat} {l : List Byte} (ha : a + l.length ≤ n)
    (h : ∀ c ∈ m, c.1 < n) : ∀ c ∈ writeBytes m a l, c.1 < n := by
  induction l generalizing m a with
  | nil => exact h
  | cons b l ih =>
    simp only [List.length_cons] at ha
    exact ih (by omega) (bound_write (by omega) h)

theorem read_write (m : List Host.Cell) (a x : Nat) (v : Byte) :
    read (write m a v) x = if x = a then v else read m x := by
  simp only [read, lookup, write, listGet_listSet]
  split <;> rfl

theorem read_write_ne {m : List Host.Cell} {a x : Nat} {v : Byte} (h : x ≠ a) : read (write m a v) x = read m x := by
  simp [read_write, h]

/-- A byte outside the written range keeps its value. -/
theorem read_writeBytes_outside {m : List Host.Cell} {a x : Nat} {l : List Byte}
    (h : ¬ (a ≤ x ∧ x < a + l.length)) : read (writeBytes m a l) x = read m x := by
  induction l generalizing m a with
  | nil => rfl
  | cons b l ih =>
    simp only [List.length_cons] at h
    rw [writeBytes, ih (by omega), read_write_ne (by omega)]

/-- A byte inside the written range holds the byte written there. -/
theorem read_writeBytes_inside {m : List Host.Cell} {a k : Nat} {l : List Byte} (h : k < l.length) :
    read (writeBytes m a l) (a + k) = l.getD k 0 := by
  induction l generalizing m a k with
  | nil => simp at h
  | cons b l ih =>
    rw [writeBytes]
    cases k with
    | zero =>
      rw [read_writeBytes_outside (by omega), read_write]
      simp
    | succ k =>
      have := ih (m := write m a b) (a := a + 1) (k := k) (by simpa using h)
      rw [show a + (k + 1) = a + 1 + k by omega, this]
      simp

@[simp] theorem writeBytes_nil (m : List Host.Cell) (a : Nat) : writeBytes m a [] = m := rfl

@[simp] theorem length_readBytes (m : List Host.Cell) (a k : Nat) : (readBytes m a k).length = k := by
  induction k generalizing a with
  | zero => rfl
  | succ k ih => simp [readBytes, ih]

theorem getD_readBytes {m : List Host.Cell} {a k i : Nat} (h : i < k) :
    (readBytes m a k).getD i 0 = read m (a + i) := by
  induction k generalizing a i with
  | zero => omega
  | succ k ih =>
    cases i with
    | zero => simp [readBytes]
    | succ i =>
      simp only [readBytes, List.getD_cons_succ]
      rw [ih (by omega), show a + 1 + i = a + (i + 1) by omega]

theorem readBytes_congr {m m' : List Host.Cell} {a k : Nat}
    (h : ∀ x, a ≤ x → x < a + k → read m x = read m' x) : readBytes m a k = readBytes m' a k := by
  induction k generalizing a with
  | zero => rfl
  | succ k ih =>
    simp only [readBytes]
    rw [h a (by omega) (by omega), ih fun x h1 h2 => h x (by omega) (by omega)]

/-- Reading back what was written. -/
theorem readBytes_writeBytes (m : List Host.Cell) (a : Nat) (l : List Byte) :
    readBytes (writeBytes m a l) a l.length = l := by
  induction l generalizing m a with
  | nil => rfl
  | cons b l ih =>
    simp only [List.length_cons, readBytes, writeBytes]
    rw [read_writeBytes_outside (by omega), read_write, ih]
    simp

theorem readBytes_append (m : List Host.Cell) (a j k : Nat) :
    readBytes m a (j + k) = readBytes m a j ++ readBytes m (a + j) k := by
  induction j generalizing a with
  | zero => simp [readBytes]
  | succ j ih =>
    rw [show j + 1 + k = (j + k) + 1 by omega]
    simp only [readBytes, List.cons_append, ih]
    rw [show a + 1 + j = a + (j + 1) by omega]

end Memory

end Sys2Proof.Machine
end

