-- ==== Sys2Proof/Laws/State.lean ====
section
/-! SUPPORT. What each update of the state leaves in each field: one lemma per field per update, true by rfl, so that
no proof unfolds a record update. -/

namespace Sys2Proof.Machine.State

variable (s : State)

@[simp] theorem accept_dmemLog (w : Word) : (s.accept w).dmemLog = s.dmemLog := rfl
@[simp] theorem accept_eng (w : Word) : (s.accept w).eng = .busy := rfl
@[simp] theorem accept_latch (w : Word) :
    (s.accept w).latch = { cmd := w, src := s.srcAddr, n := s.srcLen, dst := s.dstAddr, cap := s.dstCap } := rfl
@[simp] theorem accept_ie (w : Word) : (s.accept w).ie = s.ie := rfl
@[simp] theorem accept_done (w : Word) : (s.accept w).done = false := rfl
@[simp] theorem accept_ovr (w : Word) : (s.accept w).ovr = s.ovr := rfl
@[simp] theorem accept_cmd (w : Word) : (s.accept w).cmd = w := rfl
@[simp] theorem accept_srcAddr (w : Word) : (s.accept w).srcAddr = s.srcAddr := rfl
@[simp] theorem accept_srcLen (w : Word) : (s.accept w).srcLen = s.srcLen := rfl
@[simp] theorem accept_dstAddr (w : Word) : (s.accept w).dstAddr = s.dstAddr := rfl
@[simp] theorem accept_dstCap (w : Word) : (s.accept w).dstCap = s.dstCap := rfl
@[simp] theorem accept_outLen (w : Word) : (s.accept w).outLen = s.outLen := rfl
@[simp] theorem accept_errCode (w : Word) : (s.accept w).errCode = 0 := rfl
@[simp] theorem accept_errInfo (w : Word) : (s.accept w).errInfo = 0 := rfl
@[simp] theorem accept_crcAcc (w : Word) : (s.accept w).crcAcc = s.crcAcc := rfl
@[simp] theorem accept_adlerAcc (w : Word) : (s.accept w).adlerAcc = s.adlerAcc := rfl
@[simp] theorem accept_litCount (w : Word) : (s.accept w).litCount = s.litCount := rfl
@[simp] theorem accept_matchCount (w : Word) : (s.accept w).matchCount = s.matchCount := rfl
@[simp] theorem accept_hdrSizeLo (w : Word) : (s.accept w).hdrSizeLo = s.hdrSizeLo := rfl
@[simp] theorem accept_hdrSizeHi (w : Word) : (s.accept w).hdrSizeHi = s.hdrSizeHi := rfl
@[simp] theorem accept_tables (w : Word) : (s.accept w).tables = s.tables := rfl
@[simp] theorem accept_bitbuf (w : Word) : (s.accept w).bitbuf = s.bitbuf := rfl
@[simp] theorem accept_bitcnt (w : Word) : (s.accept w).bitcnt = s.bitcnt := rfl
@[simp] theorem accept_za (w : Word) : (s.accept w).za = s.za := rfl
@[simp] theorem accept_zb (w : Word) : (s.accept w).zb = s.zb := rfl
@[simp] theorem accept_dmem (w : Word) : (s.accept w).dmem = s.dmem := rfl
@[simp] theorem accept_inReset (w : Word) : (s.accept w).inReset = s.inReset := rfl
@[simp] theorem accept_regRdata (w : Word) : (s.accept w).regRdata = s.regRdata := rfl
@[simp] theorem accept_memRdata (w : Word) : (s.accept w).memRdata = s.memRdata := rfl
@[simp] theorem accept_inbox (w : Word) : (s.accept w).inbox = s.inbox := rfl
@[simp] theorem accept_draws (w : Word) : (s.accept w).draws = s.draws := rfl

@[simp] theorem complete_dmemLog : (s.complete).dmemLog = s.dmemLog := rfl
@[simp] theorem complete_eng : (s.complete).eng = .idle := rfl
@[simp] theorem complete_latch : (s.complete).latch = s.latch := rfl
@[simp] theorem complete_ie : (s.complete).ie = s.ie := rfl
@[simp] theorem complete_done : (s.complete).done = true := rfl
@[simp] theorem complete_ovr : (s.complete).ovr = s.ovr := rfl
@[simp] theorem complete_cmd : (s.complete).cmd = s.cmd := rfl
@[simp] theorem complete_srcAddr : (s.complete).srcAddr = s.srcAddr := rfl
@[simp] theorem complete_srcLen : (s.complete).srcLen = s.srcLen := rfl
@[simp] theorem complete_dstAddr : (s.complete).dstAddr = s.dstAddr := rfl
@[simp] theorem complete_dstCap : (s.complete).dstCap = s.dstCap := rfl
@[simp] theorem complete_outLen : (s.complete).outLen = s.outLen := rfl
@[simp] theorem complete_errCode : (s.complete).errCode = 0 := rfl
@[simp] theorem complete_errInfo : (s.complete).errInfo = 0 := rfl
@[simp] theorem complete_crcAcc : (s.complete).crcAcc = s.crcAcc := rfl
@[simp] theorem complete_adlerAcc : (s.complete).adlerAcc = s.adlerAcc := rfl
@[simp] theorem complete_litCount : (s.complete).litCount = s.litCount := rfl
@[simp] theorem complete_matchCount : (s.complete).matchCount = s.matchCount := rfl
@[simp] theorem complete_hdrSizeLo : (s.complete).hdrSizeLo = s.hdrSizeLo := rfl
@[simp] theorem complete_hdrSizeHi : (s.complete).hdrSizeHi = s.hdrSizeHi := rfl
@[simp] theorem complete_tables : (s.complete).tables = s.tables := rfl
@[simp] theorem complete_bitbuf : (s.complete).bitbuf = s.bitbuf := rfl
@[simp] theorem complete_bitcnt : (s.complete).bitcnt = s.bitcnt := rfl
@[simp] theorem complete_za : (s.complete).za = s.za := rfl
@[simp] theorem complete_zb : (s.complete).zb = s.zb := rfl
@[simp] theorem complete_dmem : (s.complete).dmem = s.dmem := rfl
@[simp] theorem complete_inReset : (s.complete).inReset = s.inReset := rfl
@[simp] theorem complete_regRdata : (s.complete).regRdata = s.regRdata := rfl
@[simp] theorem complete_memRdata : (s.complete).memRdata = s.memRdata := rfl
@[simp] theorem complete_inbox : (s.complete).inbox = s.inbox := rfl
@[simp] theorem complete_draws : (s.complete).draws = s.draws := rfl

@[simp] theorem raiseErr_dmemLog (e : Err) (info : Word) : (s.raiseErr e info).dmemLog = s.dmemLog := rfl
@[simp] theorem raiseErr_eng (e : Err) (info : Word) : (s.raiseErr e info).eng = .idle := rfl
@[simp] theorem raiseErr_latch (e : Err) (info : Word) : (s.raiseErr e info).latch = s.latch := rfl
@[simp] theorem raiseErr_ie (e : Err) (info : Word) : (s.raiseErr e info).ie = s.ie := rfl
@[simp] theorem raiseErr_done (e : Err) (info : Word) : (s.raiseErr e info).done = true := rfl
@[simp] theorem raiseErr_ovr (e : Err) (info : Word) : (s.raiseErr e info).ovr = s.ovr := rfl
@[simp] theorem raiseErr_cmd (e : Err) (info : Word) : (s.raiseErr e info).cmd = s.cmd := rfl
@[simp] theorem raiseErr_srcAddr (e : Err) (info : Word) : (s.raiseErr e info).srcAddr = s.srcAddr := rfl
@[simp] theorem raiseErr_srcLen (e : Err) (info : Word) : (s.raiseErr e info).srcLen = s.srcLen := rfl
@[simp] theorem raiseErr_dstAddr (e : Err) (info : Word) : (s.raiseErr e info).dstAddr = s.dstAddr := rfl
@[simp] theorem raiseErr_dstCap (e : Err) (info : Word) : (s.raiseErr e info).dstCap = s.dstCap := rfl
@[simp] theorem raiseErr_outLen (e : Err) (info : Word) : (s.raiseErr e info).outLen = s.outLen := rfl
@[simp] theorem raiseErr_errCode (e : Err) (info : Word) : (s.raiseErr e info).errCode = e.code := rfl
@[simp] theorem raiseErr_errInfo (e : Err) (info : Word) : (s.raiseErr e info).errInfo = info := rfl
@[simp] theorem raiseErr_crcAcc (e : Err) (info : Word) : (s.raiseErr e info).crcAcc = s.crcAcc := rfl
@[simp] theorem raiseErr_adlerAcc (e : Err) (info : Word) : (s.raiseErr e info).adlerAcc = s.adlerAcc := rfl
@[simp] theorem raiseErr_litCount (e : Err) (info : Word) : (s.raiseErr e info).litCount = s.litCount := rfl
@[simp] theorem raiseErr_matchCount (e : Err) (info : Word) : (s.raiseErr e info).matchCount = s.matchCount := rfl
@[simp] theorem raiseErr_hdrSizeLo (e : Err) (info : Word) : (s.raiseErr e info).hdrSizeLo = s.hdrSizeLo := rfl
@[simp] theorem raiseErr_hdrSizeHi (e : Err) (info : Word) : (s.raiseErr e info).hdrSizeHi = s.hdrSizeHi := rfl
@[simp] theorem raiseErr_tables (e : Err) (info : Word) : (s.raiseErr e info).tables = s.tables := rfl
@[simp] theorem raiseErr_bitbuf (e : Err) (info : Word) : (s.raiseErr e info).bitbuf = s.bitbuf := rfl
@[simp] theorem raiseErr_bitcnt (e : Err) (info : Word) : (s.raiseErr e info).bitcnt = s.bitcnt := rfl
@[simp] theorem raiseErr_za (e : Err) (info : Word) : (s.raiseErr e info).za = s.za := rfl
@[simp] theorem raiseErr_zb (e : Err) (info : Word) : (s.raiseErr e info).zb = s.zb := rfl
@[simp] theorem raiseErr_dmem (e : Err) (info : Word) : (s.raiseErr e info).dmem = s.dmem := rfl
@[simp] theorem raiseErr_inReset (e : Err) (info : Word) : (s.raiseErr e info).inReset = s.inReset := rfl
@[simp] theorem raiseErr_regRdata (e : Err) (info : Word) : (s.raiseErr e info).regRdata = s.regRdata := rfl
@[simp] theorem raiseErr_memRdata (e : Err) (info : Word) : (s.raiseErr e info).memRdata = s.memRdata := rfl
@[simp] theorem raiseErr_inbox (e : Err) (info : Word) : (s.raiseErr e info).inbox = s.inbox := rfl
@[simp] theorem raiseErr_draws (e : Err) (info : Word) : (s.raiseErr e info).draws = s.draws := rfl

@[simp] theorem ackDone_dmemLog : (s.ackDone).dmemLog = s.dmemLog := rfl
@[simp] theorem ackDone_eng : (s.ackDone).eng = s.eng := rfl
@[simp] theorem ackDone_latch : (s.ackDone).latch = s.latch := rfl
@[simp] theorem ackDone_ie : (s.ackDone).ie = s.ie := rfl
@[simp] theorem ackDone_done : (s.ackDone).done = false := rfl
@[simp] theorem ackDone_ovr : (s.ackDone).ovr = s.ovr := rfl
@[simp] theorem ackDone_cmd : (s.ackDone).cmd = s.cmd := rfl
@[simp] theorem ackDone_srcAddr : (s.ackDone).srcAddr = s.srcAddr := rfl
@[simp] theorem ackDone_srcLen : (s.ackDone).srcLen = s.srcLen := rfl
@[simp] theorem ackDone_dstAddr : (s.ackDone).dstAddr = s.dstAddr := rfl
@[simp] theorem ackDone_dstCap : (s.ackDone).dstCap = s.dstCap := rfl
@[simp] theorem ackDone_outLen : (s.ackDone).outLen = s.outLen := rfl
@[simp] theorem ackDone_errCode : (s.ackDone).errCode = s.errCode := rfl
@[simp] theorem ackDone_errInfo : (s.ackDone).errInfo = s.errInfo := rfl
@[simp] theorem ackDone_crcAcc : (s.ackDone).crcAcc = s.crcAcc := rfl
@[simp] theorem ackDone_adlerAcc : (s.ackDone).adlerAcc = s.adlerAcc := rfl
@[simp] theorem ackDone_litCount : (s.ackDone).litCount = s.litCount := rfl
@[simp] theorem ackDone_matchCount : (s.ackDone).matchCount = s.matchCount := rfl
@[simp] theorem ackDone_hdrSizeLo : (s.ackDone).hdrSizeLo = s.hdrSizeLo := rfl
@[simp] theorem ackDone_hdrSizeHi : (s.ackDone).hdrSizeHi = s.hdrSizeHi := rfl
@[simp] theorem ackDone_tables : (s.ackDone).tables = s.tables := rfl
@[simp] theorem ackDone_bitbuf : (s.ackDone).bitbuf = s.bitbuf := rfl
@[simp] theorem ackDone_bitcnt : (s.ackDone).bitcnt = s.bitcnt := rfl
@[simp] theorem ackDone_za : (s.ackDone).za = s.za := rfl
@[simp] theorem ackDone_zb : (s.ackDone).zb = s.zb := rfl
@[simp] theorem ackDone_dmem : (s.ackDone).dmem = s.dmem := rfl
@[simp] theorem ackDone_inReset : (s.ackDone).inReset = s.inReset := rfl
@[simp] theorem ackDone_regRdata : (s.ackDone).regRdata = s.regRdata := rfl
@[simp] theorem ackDone_memRdata : (s.ackDone).memRdata = s.memRdata := rfl
@[simp] theorem ackDone_inbox : (s.ackDone).inbox = s.inbox := rfl
@[simp] theorem ackDone_draws : (s.ackDone).draws = s.draws := rfl

@[simp] theorem clearOutLen_dmemLog : (s.clearOutLen).dmemLog = s.dmemLog := rfl
@[simp] theorem clearOutLen_eng : (s.clearOutLen).eng = s.eng := rfl
@[simp] theorem clearOutLen_latch : (s.clearOutLen).latch = s.latch := rfl
@[simp] theorem clearOutLen_ie : (s.clearOutLen).ie = s.ie := rfl
@[simp] theorem clearOutLen_done : (s.clearOutLen).done = s.done := rfl
@[simp] theorem clearOutLen_ovr : (s.clearOutLen).ovr = s.ovr := rfl
@[simp] theorem clearOutLen_cmd : (s.clearOutLen).cmd = s.cmd := rfl
@[simp] theorem clearOutLen_srcAddr : (s.clearOutLen).srcAddr = s.srcAddr := rfl
@[simp] theorem clearOutLen_srcLen : (s.clearOutLen).srcLen = s.srcLen := rfl
@[simp] theorem clearOutLen_dstAddr : (s.clearOutLen).dstAddr = s.dstAddr := rfl
@[simp] theorem clearOutLen_dstCap : (s.clearOutLen).dstCap = s.dstCap := rfl
@[simp] theorem clearOutLen_outLen : (s.clearOutLen).outLen = 0 := rfl
@[simp] theorem clearOutLen_errCode : (s.clearOutLen).errCode = s.errCode := rfl
@[simp] theorem clearOutLen_errInfo : (s.clearOutLen).errInfo = s.errInfo := rfl
@[simp] theorem clearOutLen_crcAcc : (s.clearOutLen).crcAcc = s.crcAcc := rfl
@[simp] theorem clearOutLen_adlerAcc : (s.clearOutLen).adlerAcc = s.adlerAcc := rfl
@[simp] theorem clearOutLen_litCount : (s.clearOutLen).litCount = s.litCount := rfl
@[simp] theorem clearOutLen_matchCount : (s.clearOutLen).matchCount = s.matchCount := rfl
@[simp] theorem clearOutLen_hdrSizeLo : (s.clearOutLen).hdrSizeLo = s.hdrSizeLo := rfl
@[simp] theorem clearOutLen_hdrSizeHi : (s.clearOutLen).hdrSizeHi = s.hdrSizeHi := rfl
@[simp] theorem clearOutLen_tables : (s.clearOutLen).tables = s.tables := rfl
@[simp] theorem clearOutLen_bitbuf : (s.clearOutLen).bitbuf = s.bitbuf := rfl
@[simp] theorem clearOutLen_bitcnt : (s.clearOutLen).bitcnt = s.bitcnt := rfl
@[simp] theorem clearOutLen_za : (s.clearOutLen).za = s.za := rfl
@[simp] theorem clearOutLen_zb : (s.clearOutLen).zb = s.zb := rfl
@[simp] theorem clearOutLen_dmem : (s.clearOutLen).dmem = s.dmem := rfl
@[simp] theorem clearOutLen_inReset : (s.clearOutLen).inReset = s.inReset := rfl
@[simp] theorem clearOutLen_regRdata : (s.clearOutLen).regRdata = s.regRdata := rfl
@[simp] theorem clearOutLen_memRdata : (s.clearOutLen).memRdata = s.memRdata := rfl
@[simp] theorem clearOutLen_inbox : (s.clearOutLen).inbox = s.inbox := rfl
@[simp] theorem clearOutLen_draws : (s.clearOutLen).draws = s.draws := rfl

@[simp] theorem writePrefix_dmemLog (l : List Byte) : (s.writePrefix l).dmemLog = s.dmemLog := rfl
@[simp] theorem writePrefix_eng (l : List Byte) : (s.writePrefix l).eng = s.eng := rfl
@[simp] theorem writePrefix_latch (l : List Byte) : (s.writePrefix l).latch = s.latch := rfl
@[simp] theorem writePrefix_ie (l : List Byte) : (s.writePrefix l).ie = s.ie := rfl
@[simp] theorem writePrefix_done (l : List Byte) : (s.writePrefix l).done = s.done := rfl
@[simp] theorem writePrefix_ovr (l : List Byte) : (s.writePrefix l).ovr = s.ovr := rfl
@[simp] theorem writePrefix_cmd (l : List Byte) : (s.writePrefix l).cmd = s.cmd := rfl
@[simp] theorem writePrefix_srcAddr (l : List Byte) : (s.writePrefix l).srcAddr = s.srcAddr := rfl
@[simp] theorem writePrefix_srcLen (l : List Byte) : (s.writePrefix l).srcLen = s.srcLen := rfl
@[simp] theorem writePrefix_dstAddr (l : List Byte) : (s.writePrefix l).dstAddr = s.dstAddr := rfl
@[simp] theorem writePrefix_dstCap (l : List Byte) : (s.writePrefix l).dstCap = s.dstCap := rfl
@[simp] theorem writePrefix_outLen (l : List Byte) :
    (s.writePrefix l).outLen = BitVec.ofNat 32 (min l.length s.latch.cap.toNat) := rfl
@[simp] theorem writePrefix_errCode (l : List Byte) : (s.writePrefix l).errCode = s.errCode := rfl
@[simp] theorem writePrefix_errInfo (l : List Byte) : (s.writePrefix l).errInfo = s.errInfo := rfl
@[simp] theorem writePrefix_crcAcc (l : List Byte) : (s.writePrefix l).crcAcc = s.crcAcc := rfl
@[simp] theorem writePrefix_adlerAcc (l : List Byte) : (s.writePrefix l).adlerAcc = s.adlerAcc := rfl
@[simp] theorem writePrefix_litCount (l : List Byte) : (s.writePrefix l).litCount = s.litCount := rfl
@[simp] theorem writePrefix_matchCount (l : List Byte) : (s.writePrefix l).matchCount = s.matchCount := rfl
@[simp] theorem writePrefix_hdrSizeLo (l : List Byte) : (s.writePrefix l).hdrSizeLo = s.hdrSizeLo := rfl
@[simp] theorem writePrefix_hdrSizeHi (l : List Byte) : (s.writePrefix l).hdrSizeHi = s.hdrSizeHi := rfl
@[simp] theorem writePrefix_tables (l : List Byte) : (s.writePrefix l).tables = s.tables := rfl
@[simp] theorem writePrefix_bitbuf (l : List Byte) : (s.writePrefix l).bitbuf = s.bitbuf := rfl
@[simp] theorem writePrefix_bitcnt (l : List Byte) : (s.writePrefix l).bitcnt = s.bitcnt := rfl
@[simp] theorem writePrefix_za (l : List Byte) : (s.writePrefix l).za = s.za := rfl
@[simp] theorem writePrefix_zb (l : List Byte) : (s.writePrefix l).zb = s.zb := rfl
@[simp] theorem writePrefix_dmem (l : List Byte) :
    (s.writePrefix l).dmem = Memory.writeBytes s.dmem s.latch.dst.toNat (l.take s.latch.cap.toNat) := rfl
@[simp] theorem writePrefix_inReset (l : List Byte) : (s.writePrefix l).inReset = s.inReset := rfl
@[simp] theorem writePrefix_regRdata (l : List Byte) : (s.writePrefix l).regRdata = s.regRdata := rfl
@[simp] theorem writePrefix_memRdata (l : List Byte) : (s.writePrefix l).memRdata = s.memRdata := rfl
@[simp] theorem writePrefix_inbox (l : List Byte) : (s.writePrefix l).inbox = s.inbox := rfl
@[simp] theorem writePrefix_draws (l : List Byte) : (s.writePrefix l).draws = s.draws := rfl

@[simp] theorem drawCounts_dmemLog : (s.drawCounts).dmemLog = s.dmemLog := rfl
@[simp] theorem drawCounts_eng : (s.drawCounts).eng = s.eng := rfl
@[simp] theorem drawCounts_latch : (s.drawCounts).latch = s.latch := rfl
@[simp] theorem drawCounts_ie : (s.drawCounts).ie = s.ie := rfl
@[simp] theorem drawCounts_done : (s.drawCounts).done = s.done := rfl
@[simp] theorem drawCounts_ovr : (s.drawCounts).ovr = s.ovr := rfl
@[simp] theorem drawCounts_cmd : (s.drawCounts).cmd = s.cmd := rfl
@[simp] theorem drawCounts_srcAddr : (s.drawCounts).srcAddr = s.srcAddr := rfl
@[simp] theorem drawCounts_srcLen : (s.drawCounts).srcLen = s.srcLen := rfl
@[simp] theorem drawCounts_dstAddr : (s.drawCounts).dstAddr = s.dstAddr := rfl
@[simp] theorem drawCounts_dstCap : (s.drawCounts).dstCap = s.dstCap := rfl
@[simp] theorem drawCounts_outLen : (s.drawCounts).outLen = s.outLen := rfl
@[simp] theorem drawCounts_errCode : (s.drawCounts).errCode = s.errCode := rfl
@[simp] theorem drawCounts_errInfo : (s.drawCounts).errInfo = s.errInfo := rfl
@[simp] theorem drawCounts_crcAcc : (s.drawCounts).crcAcc = s.crcAcc := rfl
@[simp] theorem drawCounts_adlerAcc : (s.drawCounts).adlerAcc = s.adlerAcc := rfl
@[simp] theorem drawCounts_litCount : (s.drawCounts).litCount = Config.freeWord s.draws := rfl
@[simp] theorem drawCounts_matchCount : (s.drawCounts).matchCount = Config.freeWord (s.draws + 1) := rfl
@[simp] theorem drawCounts_hdrSizeLo : (s.drawCounts).hdrSizeLo = s.hdrSizeLo := rfl
@[simp] theorem drawCounts_hdrSizeHi : (s.drawCounts).hdrSizeHi = s.hdrSizeHi := rfl
@[simp] theorem drawCounts_tables : (s.drawCounts).tables = s.tables := rfl
@[simp] theorem drawCounts_bitbuf : (s.drawCounts).bitbuf = s.bitbuf := rfl
@[simp] theorem drawCounts_bitcnt : (s.drawCounts).bitcnt = s.bitcnt := rfl
@[simp] theorem drawCounts_za : (s.drawCounts).za = s.za := rfl
@[simp] theorem drawCounts_zb : (s.drawCounts).zb = s.zb := rfl
@[simp] theorem drawCounts_dmem : (s.drawCounts).dmem = s.dmem := rfl
@[simp] theorem drawCounts_inReset : (s.drawCounts).inReset = s.inReset := rfl
@[simp] theorem drawCounts_regRdata : (s.drawCounts).regRdata = s.regRdata := rfl
@[simp] theorem drawCounts_memRdata : (s.drawCounts).memRdata = s.memRdata := rfl
@[simp] theorem drawCounts_inbox : (s.drawCounts).inbox = s.inbox := rfl
@[simp] theorem drawCounts_draws : (s.drawCounts).draws = s.draws + 2 := rfl

@[simp] theorem drawDestination_dmemLog : (s.drawDestination).dmemLog = s.dmemLog := rfl
@[simp] theorem drawDestination_eng : (s.drawDestination).eng = s.eng := rfl
@[simp] theorem drawDestination_latch : (s.drawDestination).latch = s.latch := rfl
@[simp] theorem drawDestination_ie : (s.drawDestination).ie = s.ie := rfl
@[simp] theorem drawDestination_done : (s.drawDestination).done = s.done := rfl
@[simp] theorem drawDestination_ovr : (s.drawDestination).ovr = s.ovr := rfl
@[simp] theorem drawDestination_cmd : (s.drawDestination).cmd = s.cmd := rfl
@[simp] theorem drawDestination_srcAddr : (s.drawDestination).srcAddr = s.srcAddr := rfl
@[simp] theorem drawDestination_srcLen : (s.drawDestination).srcLen = s.srcLen := rfl
@[simp] theorem drawDestination_dstAddr : (s.drawDestination).dstAddr = s.dstAddr := rfl
@[simp] theorem drawDestination_dstCap : (s.drawDestination).dstCap = s.dstCap := rfl
@[simp] theorem drawDestination_outLen : (s.drawDestination).outLen = s.outLen := rfl
@[simp] theorem drawDestination_errCode : (s.drawDestination).errCode = s.errCode := rfl
@[simp] theorem drawDestination_errInfo : (s.drawDestination).errInfo = s.errInfo := rfl
@[simp] theorem drawDestination_crcAcc : (s.drawDestination).crcAcc = s.crcAcc := rfl
@[simp] theorem drawDestination_adlerAcc : (s.drawDestination).adlerAcc = s.adlerAcc := rfl
@[simp] theorem drawDestination_litCount : (s.drawDestination).litCount = s.litCount := rfl
@[simp] theorem drawDestination_matchCount : (s.drawDestination).matchCount = s.matchCount := rfl
@[simp] theorem drawDestination_hdrSizeLo : (s.drawDestination).hdrSizeLo = s.hdrSizeLo := rfl
@[simp] theorem drawDestination_hdrSizeHi : (s.drawDestination).hdrSizeHi = s.hdrSizeHi := rfl
@[simp] theorem drawDestination_tables : (s.drawDestination).tables = s.tables := rfl
@[simp] theorem drawDestination_bitbuf : (s.drawDestination).bitbuf = s.bitbuf := rfl
@[simp] theorem drawDestination_bitcnt : (s.drawDestination).bitcnt = s.bitcnt := rfl
@[simp] theorem drawDestination_za : (s.drawDestination).za = s.za := rfl
@[simp] theorem drawDestination_zb : (s.drawDestination).zb = s.zb := rfl
@[simp] theorem drawDestination_dmem :
    (s.drawDestination).dmem = Memory.writeBytes s.dmem s.latch.dst.toNat (freeBytes s.draws s.latch.cap.toNat) := rfl
@[simp] theorem drawDestination_inReset : (s.drawDestination).inReset = s.inReset := rfl
@[simp] theorem drawDestination_regRdata : (s.drawDestination).regRdata = s.regRdata := rfl
@[simp] theorem drawDestination_memRdata : (s.drawDestination).memRdata = s.memRdata := rfl
@[simp] theorem drawDestination_inbox : (s.drawDestination).inbox = s.inbox := rfl
@[simp] theorem drawDestination_draws : (s.drawDestination).draws = s.draws + s.latch.cap.toNat := rfl

@[simp] theorem keepTables_dmemLog (b : Block) : (s.keepTables b).dmemLog = s.dmemLog := rfl
@[simp] theorem keepTables_eng (b : Block) : (s.keepTables b).eng = s.eng := rfl
@[simp] theorem keepTables_latch (b : Block) : (s.keepTables b).latch = s.latch := rfl
@[simp] theorem keepTables_ie (b : Block) : (s.keepTables b).ie = s.ie := rfl
@[simp] theorem keepTables_done (b : Block) : (s.keepTables b).done = s.done := rfl
@[simp] theorem keepTables_ovr (b : Block) : (s.keepTables b).ovr = s.ovr := rfl
@[simp] theorem keepTables_cmd (b : Block) : (s.keepTables b).cmd = s.cmd := rfl
@[simp] theorem keepTables_srcAddr (b : Block) : (s.keepTables b).srcAddr = s.srcAddr := rfl
@[simp] theorem keepTables_srcLen (b : Block) : (s.keepTables b).srcLen = s.srcLen := rfl
@[simp] theorem keepTables_dstAddr (b : Block) : (s.keepTables b).dstAddr = s.dstAddr := rfl
@[simp] theorem keepTables_dstCap (b : Block) : (s.keepTables b).dstCap = s.dstCap := rfl
@[simp] theorem keepTables_outLen (b : Block) : (s.keepTables b).outLen = s.outLen := rfl
@[simp] theorem keepTables_errCode (b : Block) : (s.keepTables b).errCode = s.errCode := rfl
@[simp] theorem keepTables_errInfo (b : Block) : (s.keepTables b).errInfo = s.errInfo := rfl
@[simp] theorem keepTables_crcAcc (b : Block) : (s.keepTables b).crcAcc = s.crcAcc := rfl
@[simp] theorem keepTables_adlerAcc (b : Block) : (s.keepTables b).adlerAcc = s.adlerAcc := rfl
@[simp] theorem keepTables_litCount (b : Block) : (s.keepTables b).litCount = s.litCount := rfl
@[simp] theorem keepTables_matchCount (b : Block) : (s.keepTables b).matchCount = s.matchCount := rfl
@[simp] theorem keepTables_hdrSizeLo (b : Block) : (s.keepTables b).hdrSizeLo = s.hdrSizeLo := rfl
@[simp] theorem keepTables_hdrSizeHi (b : Block) : (s.keepTables b).hdrSizeHi = s.hdrSizeHi := rfl
@[simp] theorem keepTables_tables (b : Block) : (s.keepTables b).tables = b.tables := rfl
@[simp] theorem keepTables_bitbuf (b : Block) : (s.keepTables b).bitbuf = b.packer.bitbuf := rfl
@[simp] theorem keepTables_bitcnt (b : Block) : (s.keepTables b).bitcnt = b.packer.bitcnt := rfl
@[simp] theorem keepTables_za (b : Block) : (s.keepTables b).za = s.za := rfl
@[simp] theorem keepTables_zb (b : Block) : (s.keepTables b).zb = s.zb := rfl
@[simp] theorem keepTables_dmem (b : Block) : (s.keepTables b).dmem = s.dmem := rfl
@[simp] theorem keepTables_inReset (b : Block) : (s.keepTables b).inReset = s.inReset := rfl
@[simp] theorem keepTables_regRdata (b : Block) : (s.keepTables b).regRdata = s.regRdata := rfl
@[simp] theorem keepTables_memRdata (b : Block) : (s.keepTables b).memRdata = s.memRdata := rfl
@[simp] theorem keepTables_inbox (b : Block) : (s.keepTables b).inbox = s.inbox := rfl
@[simp] theorem keepTables_draws (b : Block) : (s.keepTables b).draws = s.draws := rfl

@[simp] theorem keepCounts_dmemLog (b : Block) : (s.keepCounts b).dmemLog = s.dmemLog := rfl
@[simp] theorem keepCounts_eng (b : Block) : (s.keepCounts b).eng = s.eng := rfl
@[simp] theorem keepCounts_latch (b : Block) : (s.keepCounts b).latch = s.latch := rfl
@[simp] theorem keepCounts_ie (b : Block) : (s.keepCounts b).ie = s.ie := rfl
@[simp] theorem keepCounts_done (b : Block) : (s.keepCounts b).done = s.done := rfl
@[simp] theorem keepCounts_ovr (b : Block) : (s.keepCounts b).ovr = s.ovr := rfl
@[simp] theorem keepCounts_cmd (b : Block) : (s.keepCounts b).cmd = s.cmd := rfl
@[simp] theorem keepCounts_srcAddr (b : Block) : (s.keepCounts b).srcAddr = s.srcAddr := rfl
@[simp] theorem keepCounts_srcLen (b : Block) : (s.keepCounts b).srcLen = s.srcLen := rfl
@[simp] theorem keepCounts_dstAddr (b : Block) : (s.keepCounts b).dstAddr = s.dstAddr := rfl
@[simp] theorem keepCounts_dstCap (b : Block) : (s.keepCounts b).dstCap = s.dstCap := rfl
@[simp] theorem keepCounts_outLen (b : Block) : (s.keepCounts b).outLen = s.outLen := rfl
@[simp] theorem keepCounts_errCode (b : Block) : (s.keepCounts b).errCode = s.errCode := rfl
@[simp] theorem keepCounts_errInfo (b : Block) : (s.keepCounts b).errInfo = s.errInfo := rfl
@[simp] theorem keepCounts_crcAcc (b : Block) : (s.keepCounts b).crcAcc = s.crcAcc := rfl
@[simp] theorem keepCounts_adlerAcc (b : Block) : (s.keepCounts b).adlerAcc = s.adlerAcc := rfl
@[simp] theorem keepCounts_litCount (b : Block) : (s.keepCounts b).litCount = BitVec.ofNat 32 b.lits := rfl
@[simp] theorem keepCounts_matchCount (b : Block) : (s.keepCounts b).matchCount = BitVec.ofNat 32 b.pairs := rfl
@[simp] theorem keepCounts_hdrSizeLo (b : Block) : (s.keepCounts b).hdrSizeLo = s.hdrSizeLo := rfl
@[simp] theorem keepCounts_hdrSizeHi (b : Block) : (s.keepCounts b).hdrSizeHi = s.hdrSizeHi := rfl
@[simp] theorem keepCounts_tables (b : Block) : (s.keepCounts b).tables = s.tables := rfl
@[simp] theorem keepCounts_bitbuf (b : Block) : (s.keepCounts b).bitbuf = s.bitbuf := rfl
@[simp] theorem keepCounts_bitcnt (b : Block) : (s.keepCounts b).bitcnt = s.bitcnt := rfl
@[simp] theorem keepCounts_za (b : Block) : (s.keepCounts b).za = s.za := rfl
@[simp] theorem keepCounts_zb (b : Block) : (s.keepCounts b).zb = s.zb := rfl
@[simp] theorem keepCounts_dmem (b : Block) : (s.keepCounts b).dmem = s.dmem := rfl
@[simp] theorem keepCounts_inReset (b : Block) : (s.keepCounts b).inReset = s.inReset := rfl
@[simp] theorem keepCounts_regRdata (b : Block) : (s.keepCounts b).regRdata = s.regRdata := rfl
@[simp] theorem keepCounts_memRdata (b : Block) : (s.keepCounts b).memRdata = s.memRdata := rfl
@[simp] theorem keepCounts_inbox (b : Block) : (s.keepCounts b).inbox = s.inbox := rfl
@[simp] theorem keepCounts_draws (b : Block) : (s.keepCounts b).draws = s.draws := rfl

@[simp] theorem resetRegisters_dmemLog : (s.resetRegisters).dmemLog = s.dmemLog := rfl
@[simp] theorem resetRegisters_eng : (s.resetRegisters).eng = .idle := rfl
@[simp] theorem resetRegisters_latch : (s.resetRegisters).latch = s.latch := rfl
@[simp] theorem resetRegisters_ie : (s.resetRegisters).ie = false := rfl
@[simp] theorem resetRegisters_done : (s.resetRegisters).done = false := rfl
@[simp] theorem resetRegisters_ovr : (s.resetRegisters).ovr = false := rfl
@[simp] theorem resetRegisters_cmd : (s.resetRegisters).cmd = 0 := rfl
@[simp] theorem resetRegisters_srcAddr : (s.resetRegisters).srcAddr = 0 := rfl
@[simp] theorem resetRegisters_srcLen : (s.resetRegisters).srcLen = 0 := rfl
@[simp] theorem resetRegisters_dstAddr : (s.resetRegisters).dstAddr = 0 := rfl
@[simp] theorem resetRegisters_dstCap : (s.resetRegisters).dstCap = 0 := rfl
@[simp] theorem resetRegisters_outLen : (s.resetRegisters).outLen = 0 := rfl
@[simp] theorem resetRegisters_errCode : (s.resetRegisters).errCode = 0 := rfl
@[simp] theorem resetRegisters_errInfo : (s.resetRegisters).errInfo = 0 := rfl
@[simp] theorem resetRegisters_crcAcc : (s.resetRegisters).crcAcc = 0xFFFFFFFF := rfl
@[simp] theorem resetRegisters_adlerAcc : (s.resetRegisters).adlerAcc = 1 := rfl
@[simp] theorem resetRegisters_litCount : (s.resetRegisters).litCount = 0 := rfl
@[simp] theorem resetRegisters_matchCount : (s.resetRegisters).matchCount = 0 := rfl
@[simp] theorem resetRegisters_hdrSizeLo : (s.resetRegisters).hdrSizeLo = 0 := rfl
@[simp] theorem resetRegisters_hdrSizeHi : (s.resetRegisters).hdrSizeHi = 0 := rfl
@[simp] theorem resetRegisters_tables : (s.resetRegisters).tables = s.tables := rfl
@[simp] theorem resetRegisters_bitbuf : (s.resetRegisters).bitbuf = s.bitbuf := rfl
@[simp] theorem resetRegisters_bitcnt : (s.resetRegisters).bitcnt = s.bitcnt := rfl
@[simp] theorem resetRegisters_za : (s.resetRegisters).za = s.za := rfl
@[simp] theorem resetRegisters_zb : (s.resetRegisters).zb = s.zb := rfl
@[simp] theorem resetRegisters_dmem : (s.resetRegisters).dmem = s.dmem := rfl
@[simp] theorem resetRegisters_inReset : (s.resetRegisters).inReset = s.inReset := rfl
@[simp] theorem resetRegisters_regRdata : (s.resetRegisters).regRdata = s.regRdata := rfl
@[simp] theorem resetRegisters_memRdata : (s.resetRegisters).memRdata = s.memRdata := rfl
@[simp] theorem resetRegisters_inbox : (s.resetRegisters).inbox = s.inbox := rfl
@[simp] theorem resetRegisters_draws : (s.resetRegisters).draws = s.draws := rfl

@[simp] theorem takeEvent_dmemLog : (s.takeEvent).dmemLog = s.dmemLog := rfl
@[simp] theorem takeEvent_eng : (s.takeEvent).eng = s.eng := rfl
@[simp] theorem takeEvent_latch : (s.takeEvent).latch = s.latch := rfl
@[simp] theorem takeEvent_ie : (s.takeEvent).ie = s.ie := rfl
@[simp] theorem takeEvent_done : (s.takeEvent).done = s.done := rfl
@[simp] theorem takeEvent_ovr : (s.takeEvent).ovr = s.ovr := rfl
@[simp] theorem takeEvent_cmd : (s.takeEvent).cmd = s.cmd := rfl
@[simp] theorem takeEvent_srcAddr : (s.takeEvent).srcAddr = s.srcAddr := rfl
@[simp] theorem takeEvent_srcLen : (s.takeEvent).srcLen = s.srcLen := rfl
@[simp] theorem takeEvent_dstAddr : (s.takeEvent).dstAddr = s.dstAddr := rfl
@[simp] theorem takeEvent_dstCap : (s.takeEvent).dstCap = s.dstCap := rfl
@[simp] theorem takeEvent_outLen : (s.takeEvent).outLen = s.outLen := rfl
@[simp] theorem takeEvent_errCode : (s.takeEvent).errCode = s.errCode := rfl
@[simp] theorem takeEvent_errInfo : (s.takeEvent).errInfo = s.errInfo := rfl
@[simp] theorem takeEvent_crcAcc : (s.takeEvent).crcAcc = s.crcAcc := rfl
@[simp] theorem takeEvent_adlerAcc : (s.takeEvent).adlerAcc = s.adlerAcc := rfl
@[simp] theorem takeEvent_litCount : (s.takeEvent).litCount = s.litCount := rfl
@[simp] theorem takeEvent_matchCount : (s.takeEvent).matchCount = s.matchCount := rfl
@[simp] theorem takeEvent_hdrSizeLo : (s.takeEvent).hdrSizeLo = s.hdrSizeLo := rfl
@[simp] theorem takeEvent_hdrSizeHi : (s.takeEvent).hdrSizeHi = s.hdrSizeHi := rfl
@[simp] theorem takeEvent_tables : (s.takeEvent).tables = s.tables := rfl
@[simp] theorem takeEvent_bitbuf : (s.takeEvent).bitbuf = s.bitbuf := rfl
@[simp] theorem takeEvent_bitcnt : (s.takeEvent).bitcnt = s.bitcnt := rfl
@[simp] theorem takeEvent_za : (s.takeEvent).za = s.za := rfl
@[simp] theorem takeEvent_zb : (s.takeEvent).zb = s.zb := rfl
@[simp] theorem takeEvent_dmem : (s.takeEvent).dmem = s.dmem := rfl
@[simp] theorem takeEvent_inReset : (s.takeEvent).inReset = s.inReset := rfl
@[simp] theorem takeEvent_regRdata : (s.takeEvent).regRdata = s.regRdata := rfl
@[simp] theorem takeEvent_memRdata : (s.takeEvent).memRdata = s.memRdata := rfl
@[simp] theorem takeEvent_inbox : (s.takeEvent).inbox = s.inbox.tail := rfl
@[simp] theorem takeEvent_draws : (s.takeEvent).draws = s.draws := rfl

@[simp] theorem takeRead_dmemLog (v : Word) (k : Nat) : (s.takeRead v k).dmemLog = s.dmemLog := rfl
@[simp] theorem takeRead_eng (v : Word) (k : Nat) : (s.takeRead v k).eng = s.eng := rfl
@[simp] theorem takeRead_latch (v : Word) (k : Nat) : (s.takeRead v k).latch = s.latch := rfl
@[simp] theorem takeRead_ie (v : Word) (k : Nat) : (s.takeRead v k).ie = s.ie := rfl
@[simp] theorem takeRead_done (v : Word) (k : Nat) : (s.takeRead v k).done = s.done := rfl
@[simp] theorem takeRead_ovr (v : Word) (k : Nat) : (s.takeRead v k).ovr = s.ovr := rfl
@[simp] theorem takeRead_cmd (v : Word) (k : Nat) : (s.takeRead v k).cmd = s.cmd := rfl
@[simp] theorem takeRead_srcAddr (v : Word) (k : Nat) : (s.takeRead v k).srcAddr = s.srcAddr := rfl
@[simp] theorem takeRead_srcLen (v : Word) (k : Nat) : (s.takeRead v k).srcLen = s.srcLen := rfl
@[simp] theorem takeRead_dstAddr (v : Word) (k : Nat) : (s.takeRead v k).dstAddr = s.dstAddr := rfl
@[simp] theorem takeRead_dstCap (v : Word) (k : Nat) : (s.takeRead v k).dstCap = s.dstCap := rfl
@[simp] theorem takeRead_outLen (v : Word) (k : Nat) : (s.takeRead v k).outLen = s.outLen := rfl
@[simp] theorem takeRead_errCode (v : Word) (k : Nat) : (s.takeRead v k).errCode = s.errCode := rfl
@[simp] theorem takeRead_errInfo (v : Word) (k : Nat) : (s.takeRead v k).errInfo = s.errInfo := rfl
@[simp] theorem takeRead_crcAcc (v : Word) (k : Nat) : (s.takeRead v k).crcAcc = s.crcAcc := rfl
@[simp] theorem takeRead_adlerAcc (v : Word) (k : Nat) : (s.takeRead v k).adlerAcc = s.adlerAcc := rfl
@[simp] theorem takeRead_litCount (v : Word) (k : Nat) : (s.takeRead v k).litCount = s.litCount := rfl
@[simp] theorem takeRead_matchCount (v : Word) (k : Nat) : (s.takeRead v k).matchCount = s.matchCount := rfl
@[simp] theorem takeRead_hdrSizeLo (v : Word) (k : Nat) : (s.takeRead v k).hdrSizeLo = s.hdrSizeLo := rfl
@[simp] theorem takeRead_hdrSizeHi (v : Word) (k : Nat) : (s.takeRead v k).hdrSizeHi = s.hdrSizeHi := rfl
@[simp] theorem takeRead_tables (v : Word) (k : Nat) : (s.takeRead v k).tables = s.tables := rfl
@[simp] theorem takeRead_bitbuf (v : Word) (k : Nat) : (s.takeRead v k).bitbuf = s.bitbuf := rfl
@[simp] theorem takeRead_bitcnt (v : Word) (k : Nat) : (s.takeRead v k).bitcnt = s.bitcnt := rfl
@[simp] theorem takeRead_za (v : Word) (k : Nat) : (s.takeRead v k).za = s.za := rfl
@[simp] theorem takeRead_zb (v : Word) (k : Nat) : (s.takeRead v k).zb = s.zb := rfl
@[simp] theorem takeRead_dmem (v : Word) (k : Nat) : (s.takeRead v k).dmem = s.dmem := rfl
@[simp] theorem takeRead_inReset (v : Word) (k : Nat) : (s.takeRead v k).inReset = s.inReset := rfl
@[simp] theorem takeRead_regRdata (v : Word) (k : Nat) : (s.takeRead v k).regRdata = s.regRdata := rfl
@[simp] theorem takeRead_memRdata (v : Word) (k : Nat) : (s.takeRead v k).memRdata = v := rfl
@[simp] theorem takeRead_inbox (v : Word) (k : Nat) : (s.takeRead v k).inbox = s.inbox := rfl
@[simp] theorem takeRead_draws (v : Word) (k : Nat) :
    (s.takeRead v k).draws = if s.eng = .busy then s.draws + k else s.draws := rfl

@[simp] theorem doRegRead_dmemLog (off : BitVec 8) : (s.doRegRead off).dmemLog = s.dmemLog := rfl
@[simp] theorem doRegRead_eng (off : BitVec 8) : (s.doRegRead off).eng = s.eng := rfl
@[simp] theorem doRegRead_latch (off : BitVec 8) : (s.doRegRead off).latch = s.latch := rfl
@[simp] theorem doRegRead_ie (off : BitVec 8) : (s.doRegRead off).ie = s.ie := rfl
@[simp] theorem doRegRead_done (off : BitVec 8) : (s.doRegRead off).done = s.done := rfl
@[simp] theorem doRegRead_ovr (off : BitVec 8) : (s.doRegRead off).ovr = s.ovr := rfl
@[simp] theorem doRegRead_cmd (off : BitVec 8) : (s.doRegRead off).cmd = s.cmd := rfl
@[simp] theorem doRegRead_srcAddr (off : BitVec 8) : (s.doRegRead off).srcAddr = s.srcAddr := rfl
@[simp] theorem doRegRead_srcLen (off : BitVec 8) : (s.doRegRead off).srcLen = s.srcLen := rfl
@[simp] theorem doRegRead_dstAddr (off : BitVec 8) : (s.doRegRead off).dstAddr = s.dstAddr := rfl
@[simp] theorem doRegRead_dstCap (off : BitVec 8) : (s.doRegRead off).dstCap = s.dstCap := rfl
@[simp] theorem doRegRead_outLen (off : BitVec 8) : (s.doRegRead off).outLen = s.outLen := rfl
@[simp] theorem doRegRead_errCode (off : BitVec 8) : (s.doRegRead off).errCode = s.errCode := rfl
@[simp] theorem doRegRead_errInfo (off : BitVec 8) : (s.doRegRead off).errInfo = s.errInfo := rfl
@[simp] theorem doRegRead_crcAcc (off : BitVec 8) : (s.doRegRead off).crcAcc = s.crcAcc := rfl
@[simp] theorem doRegRead_adlerAcc (off : BitVec 8) : (s.doRegRead off).adlerAcc = s.adlerAcc := rfl
@[simp] theorem doRegRead_litCount (off : BitVec 8) : (s.doRegRead off).litCount = s.litCount := rfl
@[simp] theorem doRegRead_matchCount (off : BitVec 8) : (s.doRegRead off).matchCount = s.matchCount := rfl
@[simp] theorem doRegRead_hdrSizeLo (off : BitVec 8) : (s.doRegRead off).hdrSizeLo = s.hdrSizeLo := rfl
@[simp] theorem doRegRead_hdrSizeHi (off : BitVec 8) : (s.doRegRead off).hdrSizeHi = s.hdrSizeHi := rfl
@[simp] theorem doRegRead_tables (off : BitVec 8) : (s.doRegRead off).tables = s.tables := rfl
@[simp] theorem doRegRead_bitbuf (off : BitVec 8) : (s.doRegRead off).bitbuf = s.bitbuf := rfl
@[simp] theorem doRegRead_bitcnt (off : BitVec 8) : (s.doRegRead off).bitcnt = s.bitcnt := rfl
@[simp] theorem doRegRead_za (off : BitVec 8) : (s.doRegRead off).za = s.za := rfl
@[simp] theorem doRegRead_zb (off : BitVec 8) : (s.doRegRead off).zb = s.zb := rfl
@[simp] theorem doRegRead_dmem (off : BitVec 8) : (s.doRegRead off).dmem = s.dmem := rfl
@[simp] theorem doRegRead_inReset (off : BitVec 8) : (s.doRegRead off).inReset = s.inReset := rfl
@[simp] theorem doRegRead_regRdata (off : BitVec 8) : (s.doRegRead off).regRdata = s.offsetRead off := rfl
@[simp] theorem doRegRead_memRdata (off : BitVec 8) : (s.doRegRead off).memRdata = s.memRdata := rfl
@[simp] theorem doRegRead_inbox (off : BitVec 8) : (s.doRegRead off).inbox = s.inbox := rfl
@[simp] theorem doRegRead_draws (off : BitVec 8) :
    (s.doRegRead off).draws = if s.eng = .busy then s.draws + 1 else s.draws := rfl

@[simp] theorem accept_dmemSize (w : Word) : (s.accept w).dmemSize = s.dmemSize := rfl
@[simp] theorem complete_dmemSize : (s.complete).dmemSize = s.dmemSize := rfl
@[simp] theorem raiseErr_dmemSize (e : Err) (info : Word) : (s.raiseErr e info).dmemSize = s.dmemSize := rfl
@[simp] theorem ackDone_dmemSize : (s.ackDone).dmemSize = s.dmemSize := rfl
@[simp] theorem clearOutLen_dmemSize : (s.clearOutLen).dmemSize = s.dmemSize := rfl
@[simp] theorem writePrefix_dmemSize (l : List Byte) : (s.writePrefix l).dmemSize = s.dmemSize := rfl
@[simp] theorem drawCounts_dmemSize : (s.drawCounts).dmemSize = s.dmemSize := rfl
@[simp] theorem drawDestination_dmemSize : (s.drawDestination).dmemSize = s.dmemSize := rfl
@[simp] theorem keepTables_dmemSize (b : Block) : (s.keepTables b).dmemSize = s.dmemSize := rfl
@[simp] theorem keepCounts_dmemSize (b : Block) : (s.keepCounts b).dmemSize = s.dmemSize := rfl
@[simp] theorem resetRegisters_dmemSize : (s.resetRegisters).dmemSize = s.dmemSize := rfl
@[simp] theorem takeEvent_dmemSize : (s.takeEvent).dmemSize = s.dmemSize := rfl
@[simp] theorem takeRead_dmemSize (v : Word) (k : Nat) : (s.takeRead v k).dmemSize = s.dmemSize := rfl
@[simp] theorem doRegRead_dmemSize (off : BitVec 8) : (s.doRegRead off).dmemSize = s.dmemSize := rfl

end Sys2Proof.Machine.State
end

