-- ==== Sys2Proof/Laws/Ops.lean ====
section
/-! SUPPORT. What the shared operations of the commands do: the prologue's checks in the spec's words, the common
prologue, the bounded output write and the two completions. -/

namespace Sys2Proof.Machine

namespace State

variable (s : State)

@[simp] theorem srcInRange_iff : s.srcInRange = true ↔ s.SrcOk := by simp [srcInRange, SrcOk]

@[simp] theorem dstInRange_iff : s.dstInRange = true ↔ s.DstOk := by simp [dstInRange, DstOk]

theorem regionsOverlap_iff : s.regionsOverlap = true ↔ ¬ s.Apart := by
  simp only [regionsOverlap, Apart, Bool.and_eq_true, decide_eq_true_eq]
  omega

theorem prologueError_checksum_of_srcOk (h : s.SrcOk) : s.prologueError .checksum = none := by
  have h' := (srcInRange_iff s).2 h
  simp [prologueError, h']

theorem prologueError_checksum_of_not_srcOk (h : ¬ s.SrcOk) : s.prologueError .checksum = some (.range, 0) := by
  have h' : s.srcInRange = false := Bool.eq_false_iff.2 fun e => h ((srcInRange_iff s).1 e)
  simp [prologueError, h']

theorem prologueError_transform_of_not_srcOk (h : ¬ s.SrcOk) : s.prologueError .transform = some (.range, 0) := by
  have h' : s.srcInRange = false := Bool.eq_false_iff.2 fun e => h ((srcInRange_iff s).1 e)
  simp [prologueError, h']

theorem prologueError_transform_of_not_dstOk (h : s.SrcOk) (h2 : ¬ s.DstOk) :
    s.prologueError .transform = some (.range, 1) := by
  have h1' := (srcInRange_iff s).2 h
  have h2' : s.dstInRange = false := Bool.eq_false_iff.2 fun e => h2 ((dstInRange_iff s).1 e)
  simp [prologueError, h1', h2']

theorem prologueError_transform_of_not_apart (h : s.SrcOk) (h2 : s.DstOk) (h3 : ¬ s.Apart) :
    s.prologueError .transform = some (.overlap, 0) := by
  have h1' := (srcInRange_iff s).2 h
  have h2' := (dstInRange_iff s).2 h2
  have h3' := (regionsOverlap_iff s).2 h3
  simp [prologueError, h1', h2', h3']

theorem prologueError_transform_of_regionsOk (h : s.RegionsOk) : s.prologueError .transform = none := by
  have h1' := (srcInRange_iff s).2 h.1
  have h2' := (dstInRange_iff s).2 h.2.1
  have h3' : s.regionsOverlap = false := Bool.eq_false_iff.2 fun e => (regionsOverlap_iff s).1 e h.2.2
  simp [prologueError, h1', h2', h3']

/-- The prologue of a transform command in the spec's words: one of its three errors, or sound regions. -/
theorem prologueError_transform_cases :
    (¬ s.SrcOk ∧ s.prologueError .transform = some (.range, 0)) ∨
    (s.SrcOk ∧ ¬ s.DstOk ∧ s.prologueError .transform = some (.range, 1)) ∨
    (s.SrcOk ∧ s.DstOk ∧ ¬ s.Apart ∧ s.prologueError .transform = some (.overlap, 0)) ∨
    (s.RegionsOk ∧ s.prologueError .transform = none) := by
  by_cases h1 : s.SrcOk
  · by_cases h2 : s.DstOk
    · by_cases h3 : s.Apart
      · exact .inr (.inr (.inr ⟨⟨h1, h2, h3⟩, s.prologueError_transform_of_regionsOk ⟨h1, h2, h3⟩⟩))
      · exact .inr (.inr (.inl ⟨h1, h2, h3, s.prologueError_transform_of_not_apart h1 h2 h3⟩))
    · exact .inr (.inl ⟨h1, h2, s.prologueError_transform_of_not_dstOk h1 h2⟩)
  · exact .inl ⟨h1, s.prologueError_transform_of_not_srcOk h1⟩

theorem prologueError_transform_eq_none_iff : s.prologueError .transform = none ↔ s.RegionsOk := by
  constructor
  · intro h
    rcases s.prologueError_transform_cases with ⟨_, e⟩ | ⟨_, _, e⟩ | ⟨_, _, _, e⟩ | ⟨hr, _⟩
    · rw [h] at e; cases e
    · rw [h] at e; cases e
    · rw [h] at e; cases e
    · exact hr
  · exact s.prologueError_transform_of_regionsOk

@[simp] theorem length_srcBytes : s.srcBytes.length = s.latch.n.toNat := Memory.length_readBytes _ _ _

@[simp] theorem srcBytes_clearOutLen : s.clearOutLen.srcBytes = s.srcBytes := rfl

end State

/-- The common prologue of a transform command: a refusal of its regions is an error completion after OUT_LEN = 0;
with sound regions the command's rule runs. -/
theorem withPrologue_transform_cases (onErr rule : State → State) (s : State) :
    (s.RegionsOk ∧ withPrologue .transform onErr rule s = rule s.clearOutLen) ∨
    (¬ s.RegionsOk ∧ ∃ (e : Err) (info : Word), (e = .range ∨ e = .overlap) ∧
      withPrologue .transform onErr rule s = (onErr s.clearOutLen).raiseErr e info) := by
  rcases s.prologueError_transform_cases with ⟨h, e⟩ | ⟨_, h, e⟩ | ⟨_, _, h, e⟩ | ⟨hr, e⟩
  · exact .inr ⟨fun hr => h hr.1, .range, 0, .inl rfl, by simp [withPrologue, e]⟩
  · exact .inr ⟨fun hr => h hr.2.1, .range, 1, .inl rfl, by simp [withPrologue, e]⟩
  · exact .inr ⟨fun hr => h hr.2.2, .overlap, 0, .inr rfl, by simp [withPrologue, e]⟩
  · exact .inl ⟨hr, by simp [withPrologue, e]⟩

theorem withPrologue_transform_of_regionsOk {onErr rule : State → State} {s : State} (h : s.RegionsOk) :
    withPrologue .transform onErr rule s = rule s.clearOutLen := by
  simp [withPrologue, s.prologueError_transform_of_regionsOk h]

theorem withPrologue_checksum_of_srcOk {onErr rule : State → State} {s : State} (h : s.SrcOk) :
    withPrologue .checksum onErr rule s = rule s.clearOutLen := by
  simp [withPrologue, s.prologueError_checksum_of_srcOk h]

theorem withPrologue_checksum_of_not_srcOk {onErr rule : State → State} {s : State} (h : ¬ s.SrcOk) :
    withPrologue .checksum onErr rule s = (onErr s.clearOutLen).raiseErr .range 0 := by
  simp [withPrologue, s.prologueError_checksum_of_not_srcOk h]

/-- The two ends of an output stream. -/
theorem finishStream_of_le {s : State} {l : List Byte} {onOk onErr : State → State}
    (h : l.length ≤ s.latch.cap.toNat) : s.finishStream l onOk onErr = (onOk (s.writePrefix l)).complete := by
  simp [State.finishStream, State.fits, h]

theorem finishStream_of_lt {s : State} {l : List Byte} {onOk onErr : State → State}
    (h : s.latch.cap.toNat < l.length) :
    s.finishStream l onOk onErr = (onErr (s.writePrefix l)).raiseErr .dstFull s.latch.cap := by
  simp [State.finishStream, State.fits, Nat.not_le.2 h]

@[simp] theorem length_freeBytes (d k : Nat) : (freeBytes d k).length = k := by
  induction k generalizing d with
  | zero => rfl
  | succ k ih => simp [freeBytes, ih]

/-- No error code is a reserved one but that of INVALID_OFFSET, which no command raises. -/
theorem code_legal {e : Err} (h : e ≠ .invalidOffset) : e.code ∈ legalErrCodes := by
  cases e <;> first | decide | exact absurd rfl h

theorem code_ne_zero (e : Err) : e.code ≠ 0 := by cases e <;> decide

end Sys2Proof.Machine
end

