-- ==== Sys2Proof/Laws/Deflate.lean ====
section
/-! SUPPORT. The match finder's tables keep their canonical form, and the bit packer keeps at most seven bits. The rules of
`deflate` and `zlib` by how their stream ends. -/

namespace Sys2Proof.Machine

/-- The form of the tables: keys rising, below 32768. -/
abbrev TablesForm (t : MatchTables) : Prop :=
  (keysRise t.head ∧ ∀ c ∈ t.head, c.1 < Config.tableSize) ∧ (keysRise t.prev ∧ ∀ c ∈ t.prev, c.1 < Config.tableSize)

theorem hash3_lt (b0 b1 b2 : Byte) : hash3 b0 b1 b2 < Config.tableSize := by
  unfold hash3
  exact Nat.lt_of_le_of_lt Nat.and_le_right (by decide)

theorem insertPos_form {input : List Byte} {t : MatchTables} (q : Nat) (h : TablesForm t) :
    TablesForm (insertPos input t q) := by
  unfold insertPos
  split
  · exact ⟨⟨keysRise_listSet _ _ h.1.1, keyBound_listSet (hash3_lt _ _ _) h.1.2⟩,
      ⟨keysRise_listPut _ _ h.2.1, keyBound_listPut (Nat.mod_lt _ (by decide)) h.2.2⟩⟩
  · exact h

theorem insertRange_form {input : List Byte} {t : MatchTables} (p k : Nat) (h : TablesForm t) :
    TablesForm (insertRange input t p k) := by
  induction k generalizing p t with
  | zero => exact h
  | succ k ih => exact ih (p + 1) (insertPos_form p h)

theorem initTables_form : TablesForm initTables := by simp [TablesForm, initTables, keysRise]

theorem parseFrom_form {input : List Byte} (fuel p : Nat) {t : MatchTables} (h : TablesForm t) :
    TablesForm (parseFrom input fuel p t).2 := by
  induction fuel generalizing p t with
  | zero => exact h
  | succ fuel ih =>
    simp only [parseFrom]
    split
    · split
      · exact ih _ (insertRange_form _ _ h)
      · exact ih _ (insertPos_form _ h)
    · exact h

theorem parse_form (input : List Byte) : TablesForm (parse input).2 := parseFrom_form _ _ initTables_form

theorem putBit_bitcnt {pk : Packer} (b : Nat) (h : pk.bitcnt < 8) : (putBit pk b).bitcnt < 8 := by
  unfold putBit
  split
  · simp
  · simp only; omega

theorem putBits_bitcnt {pk : Packer} (v k : Nat) (h : pk.bitcnt < 8) : (putBits pk v k).bitcnt < 8 := by
  induction k generalizing pk v with
  | zero => exact h
  | succ k ih => exact ih _ (putBit_bitcnt v h)

theorem putBits_append (pk : Packer) (v j k : Nat) :
    putBits pk v (j + k) = putBits (putBits pk v j) (v / 2 ^ j) k := by
  induction j generalizing pk v with
  | zero => simp [putBits]
  | succ j ih =>
    rw [show j + 1 + k = (j + k) + 1 by omega]
    simp only [putBits, ih, Nat.div_div_eq_div_mul, Nat.pow_succ, Nat.mul_comm (2 ^ j) 2]

theorem emitSym_bitcnt {pk : Packer} (y : Sym) (h : pk.bitcnt < 8) : (emitSym pk y).bitcnt < 8 := by
  cases y with
  | lit b => exact putBits_bitcnt _ _ h
  | pair len dist => exact putBits_bitcnt _ _ (putBits_bitcnt _ _ (putBits_bitcnt _ _ (putBits_bitcnt _ _ h)))

theorem flushToByte_bitcnt {pk : Packer} : (flushToByte pk).bitcnt = 0 := by
  unfold flushToByte
  split
  · rfl
  · omega

theorem packBlock_bitcnt (syms : List Sym) : (packBlock syms).bitcnt = 0 := flushToByte_bitcnt

/-! ### The block -/

theorem deflateBlock_bytes (input : List Byte) : (deflateBlock input).bytes = (packBlock (parse input).1).out := by
  simp only [deflateBlock]

theorem deflateBlock_tables (input : List Byte) : (deflateBlock input).tables = (parse input).2 := by
  simp only [deflateBlock]

theorem deflateBlock_packer (input : List Byte) : (deflateBlock input).packer = packBlock (parse input).1 := by
  simp only [deflateBlock]

theorem deflateBlock_form (input : List Byte) : TablesForm (deflateBlock input).tables := by
  rw [deflateBlock_tables]; exact parse_form input

theorem deflateBlock_bitcnt (input : List Byte) : (deflateBlock input).packer.bitcnt = 0 := by
  rw [deflateBlock_packer, packBlock_bitcnt]

/-! ### The rules -/

/-- The rule of `deflate` when its block fits. -/
theorem deflateRule_of_le {s : State} (h : (deflateBlock s.srcBytes).bytes.length ≤ s.latch.cap.toNat) :
    deflateRule s =
      (((s.keepTables (deflateBlock s.srcBytes)).writePrefix (deflateBlock s.srcBytes).bytes).keepCounts
        (deflateBlock s.srcBytes)).complete := by
  unfold deflateRule
  exact finishStream_of_le h

/-- The rule of `deflate` when its block does not fit. -/
theorem deflateRule_of_lt {s : State} (h : s.latch.cap.toNat < (deflateBlock s.srcBytes).bytes.length) :
    deflateRule s =
      (((s.keepTables (deflateBlock s.srcBytes)).writePrefix (deflateBlock s.srcBytes).bytes).drawCounts).raiseErr
        .dstFull s.latch.cap := by
  unfold deflateRule
  exact finishStream_of_lt h

/-- The state in which `zlib` writes its stream: the block's internal state and the Adler pair are kept. -/
def zlibKept (s : State) : State :=
  { s.keepTables (deflateBlock s.srcBytes) with
    za := (adlerFeed adlerInit s.srcBytes).1
    zb := (adlerFeed adlerInit s.srcBytes).2 }

theorem zlibKept_form (s : State) : TablesForm (zlibKept s).tables := by
  simp only [zlibKept, State.keepTables_tables]
  exact deflateBlock_form s.srcBytes

theorem zlibKept_bitcnt (s : State) : (zlibKept s).bitcnt = 0 := by
  simp only [zlibKept, State.keepTables_bitcnt]
  exact deflateBlock_bitcnt s.srcBytes

theorem zlibKept_lt (s : State) : (zlibKept s).za < Config.adlerMod ∧ (zlibKept s).zb < Config.adlerMod :=
  adlerFeed_lt (ab := adlerInit) s.srcBytes (by decide)

/-- The stream of `zlib`. -/
def zlibOut (s : State) : List Byte :=
  zlibStream (deflateBlock s.srcBytes) (adlerPack (adlerFeed adlerInit s.srcBytes))

/-- The rule of `zlib` when its stream fits. -/
theorem zlibRule_of_le {s : State} (h : (zlibOut s).length ≤ s.latch.cap.toNat) :
    zlibRule s =
      ({ ((zlibKept s).writePrefix (zlibOut s)).keepCounts (deflateBlock s.srcBytes) with
        adlerAcc := adlerPack (adlerFeed adlerInit s.srcBytes) } : State).complete := by
  unfold zlibRule
  exact finishStream_of_le h

/-- The rule of `zlib` when its stream does not fit. -/
theorem zlibRule_of_lt {s : State} (h : s.latch.cap.toNat < (zlibOut s).length) :
    zlibRule s = (((zlibKept s).writePrefix (zlibOut s)).drawCounts).raiseErr .dstFull s.latch.cap := by
  unfold zlibRule
  exact finishStream_of_lt h

/-- The length of a zlib stream (43_zlib.md R260). -/
theorem length_zlibStream (b : Block) (adl : Word) : (zlibStream b adl).length = b.bytes.length + 6 := by
  simp [zlibStream, Config.zlibHeader, be32]

end Sys2Proof.Machine
end

