-- ==== Sys2Proof/Laws/PerInstr.lean ====
section
/-! SUPPORT. Statements made of every command, one lemma per constructor. -/

namespace Sys2Proof.Laws.Encoding

open Sys2Proof

/-- A command is well-formed and its word has the fields of the format CMD32: `op` in bits 7:0, `rsv` 0
(30_encoding.md R110, R111). -/
def Statement (i : Instr) : Prop :=
  i.wellFormed = true ∧ opField (encode i) = i.op ∧ rsvField (encode i) = 0

theorem nop : Statement .nop := ⟨rfl, by decide, by decide⟩

theorem rleEnc : Statement .rleEnc := ⟨rfl, by decide, by decide⟩

theorem rleDec : Statement .rleDec := ⟨rfl, by decide, by decide⟩

theorem deflate : Statement .deflate := ⟨rfl, by decide, by decide⟩

theorem zlib : Statement .zlib := ⟨rfl, by decide, by decide⟩

theorem crc32Start : Statement .crc32Start := ⟨rfl, by decide, by decide⟩

theorem crc32Cont : Statement .crc32Cont := ⟨rfl, by decide, by decide⟩

theorem adler32Start : Statement .adler32Start := ⟨rfl, by decide, by decide⟩

theorem adler32Cont : Statement .adler32Cont := ⟨rfl, by decide, by decide⟩

end Sys2Proof.Laws.Encoding
end

