-- ==== Sys2Proof/Laws/Rle.lean ====
section
/-! SUPPORT. The RLE encoder's runs and the decoder's bound: it never produces more bytes than the capacity. -/

namespace Sys2Proof.Machine

@[simp] theorem length_leBytes (k v : Nat) : (leBytes k v).length = k := by
  induction k generalizing v with
  | zero => rfl
  | succ k ih => simp [leBytes, ih]

/-- Reading little-endian bytes back. -/
theorem ofLeBytes_leBytes (k v : Nat) : ofLeBytes (leBytes k v) = v % 256 ^ k := by
  induction k generalizing v with
  | zero => simp [leBytes, ofLeBytes, Nat.mod_one]
  | succ k ih =>
    simp only [leBytes, ofLeBytes, ih, BitVec.toNat_ofNat]
    rw [show 256 ^ (k + 1) = 256 * 256 ^ k by rw [Nat.pow_succ, Nat.mul_comm], Nat.mod_mul]

theorem runMore_le (v : Byte) (k : Nat) (l : List Byte) : runMore v k l ≤ k ∧ runMore v k l ≤ l.length := by
  induction k generalizing l with
  | zero => simp [runMore]
  | succ k ih =>
    cases l with
    | nil => simp [runMore]
    | cons b l =>
      simp only [runMore, List.length_cons]
      split
      · have := ih l; omega
      · omega

/-- The bytes a run covers are all its value. -/
theorem take_runMore (v : Byte) (k : Nat) (l : List Byte) :
    l.take (runMore v k l) = List.replicate (runMore v k l) v := by
  induction k generalizing l with
  | zero => simp [runMore]
  | succ k ih =>
    cases l with
    | nil => simp [runMore]
    | cons b l =>
      simp only [runMore]
      split
      · rename_i h
        subst h
        simp [List.replicate_succ, ih l]
      · simp

/-- The decoder's loop produces at most the bytes the capacity has left, and no error of its own is reserved. -/
theorem rleExpand_bound (n size cap : Nat) (l : List Byte) (k produced : Nat) (h : produced ≤ cap) :
    (rleExpand n size cap l k produced).1.length ≤ cap - produced ∧
    ∀ e info, (rleExpand n size cap l k produced).2 = some (e, info) → e ≠ .invalidOffset := by
  fun_induction rleExpand n size cap l k produced with
  | case1 => simp
  | case2 => simp
  | case3 => simp
  | case4 => simp
  | case5 => simp
  | case6 k produced count v rest h0 h1 h2 ih =>
    obtain ⟨ih1, ih2⟩ := ih (by omega)
    refine ⟨?_, ih2⟩
    simp only [emitRun, List.length_append, List.length_replicate]
    omega

/-- The decoder never produces more than the capacity. -/
theorem rleDecode_bound (l : List Byte) (cap : Nat) :
    (rleDecode l cap).out.length ≤ cap ∧ ∀ e info, (rleDecode l cap).err = some (e, info) → e ≠ .invalidOffset := by
  unfold rleDecode
  split
  · refine ⟨by simp, fun e info h => ?_⟩
    simp only [Option.some.injEq, Prod.mk.injEq] at h
    rw [← h.1]; decide
  · split
    · refine ⟨by simp, fun e info h => ?_⟩
      simp only [Option.some.injEq, Prod.mk.injEq] at h
      rw [← h.1]; decide
    · exact rleExpand_bound _ _ _ _ _ 0 (Nat.zero_le _)

end Sys2Proof.Machine
end

