-- ==== Sys2Proof/Laws/Step.lean ====
section
/-! SUPPORT. What one step can do: which agent moves, what a host step does to the engine's state and to DONE, what a
reset does to DMEM, and when a host write is barred. -/

namespace Sys2Proof.Machine

/-! ### Which agent moves -/

theorem step_of_engineNext {s : State} (h : s.EngineNext) : step s = engineStep s.takeEvent := by
  unfold step
  rcases h with h | h
  · have : s.takeEvent = s := by cases s; simp_all [State.takeEvent]
    rw [this]; simp [h]
  · cases hi : s.inbox with
    | nil => simp [hi] at h
    | cons a l => simp [hi] at h; subst h; rfl

theorem step_of_hostNext {s : State} {op : HostOp} (h : s.HostNext op) : step s = hostStep op s.takeEvent := by
  unfold step
  cases hi : s.inbox with
  | nil => simp [State.HostNext, hi] at h
  | cons a l => simp [State.HostNext, hi] at h; subst h; rfl

/-- In every state either the engine's turn or one host operation is next. -/
theorem engineNext_or_hostNext (s : State) : s.EngineNext ∨ ∃ op, s.HostNext op := by
  cases h : s.inbox with
  | nil => exact .inl (.inl h)
  | cons e l =>
    cases e with
    | engine => exact .inl (.inr (by simp [h]))
    | host op => exact .inr ⟨op, by simp [State.HostNext, h]⟩

theorem hostNext_unique {s : State} {a b : HostOp} (h : s.HostNext a) (h' : s.HostNext b) : a = b := by
  simp only [State.HostNext] at h h'; rw [h] at h'; simpa using h'

theorem not_engineNext_of_hostNext {s : State} {a : HostOp} (h : s.HostNext a) : ¬ s.EngineNext := by
  simp only [State.HostNext] at h
  rintro (h' | h')
  · simp [h'] at h
  · rw [h] at h'; simp at h'

/-- A step in the words of the two agents. -/
theorem step_cases {s t : State} (h : step s = .next t) :
    (s.EngineNext ∧ engineStep s.takeEvent = .next t) ∨
    ∃ op, s.HostNext op ∧ hostStep op s.takeEvent = .next t := by
  rcases engineNext_or_hostNext s with he | ⟨op, hn⟩
  · exact .inl ⟨he, by rw [← step_of_engineNext he]; exact h⟩
  · exact .inr ⟨op, hn, by rw [← step_of_hostNext hn]; exact h⟩

/-! ### Registers -/

theorem regAt_offset (r : Reg) : regAt r.offset = some r := by cases r <;> decide

theorem offset_aligned (r : Reg) : r.offset.toNat % 4 = 0 := by cases r <;> decide

theorem eq_offset_of_regAt {off : BitVec 8} {r : Reg} (h : regAt off = some r) : off = r.offset := by
  revert off r; unfold regAt regMap; intro off r h
  simp only [List.lookup] at h
  repeat' split at h
  all_goals first
    | (simp at h; done)
    | (simp only [Option.some.injEq] at h; subst h; rename_i hh; exact eq_of_beq hh)

theorem regAt_reserved {off : BitVec 8} (h : 0x4C ≤ off.toNat) : regAt off = none := by
  cases e : regAt off with
  | none => rfl
  | some r =>
    have := eq_offset_of_regAt e
    subst this
    exact absurd h (by cases r <;> decide)

/-- The bits of the word STATUS. -/
theorem statusWith_bits (s : State) (e : Bool) :
    (statusWith s e).getLsbD 0 = s.busyFlag ∧ (statusWith s e).getLsbD 1 = s.done ∧
    (statusWith s e).getLsbD 2 = e ∧ (statusWith s e).getLsbD 3 = s.ovr ∧
    ∀ k, 4 ≤ k → (statusWith s e).getLsbD k = false := by
  unfold statusWith flagBit
  refine ⟨?_, ?_, ?_, ?_, ?_⟩
  iterate 4 cases s.busyFlag <;> cases s.done <;> cases e <;> cases s.ovr <;> decide
  intro k hk
  have low : ∀ x : Word, x.toNat < 16 → x.getLsbD k = false := by
    intro x hx
    rw [← BitVec.testBit_toNat]
    apply Nat.testBit_lt_two_pow
    calc x.toNat < 2 ^ 4 := hx
      _ ≤ 2 ^ k := Nat.pow_le_pow_right (by omega) hk
  apply low
  cases s.busyFlag <;> cases s.done <;> cases e <;> cases s.ovr <;> decide

/-! ### Barred writes -/

theorem inRegion_iff (b l : Word) (a : Nat) : inRegion b l a = true ↔ b.toNat ≤ a ∧ a < b.toNat + l.toNat := by
  simp [inRegion]

theorem writeBarred_iff (s : State) (a : Nat) :
    s.writeBarred a = true ↔
      s.eng = .busy ∧ ((s.latch.src.toNat ≤ a ∧ a < s.latch.src.toNat + s.latch.n.toNat) ∨
        (wordClass s.latch.cmd = .transform ∧ s.latch.dst.toNat ≤ a ∧ a < s.latch.dst.toNat + s.latch.cap.toNat)) := by
  simp [State.writeBarred, State.inBusyDestination, inRegion]; tauto

theorem writeFree_one_iff (s : State) (a : Nat) : s.WriteFree a 1 ↔ s.writeBarred a = false := by
  rw [← Bool.not_eq_true, writeBarred_iff]
  constructor
  · rintro h ⟨hb, h1 | h1⟩
    · exact (h hb).1 a le_rfl (by omega) h1
    · exact (h hb).2 h1.1 a le_rfl (by omega) h1.2
  · intro h hb
    refine ⟨fun x h1 h2 h3 => h ⟨hb, ?_⟩, fun ht x h1 h2 h3 => h ⟨hb, ?_⟩⟩
    · obtain rfl : x = a := by omega
      exact .inl h3
    · obtain rfl : x = a := by omega
      exact .inr ⟨ht, h3⟩

theorem writeFree_add {s : State} {a j k : Nat} : s.WriteFree a (j + k) ↔ s.WriteFree a j ∧ s.WriteFree (a + j) k := by
  constructor
  · intro h
    exact ⟨fun hb => ⟨fun x h1 h2 => (h hb).1 x h1 (by omega), fun ht x h1 h2 => (h hb).2 ht x h1 (by omega)⟩,
      fun hb => ⟨fun x h1 h2 => (h hb).1 x (by omega) (by omega), fun ht x h1 h2 => (h hb).2 ht x (by omega) (by omega)⟩⟩
  · rintro ⟨h1, h2⟩ hb
    refine ⟨fun x a1 a2 => ?_, fun ht x a1 a2 => ?_⟩
    · rcases Nat.lt_or_ge x (a + j) with hx | hx
      · exact (h1 hb).1 x a1 hx
      · exact (h2 hb).1 x hx (by omega)
    · rcases Nat.lt_or_ge x (a + j) with hx | hx
      · exact (h1 hb).2 ht x a1 hx
      · exact (h2 hb).2 ht x hx (by omega)

theorem writeFree_four_iff (s : State) (a : Nat) :
    s.WriteFree a 4 ↔
      (s.writeBarred a || s.writeBarred (a + 1) || s.writeBarred (a + 2) || s.writeBarred (a + 3)) = false := by
  rw [show (4 : Nat) = 1 + 1 + 1 + 1 from rfl, writeFree_add, writeFree_add, writeFree_add]
  simp only [Bool.or_eq_false_iff, writeFree_one_iff]

@[simp] theorem length_le32 (w : Word) : (le32 w).length = 4 := rfl

/-! ### Resets -/

theorem abort_of_idle {s : State} (h : s.eng = .idle) : s.abort = s := by
  simp [State.abort, State.abortsTransform, h]

theorem abortsTransform_iff (s : State) :
    s.abortsTransform = true ↔ s.eng = .busy ∧ wordClass s.latch.cmd = .transform ∧ s.RegionsOk := by
  simp [State.abortsTransform, State.prologueError_transform_eq_none_iff, and_assoc]

/-- An abort changes DMEM in the destination region of a transform command with sound regions, and the draw counter;
nothing else. -/
theorem abort_cases (s : State) :
    s.abort = s ∨
    (s.RegionsOk ∧ ∃ (l : List Byte) (d : Nat), l.length = s.latch.cap.toNat ∧
      s.abort = { s with dmem := Memory.writeBytes s.dmem s.latch.dst.toNat l, draws := d }) := by
  by_cases h : s.abortsTransform = true
  · exact .inr ⟨((abortsTransform_iff s).1 h).2.2, freeBytes s.draws s.latch.cap.toNat, s.draws + s.latch.cap.toNat,
      length_freeBytes _ _, by simp [State.abort, h, State.drawDestination]⟩
  · exact .inl (by simp [State.abort, h])

@[simp] theorem applyReset_eng (s : State) : s.applyReset.eng = .idle := by simp [State.applyReset]

@[simp] theorem applyReset_done (s : State) : s.applyReset.done = false := by simp [State.applyReset]

/-! ### Host steps -/

/-- What a host step can do, by the field it acts on: a read port and the draw counter (and, for a polling `wait`, the
inbox); DMEM in the DMEM's bounds; a register; or a reset. -/
theorem hostStep_cases {op : HostOp} {s t : State} (h : hostStep op s = .next t) :
    (∃ (v w : Word) (d : Nat) (q : List Event), s.inReset = false ∧
      t = { s with regRdata := v, memRdata := w, draws := d, inbox := q }) ∨
    (∃ (a : Nat) (l : List Byte), s.inReset = false ∧ a + l.length ≤ s.dmemSize ∧
      t = { s with dmem := Memory.writeBytes s.dmem a l }) ∨
    (∃ (r : Reg) (v : Word), op = .regWrite .word r.offset v ∧ s.inReset = false ∧ t = s.regWrite r v) ∨
    (op = .assertReset ∧ t = s.assertReset) ∨
    (op = .releaseReset ∧ t = s.releaseReset) ∨
    (s.inReset = false ∧ t = s) := by
  cases op with
  | regWrite w off v =>
    simp only [hostStep, whenOutOfReset, hostRegWrite] at h
    split at h
    · cases h
    · rename_i hr
      have hr' : s.inReset = false := by simpa using hr
      split at h
      · rename_i hd
        cases h
        have hw : w = .word := by cases w <;> simp [regAccessDefined] at hd ⊢
        subst hw
        simp only [State.doRegWrite]
        cases hra : regAt off with
        | none => exact .inr (.inr (.inr (.inr (.inr ⟨hr', rfl⟩))))
        | some r =>
          have := eq_offset_of_regAt hra
          subst this
          exact .inr (.inr (.inl ⟨r, v, rfl, hr', rfl⟩))
      · cases h
  | regRead w off =>
    simp only [hostStep, whenOutOfReset, hostRegRead] at h
    split at h
    · cases h
    · rename_i hr
      split at h <;> cases h
      exact .inl ⟨_, s.memRdata, _, s.inbox, by simpa using hr, rfl⟩
  | byteWrite a b =>
    simp only [hostStep, whenOutOfReset, doByteWrite] at h
    split at h
    · cases h
    · rename_i hr
      split at h
      · rename_i hin
        split at h <;> cases h
        exact .inr (.inl ⟨a, [b], by simpa using hr, by simpa [State.hostInRange] using hin, rfl⟩)
      · cases h
  | byteRead a =>
    simp only [hostStep, whenOutOfReset, doByteRead] at h
    split at h
    · cases h
    · rename_i hr
      split at h <;> cases h
      exact .inl ⟨s.regRdata, _, _, s.inbox, by simpa using hr, rfl⟩
  | wordWrite a b =>
    simp only [hostStep, whenOutOfReset, doWordWrite] at h
    split at h
    · cases h
    · rename_i hr
      split at h
      · rename_i hin
        split at h
        · split at h <;> cases h
          exact .inr (.inl ⟨a, le32 b, by simpa using hr, by simpa [State.hostInRange] using hin, rfl⟩)
        · cases h
      · cases h
  | wordRead a =>
    simp only [hostStep, whenOutOfReset, doWordRead] at h
    split at h
    · cases h
    · rename_i hr
      split at h
      · split at h <;> cases h
        exact .inl ⟨s.regRdata, _, _, s.inbox, by simpa using hr, rfl⟩
      · cases h
  | wait =>
    simp only [hostStep, whenOutOfReset] at h
    split at h <;> cases h
    rename_i hr
    simp only [State.pollStatus]
    split
    · exact .inl ⟨_, s.memRdata, _, _, by simpa using hr, rfl⟩
    · exact .inl ⟨_, s.memRdata, _, s.inbox, by simpa using hr, rfl⟩
  | assertReset => cases h; exact .inr (.inr (.inr (.inl ⟨rfl, rfl⟩)))
  | releaseReset => cases h; exact .inr (.inr (.inr (.inr (.inl ⟨rfl, rfl⟩))))

end Sys2Proof.Machine
end

