-- ==== Sys2Proof/Tests/Slice0.lean ====
section
/-! SUPPORT. The tests: command words, ill-formed terms that the check refuses, one step per command on vectors of
95_test_vectors.md, and a witness for the hypotheses of every statement that has any. -/

namespace Sys2Proof.Tests

open Sys2Proof Sys2Proof.Machine Sys2Proof.Reference

/-! ### Helpers -/

/-- The state after reset with input pending. -/
def idleWith (q : List Event) : State := { State.reset with inbox := q }

/-- A command word accepted with the given parameters and source bytes, on a DMEM of 1024 bytes. -/
def busyWith (w : Word) (src n dst cap : Word) (bytes : List Byte) (q : List Event) : State :=
  { State.reset with
    dmemLog := 6
    eng := .busy
    latch := { cmd := w, src := src, n := n, dst := dst, cap := cap }
    cmd := w
    srcAddr := src
    srcLen := n
    dstAddr := dst
    dstCap := cap
    dmem := Memory.writeBytes [] src.toNat bytes
    inbox := q }

/-- What a test looks at in the state a step leaves. -/
def result (o : Host.Outcome State Fault Refusal) (f : State → List Nat) : List Nat :=
  match o with
  | .next t => f t
  | .fault _ => []
  | .refused _ => []

/-- OUT_LEN, ERR_CODE, ERR_INFO and the output bytes. -/
def outputOf (t : State) : List Nat :=
  t.outLen.toNat :: t.errCode.toNat :: t.errInfo.toNat ::
    (Memory.readBytes t.dmem t.latch.dst.toNat t.outLen.toNat).map BitVec.toNat

/-- The bytes of "AAABBC". -/
def aaabbc : List Byte := [0x41, 0x41, 0x41, 0x42, 0x42, 0x43]

/-- An RLE header with a small size. -/
def header (k : Byte) : List Byte := [0x52, 0x4C, 0x45, 0x46, k, 0, 0, 0, 0, 0, 0, 0]

/-! ### Command words (30_encoding.md R110, R113, R114) -/

theorem test_decode_nop : decode 0b00000000000000000000000000000000#32 = .ok .nop := by decide
theorem test_decode_rleEnc : decode 0b00000000000000000000000000000001#32 = .ok .rleEnc := by decide
theorem test_decode_rleDec : decode 0b00000000000000000000000000000010#32 = .ok .rleDec := by decide
theorem test_decode_deflate : decode 0b00000000000000000000000000000101#32 = .ok .deflate := by decide
theorem test_decode_zlib : decode 0b00000000000000000000000000000110#32 = .ok .zlib := by decide
theorem test_decode_crc32Start : decode 0b00000000000000000000000000001000#32 = .ok .crc32Start := by decide
theorem test_decode_crc32Cont : decode 0b00000000000000000000000000001001#32 = .ok .crc32Cont := by decide
theorem test_decode_adler32Start : decode 0b00000000000000000000000000001010#32 = .ok .adler32Start := by decide
theorem test_decode_adler32Cont : decode 0b00000000000000000000000000001011#32 = .ok .adler32Cont := by decide

theorem test_decode_unassigned_refused :
    decode 0x03 = .error .unassignedOp ∧ decode 0x04 = .error .unassignedOp ∧ decode 0x07 = .error .unassignedOp ∧
    decode 0x0C = .error .unassignedOp ∧ decode 0xFF = .error .unassignedOp := by decide

theorem test_decode_reserved_refused :
    decode 0x105 = .error .reservedBitsSet ∧ decode 0x80000000 = .error .reservedBitsSet := by decide

theorem test_table_word : decodeTableWord 32 5 = some .deflate ∧ decodeTableWord 32 3 = none := by decide

/-! ### Ill-formed terms are refused -/

theorem test_wellFormed_regAccess :
    (HostOp.regWrite .word 0x0C 1).wellFormed = true ∧ (HostOp.regWrite .byte 0x0C 1).wellFormed = false ∧
    (HostOp.regRead .half 0x0C).wellFormed = false ∧ (HostOp.regRead .word 0x0E).wellFormed = false := by decide

theorem test_wellFormed_wordAddr :
    (HostOp.wordRead 4).wellFormed = true ∧ (HostOp.wordRead 6).wellFormed = false ∧
    (HostOp.wordWrite 1 0).wellFormed = false := by decide

theorem test_wellFormed_instr : Instr.deflate.wellFormed = true ∧ Instr.nop.wellFormed = true := by decide

/-- The machine refuses the same forms, each by its name. -/
theorem test_refusals :
    step (idleWith [.host (.regWrite .byte 0x0C 1)]) = .refused .regAccessForm ∧
    step (idleWith [.host (.regRead .word 0x0E)]) = .refused .regAccessForm ∧
    step (idleWith [.host (.wordRead 6)]) = .refused .dmemMisaligned ∧
    step (idleWith [.host (.byteRead 0x100000)]) = .refused .dmemOutOfRange ∧
    step (busyWith 5 0 4 16 16 [] [.host (.byteWrite 31 0)]) = .refused .dmemRegionBusy ∧
    step { idleWith [.host (.regRead .word 0)] with inReset := true } = .refused .heldInReset :=
  ⟨rfl, rfl, rfl, rfl, rfl, rfl⟩

/-- 30_encoding.md R119: `bytes` at the end of a DMEM of 2^32 bytes does not go on at address 0; the byte behind the end
is refused (20_memory.md R84). -/
theorem test_storeBytes_does_not_wrap :
    storeBytes 0xFFFFFFFF [1, 2] = [.host (.byteWrite 0xFFFFFFFF 1), .host (.byteWrite 0x100000000 2)] ∧
    step { idleWith [sb 0x100000000 2] with dmemLog := 28 } = .refused .dmemOutOfRange := ⟨rfl, rfl⟩

/-! ### One step per command (95_test_vectors.md) -/

/-- 40_control.md R168. -/
theorem test_nop : result (exec .nop (busyWith 0 9 9 9 9 [] [])) (fun t => [t.errCode.toNat, t.done.toNat]) = [0, 1] := by
  decide +kernel

/-- RE2. -/
theorem test_rleEnc_RE2 : result (exec .rleEnc (busyWith 1 0 6 16 64 aaabbc [])) outputOf =
    [0x12, 0, 0, 0x52, 0x4C, 0x45, 0x46, 6, 0, 0, 0, 0, 0, 0, 0, 3, 0x41, 2, 0x42, 1, 0x43] := by
  decide +kernel

/-- RE7. -/
theorem test_rleEnc_RE7 : result (exec .rleEnc (busyWith 1 0 6 16 5 aaabbc [])) outputOf =
    [5, 7, 5, 0x52, 0x4C, 0x45, 0x46, 6] := by
  decide +kernel

/-- RD10. -/
theorem test_rleDec_RD10 : result (exec .rleDec (busyWith 2 0 15 32 64 (header 5 ++ [3, 0x41, 2]) [])) outputOf =
    [3, 2, 0xE, 0x41, 0x41, 0x41] := by
  decide +kernel

/-- RD16. -/
theorem test_rleDec_RD16 :
    result (exec .rleDec (busyWith 2 0 18 32 4 (header 6 ++ [3, 0x41, 2, 0x42, 1, 0x43]) [])) outputOf =
      [4, 7, 4, 0x41, 0x41, 0x41, 0x42] := by
  decide +kernel

/-- DF5. -/
theorem test_deflate_DF5 : result (exec .deflate (busyWith 5 0 4 16 16 [0x61, 0x61, 0x61, 0x61] []))
    (fun t => t.litCount.toNat :: t.matchCount.toNat :: outputOf t) = [1, 1, 4, 0, 0, 0x4B, 4, 2, 0] := by
  decide +kernel

/-- DF13. -/
theorem test_deflate_DF13 : result (exec .deflate (busyWith 5 0 3 16 16 [0x8F, 0x90, 0xFF] [])) outputOf =
    [5, 0, 0, 0xEB, 0x9F, 0xF0, 0x1F, 0] := by
  decide +kernel

/-- DF9: length symbol 284 with extra value 30. -/
theorem test_packBlock_DF9 :
    (packBlock [.lit 0x61, .pair 257 1]).out = [0x4B, 0x1C, 0xF1, 0, 0] := by
  decide +kernel

/-- DF21: distance symbols 4 and 6, with 1 and 2 extra bits. -/
theorem test_packBlock_DF21 :
    (packBlock [.lit 0x61, .lit 0x62, .lit 0x63, .lit 0x64, .lit 0x65, .lit 0x58, .pair 3 6, .lit 0x59, .pair 5 10]).out =
      [0x4B, 0x4C, 0x4A, 0x4E, 0x49, 0x8D, 0, 0x92, 0x91, 0x60, 0x16, 0] := by
  decide +kernel

/-- ZL2. -/
theorem test_zlib_ZL2 : result (exec .zlib (busyWith 6 0 1 16 9 [0x61] []))
    (fun t => t.adlerAcc.toNat :: outputOf t) = [0x620062, 9, 0, 0, 0x78, 1, 0x4B, 4, 0, 0, 0x62, 0, 0x62] := by
  decide +kernel

/-- ZL6. -/
theorem test_zlib_ZL6 : result (exec .zlib (busyWith 6 0 1 16 8 [0x61] []))
    (fun t => t.adlerAcc.toNat :: outputOf t) = [1, 8, 7, 8, 0x78, 1, 0x4B, 4, 0, 0, 0x62, 0] := by
  decide +kernel

/-- CR3. -/
theorem test_crc32Start_CR3 : result (exec .crc32Start (busyWith 8 0 3 0 0 [0x61, 0x62, 0x63] []))
    (fun t => [t.crcAcc.toNat, (t.regValue .crcResult).toNat]) = [0xCADBBE3D, 0x352441C2] := by
  decide +kernel

/-- CC7. -/
theorem test_crc32Start_CC7 : result (exec .crc32Start { busyWith 8 0xFFFFFFFF 1 0 0 [] [] with crcAcc := 7 })
    (fun t => [t.crcAcc.toNat, t.errCode.toNat, t.errInfo.toNat]) = [7, 8, 0] := by
  decide +kernel

/-- CC4. -/
theorem test_crc32Cont_CC4 : result (exec .crc32Cont { busyWith 9 0 1 0 0 [0] [] with crcAcc := 0 })
    (fun t => [t.crcAcc.toNat, (t.regValue .crcResult).toNat]) = [0, 0xFFFFFFFF] := by
  decide +kernel

/-- AD3. -/
theorem test_adler32Start_AD3 : result (exec .adler32Start (busyWith 10 0 3 0 0 [0x61, 0x62, 0x63] []))
    (fun t => [t.adlerAcc.toNat]) = [0x024D0127] := by
  decide +kernel

/-- AD11. -/
theorem test_adler32Cont_AD11 : result (exec .adler32Cont { busyWith 11 0 1 0 0 [0] [] with adlerAcc := 0xFFFFFFFF })
    (fun t => [t.adlerAcc.toNat]) = [0x001C000E] := by
  decide +kernel

/-- AD12. -/
theorem test_adler32Cont_AD12 : result (exec .adler32Cont { busyWith 11 0 0 0 0 [] [] with adlerAcc := 0xFFFFFFFF })
    (fun t => [t.adlerAcc.toNat]) = [0xFFFFFFFF] := by
  decide +kernel

/-! ### Witnesses: states and operands that meet the hypotheses of each statement -/

/-- A register write as the next inbox entry. -/
def atWrite (s : State) (off : BitVec 8) (v : Word) : State := { s with inbox := [.host (.regWrite .word off v)] }

/-- A host operation as the next inbox entry. -/
def atOp (s : State) (op : HostOp) : State := { s with inbox := [.host op] }

/-- `deflate` running on "aaaa", from 0 to 16 with capacity 16. -/
def running : State := busyWith 5 0 4 16 16 [0x61, 0x61, 0x61, 0x61] []

/-- An idle block on a DMEM of 1024 bytes. -/
def small : State := { State.reset with dmemLog := 6, dmem := [(3, 0x61), (1023, 0x62)] }

theorem witness_IllegalWordsAreAcceptedAndRefusedAlike :
    (∀ w ∈ [(0x03 : Word), 0x04, 0x07, 0x0C, 0xFF, 0x100, 0x80000000], ∀ i : Instr, decode w ≠ .ok i) ∧
    (let s := atWrite small 0x0C 0x03;
      s.inReset = false ∧ s.eng = .idle ∧ s.HostNext (.regWrite .word 0x0C 0x03)) ∧
    (let s := busyWith 0x03 0 0 0 0 [] [];
      s.inReset = false ∧ s.eng = .busy ∧ s.latch.cmd = 0x03 ∧ s.EngineNext) :=
  ⟨fun w h i => by simp at h; rcases h with rfl | rfl | rfl | rfl | rfl | rfl | rfl <;> cases i <;> decide, by decide,
    by decide⟩

theorem witness_EngineTurnRunsTheLatchedCommand :
    running.eng = .busy ∧ running.EngineNext ∧ decode running.latch.cmd = .ok .deflate := by decide

theorem witness_FetchedWordRunsAtTheNextStep : decodeTableWord 32 0x0B = some .adler32Cont := by decide

theorem witness_IdleEngineTurnChangesNothing :
    small.eng = .idle ∧ small.EngineNext ∧ { small with inbox := [.engine, .engine] }.EngineNext := by decide

/-- For `HostStepIsRefusedExactlyWithoutMeaning`: each kind of operation with a meaning, at the edge of its range. -/
theorem witness_HasMeaning :
    (∀ op ∈ [HostOp.regWrite .word 0x0C 1, .regRead .word 0xFC, .byteWrite 1023 7, .byteRead 1023, .wordWrite 1020 7,
        .wordRead 1020, .wait, .assertReset, .releaseReset], (atOp small op).HostNext op) ∧
    (atOp small (.regWrite .word 0x0C 1)).HasMeaning (.regWrite .word 0x0C 1) ∧
    (atOp small (.regRead .word 0xFC)).HasMeaning (.regRead .word 0xFC) ∧
    (atOp small (.byteWrite 1023 7)).HasMeaning (.byteWrite 1023 7) ∧
    (atOp small (.byteRead 1023)).HasMeaning (.byteRead 1023) ∧
    (atOp small (.wordWrite 1020 7)).HasMeaning (.wordWrite 1020 7) ∧
    (atOp small (.wordRead 1020)).HasMeaning (.wordRead 1020) ∧
    (atOp small .wait).HasMeaning .wait ∧
    (atOp small .assertReset).HasMeaning .assertReset ∧
    (atOp small .releaseReset).HasMeaning .releaseReset :=
  ⟨fun _ _ => rfl, ⟨rfl, rfl, by decide⟩, ⟨rfl, rfl, by decide⟩,
    ⟨rfl, by decide +kernel, (writeFree_one_iff _ _).2 (by decide +kernel)⟩, ⟨rfl, by decide +kernel⟩,
    ⟨rfl, by decide, by decide +kernel, (writeFree_four_iff _ _).2 (by decide +kernel)⟩,
    ⟨rfl, by decide, by decide +kernel⟩, rfl, trivial, trivial⟩

/-- For the same statement: each kind of operation without a meaning, and one state for each reason. -/
theorem witness_NoMeaning :
    ¬ (atOp small (.regWrite .half 0x0C 1)).HasMeaning (.regWrite .half 0x0C 1) ∧
    ¬ (atOp small (.regRead .word 0x0D)).HasMeaning (.regRead .word 0x0D) ∧
    ¬ (atOp small (.byteWrite 1024 7)).HasMeaning (.byteWrite 1024 7) ∧
    ¬ (atOp small (.byteRead 4294967296)).HasMeaning (.byteRead 4294967296) ∧
    ¬ (atOp small (.wordWrite 1022 7)).HasMeaning (.wordWrite 1022 7) ∧
    ¬ (atOp small (.wordRead 1024)).HasMeaning (.wordRead 1024) ∧
    ¬ (atOp { small with inReset := true } .wait).HasMeaning .wait ∧
    ¬ (atOp running (.byteWrite 3 7)).HasMeaning (.byteWrite 3 7) ∧
    ¬ (atOp running (.wordWrite 28 7)).HasMeaning (.wordWrite 28 7) :=
  ⟨fun h => absurd h.2.1 (by decide), fun h => absurd h.2.2 (by decide), fun h => absurd h.2.1 (by decide +kernel),
    fun h => absurd h.2 (by decide +kernel), fun h => absurd h.2.1 (by decide), fun h => absurd h.2.2 (by decide +kernel),
    fun h => absurd (show true = false from h) (by decide),
    fun h => absurd ((writeFree_one_iff _ _).1 h.2.2) (by decide +kernel),
    fun h => absurd ((writeFree_four_iff _ _).1 h.2.2.2) (by decide +kernel)⟩

theorem witness_AcceptedCommandComesToAnEnd : (atOp running .wait).eng = .busy := rfl

theorem witness_BusyChangesOnlyByAcceptanceCompletionReset :
    (let s := atWrite small 0x0C 5;
      ∃ t : State, step s = .next t ∧ s.eng = .idle ∧ t.eng = .busy) ∧
    (∃ t : State, step running = .next t ∧ running.eng = .busy ∧ t.eng = .idle) ∧
    (let s := atWrite running 0x04 2;
      ∃ t : State, step s = .next t ∧ s.eng = .busy ∧ t.eng = .idle) :=
  ⟨⟨_, rfl, rfl, rfl⟩, ⟨_, rfl, rfl, by decide +kernel⟩, ⟨_, rfl, rfl, rfl⟩⟩

/-- The state `finished` has DONE set; the first two steps keep it (a STATUS write without bit 1, a rise of `rst_n` while
high), and the other five clear it, one for each cause. -/
theorem witness_DoneFallsOnlyByClearAcceptanceReset :
    let finished := { small with done := true };
    let low := { finished with inReset := true };
    (∃ t : State, step (atWrite finished 0x08 8) = .next t ∧ t.done = true) ∧
    (∃ t : State, step (atOp finished .releaseReset) = .next t ∧ t.done = true) ∧
    (∃ t : State, step (atWrite finished 0x08 2) = .next t ∧ t.done = false) ∧
    (∃ t : State, step (atWrite finished 0x0C 5) = .next t ∧ t.done = false) ∧
    (∃ t : State, step (atWrite finished 0x04 2) = .next t ∧ t.done = false) ∧
    (∃ t : State, step (atOp finished .assertReset) = .next t ∧ t.done = false) ∧
    (∃ t : State, step (atOp low .releaseReset) = .next t ∧ t.done = false) ∧
    finished.done = true ∧ low.done = true :=
  ⟨⟨_, rfl, rfl⟩, ⟨_, rfl, rfl⟩, ⟨_, rfl, rfl⟩, ⟨_, rfl, rfl⟩, ⟨_, rfl, rfl⟩, ⟨_, rfl, rfl⟩, ⟨_, rfl, rfl⟩, rfl, rfl⟩

theorem witness_IdleEngineAcceptsAnyCommandWord :
    let s := atWrite small 0x0C 0xFFFFFFFF
    s.eng = .idle ∧ s.inReset = false ∧ s.HostNext (.regWrite .word 0x0C 0xFFFFFFFF) := by decide

theorem witness_BusyEngineDropsACommandWord :
    let s := atWrite running 0x0C 0
    s.eng = .busy ∧ s.inReset = false ∧ s.HostNext (.regWrite .word 0x0C 0) := by decide

/-- One state for each kind of offset. -/
theorem witness_BusyEngineIgnoresParameterWrites :
    running.eng = .busy ∧ running.inReset = false ∧
    (∀ off ∈ [(0x10 : BitVec 8), 0x14, 0x18, 0x1C, 0x2C, 0x34], (atWrite running off 1).HostNext (.regWrite .word off 1)) ∧
    (atWrite running 0x04 1).HostNext (.regWrite .word 0x04 1) ∧ (1 : Word).getLsbD 1 = false ∧
    (atWrite running 0x08 10).HostNext (.regWrite .word 0x08 10) := by decide

theorem witness_IdleEngineTakesRegisterWrites :
    small.eng = .idle ∧ small.inReset = false ∧
    (∀ off ∈ [(0x10 : BitVec 8), 0x14, 0x18, 0x1C, 0x2C, 0x34], (atWrite small off 1).HostNext (.regWrite .word off 1)) ∧
    (atWrite small 0x04 1).HostNext (.regWrite .word 0x04 1) ∧ (1 : Word).getLsbD 1 = false ∧
    (atWrite small 0x08 10).HostNext (.regWrite .word 0x08 10) := by decide

theorem witness_ReadOnlyAndReservedOffsetsIgnoreWrites :
    (∀ off ∈ [(0x00 : BitVec 8), 0x48, 0x4C, 0xFC],
      off.toNat % 4 = 0 ∧ (atWrite small off 1).inReset = false ∧
      (off ∈ [(0x00 : BitVec 8), 0x20, 0x24, 0x28, 0x30, 0x38, 0x3C, 0x40, 0x44, 0x48] ∨ 0x4C ≤ off.toNat) ∧
      (atWrite small off 1).HostNext (.regWrite .word off 1)) ∧
    (∀ off ∈ [(0x4C : BitVec 8), 0xFC], 0x4C ≤ off.toNat ∧
      (atOp small (.regRead .word off)).HostNext (.regRead .word off) ∧
      (atOp running (.regRead .word off)).HostNext (.regRead .word off)) := by decide

theorem witness_IdleReadsFollowTheRegisterMap :
    ∀ off ∈ [(0x00 : BitVec 8), 0x48],
      let s := atOp small (.regRead .word off)
      s.eng = .idle ∧ s.inReset = false ∧ s.HostNext (.regRead .word off) := by decide

theorem witness_BusyReadsKeepTheDefinedValues :
    ∀ r ∈ [Reg.status, .dmemSize, .outLen],
      let s := atOp running (.regRead .word r.offset)
      s.eng = .busy ∧ s.inReset = false ∧ s.HostNext (.regRead .word r.offset) := by decide

theorem witness_InterruptFollowsEnableAndDone :
    (∃ t : State, completeWord 0x08 { small with ie := true } = .next t) ∧ (5 : Word).getLsbD 1 = false :=
  ⟨⟨_, rfl⟩, by decide⟩

theorem witness_WaitPollsUntilIdle :
    ((atOp small .wait).inReset = false ∧ (atOp small .wait).HostNext .wait ∧ (atOp small .wait).eng = .idle) ∧
    ((atOp running .wait).inReset = false ∧ (atOp running .wait).HostNext .wait ∧ (atOp running .wait).eng = .busy) := by
  decide

/-- The first and the last byte while Idle, the byte behind the destination region while Busy; the last word. -/
theorem witness_HostWritesStoreLittleEndian :
    (∀ a ∈ [0, 1023], (atOp small (.byteWrite a 7)).HostNext (.byteWrite a 7)) ∧
    (∀ a ∈ [0, 1023], (atOp small (.byteWrite a 7)).HasMeaning (.byteWrite a 7)) ∧
    ((atOp running (.byteWrite 32 7)).HostNext (.byteWrite 32 7) ∧
      (atOp running (.byteWrite 32 7)).HasMeaning (.byteWrite 32 7)) ∧
    (atOp small (.wordWrite 1020 0x04030201)).HostNext (.wordWrite 1020 0x04030201) ∧
      (atOp small (.wordWrite 1020 0x04030201)).HasMeaning (.wordWrite 1020 0x04030201) := by
  refine ⟨fun _ _ => rfl, fun a ha => ⟨rfl, ?_, (writeFree_one_iff _ _).2 ?_⟩,
    ⟨rfl, rfl, by decide, (writeFree_one_iff _ _).2 (by decide)⟩, rfl, rfl, by decide, by decide +kernel,
    (writeFree_four_iff _ _).2 (by decide +kernel)⟩
  all_goals simp at ha; rcases ha with rfl | rfl <;> decide +kernel

theorem witness_IdleDmemReadsReturnTheBytes :
    small.eng = .idle ∧
    ((atOp small (.byteRead 1023)).HostNext (.byteRead 1023) ∧ (atOp small (.byteRead 1023)).HasMeaning (.byteRead 1023)) ∧
    ((atOp small (.wordRead 1020)).HostNext (.wordRead 1020) ∧ (atOp small (.wordRead 1020)).HasMeaning (.wordRead 1020)) :=
  ⟨rfl, ⟨rfl, rfl, by decide +kernel⟩, rfl, rfl, by decide, by decide +kernel⟩

/-- The bytes before, at the start of, at the end of and behind the destination region; the words before and behind it. -/
theorem witness_BusyByteReadsOutsideTheDestination :
    (∀ a ∈ [15, 16, 31, 32],
      (atOp running (.byteRead a)).eng = .busy ∧ (atOp running (.byteRead a)).HostNext (.byteRead a) ∧
      (atOp running (.byteRead a)).HasMeaning (.byteRead a)) ∧
    (∀ a ∈ [0, 12, 32],
      (atOp running (.wordRead a)).eng = .busy ∧ (atOp running (.wordRead a)).HostNext (.wordRead a) ∧
      (atOp running (.wordRead a)).HasMeaning (.wordRead a) ∧
      ∀ k < 4, ¬ (16 ≤ a + k ∧ a + k < 32)) ∧
    running.latch.dst.toNat = 16 ∧ running.latch.dst.toNat + running.latch.cap.toNat = 32 := by
  refine ⟨fun a ha => ⟨rfl, rfl, rfl, ?_⟩, fun a ha => ⟨rfl, rfl, ⟨rfl, ?_, ?_⟩, ?_⟩, by decide, by decide⟩
  · simp at ha; rcases ha with rfl | rfl | rfl | rfl <;> decide +kernel
  all_goals simp at ha; rcases ha with rfl | rfl | rfl <;> decide

theorem witness_SoftResetWhileIdle :
    let s := atWrite small 0x04 3
    s.eng = .idle ∧ s.inReset = false ∧ (3 : Word).getLsbD 1 = true ∧ s.HostNext (.regWrite .word 0x04 3) := by decide

theorem witness_ResetAbortsTheRunningCommand :
    (let s := atOp running .assertReset;
      s.eng = .busy ∧ s.HostNext .assertReset) ∧
    (let s := atWrite running 0x04 2;
      s.eng = .busy ∧ s.inReset = false ∧ ∃ v : Word, v.getLsbD 1 = true ∧ s.HostNext (.regWrite .word 0x04 v)) :=
  ⟨⟨rfl, rfl⟩, rfl, rfl, 2, by decide, rfl⟩

/-- A fall of `rst_n` while it is high, and one while it is low. -/
theorem witness_HardwareResetWhileIdle :
    ∀ b ∈ [false, true],
      let s := atOp { small with inReset := b } .assertReset
      s.eng = .idle ∧ s.HostNext .assertReset := by decide

theorem witness_ReleaseLeavesTheBlockReady :
    let s := atOp { small with inReset := true } .releaseReset
    s.eng = .idle ∧ s.inReset = true ∧ s.HostNext .releaseReset := by decide

/-- For `NoCommandWritesControlRegisters` and `CommandFootprintIsTheOutput`: every command has a next state here. -/
theorem witness_exec_next :
    ∀ i : Instr, ∃ t : State, exec i running = .next t := by
  intro i; cases i <;> exact ⟨_, rfl⟩

/-- For `RleAndChecksumPrologueErrors` and `DeflatePrologueErrors`: one state for each error, each at the edge of its range: a source one byte past the end of DMEM, a destination one
byte past it, and two regions with one common byte. -/
theorem witness_PrologueErrors :
    ¬ (busyWith 1 1020 5 0 4 [] []).SrcOk ∧
    ((busyWith 1 0 4 1020 5 [] []).SrcOk ∧ ¬ (busyWith 1 0 4 1020 5 [] []).DstOk) ∧
    ((busyWith 1 0 4 3 4 [] []).SrcOk ∧ (busyWith 1 0 4 3 4 [] []).DstOk ∧ ¬ (busyWith 1 0 4 3 4 [] []).Apart) := by
  decide

theorem witness_TransformResultDependsOnItsOperandsOnly :
    let s1 := running
    let s2 := { running with outLen := 9, crcAcc := 0, dmem := (9, 0x77) :: running.dmem }
    commandClass .deflate = .transform ∧ s1.latch = s2.latch ∧ s1.dmemLog = s2.dmemLog ∧
    (∀ x, s1.latch.src.toNat ≤ x → x < s1.latch.src.toNat + s1.latch.n.toNat →
      Memory.read s1.dmem x = Memory.read s2.dmem x) ∧
    (∃ t1 : State, exec .deflate s1 = .next t1) ∧ ∃ t2 : State, exec .deflate s2 = .next t2 := by
  refine ⟨rfl, rfl, rfl, fun x _ h => ?_, ⟨_, rfl⟩, ⟨_, rfl⟩⟩
  have e : running.latch.src.toNat + running.latch.n.toNat = 4 := by decide
  rw [e] at h
  have : x = 0 ∨ x = 1 ∨ x = 2 ∨ x = 3 := by omega
  rcases this with rfl | rfl | rfl | rfl <;> rfl

/-- For `CrcStartComputesTheCrc`, `CrcContContinuesTheCrc`, `AdlerStartComputesTheAdler` and
`AdlerContContinuesTheAdler`: three bytes, and no byte at the end of DMEM. -/
theorem witness_SrcOk :
    (busyWith 8 0 3 0 0 [0x61, 0x62, 0x63] []).SrcOk ∧ (busyWith 8 1024 0 0 0 [] []).SrcOk := by decide

/-- A split in the middle, at the start and at the end, with the four runs it speaks of. -/
theorem witness_SplitChecksumsAgreeWithTheWhole :
    let s := busyWith 8 0 3 0 0 [0x61, 0x62, 0x63] []
    s.SrcOk ∧ (∀ k ∈ [0, 1, 3], k ≤ s.latch.n.toNat) ∧
    (∃ t : State, exec .crc32Start s = .next t) ∧ (∃ t : State, exec .crc32Cont s = .next t) ∧
    (∃ t : State, exec .adler32Start s = .next t) ∧ ∃ t : State, exec .adler32Cont s = .next t :=
  ⟨by decide, by decide, ⟨_, rfl⟩, ⟨_, rfl⟩, ⟨_, rfl⟩, ⟨_, rfl⟩⟩

/-- An exact fit (RE8). -/
theorem witness_RleEncWritesTheContainer :
    let s := busyWith 1 0 6 16 18 aaabbc []
    s.RegionsOk ∧ (rleEncode s.srcBytes).length ≤ s.latch.cap.toNat := by decide +kernel

/-- One byte short. -/
theorem witness_RleEncStopsAtTheCapacity :
    let s := busyWith 1 0 6 16 17 aaabbc []
    s.RegionsOk ∧ s.latch.cap.toNat < (rleEncode s.srcBytes).length := by decide +kernel

/-- RD18, with the capacity exactly the size; and RD7, an empty container with capacity 0. -/
theorem witness_RleDecExpandsAValidContainer :
    (let s := busyWith 2 0 14 32 6 (header 6 ++ [6, 0x41]) [];
      let pairs : List (Byte × Byte) := [(6, 0x41)];
      s.RegionsOk ∧ (∀ p ∈ pairs, p.1 ≠ 0) ∧ s.srcBytes = container (expansion pairs).length pairs ∧
      (expansion pairs).length ≤ s.latch.cap.toNat) ∧
    (let s := busyWith 2 0 12 32 0 (header 0) [];
      s.RegionsOk ∧ s.srcBytes = container (expansion []).length [] ∧
      (expansion []).length ≤ s.latch.cap.toNat) :=
  ⟨⟨by decide, by simp, by decide +kernel, by decide +kernel⟩, by decide, by decide +kernel, by decide +kernel⟩

/-- RD2 (11 bytes), RD4 (the first byte wrong), RD3 (the last byte of the magic wrong). -/
theorem witness_RleDecChecksTheHeader :
    let magic : List Byte := [0x52, 0x4C, 0x45, 0x46]
    (let s := busyWith 2 0 11 32 64 [0x52, 0x4C, 0x45, 0x46, 0, 0, 0, 0, 0, 0, 0] [];
      s.RegionsOk ∧ s.latch.n.toNat < 12) ∧
    (let s := busyWith 2 0 12 32 64 [0x58, 0x4C, 0x45, 0x46, 0, 0, 0, 0, 0, 0, 0, 0] [];
      s.RegionsOk ∧ 12 ≤ s.latch.n.toNat ∧ s.srcBytes.getD 0 0 ≠ magic.getD 0 0) ∧
    (let s := busyWith 2 0 12 32 64 [0x52, 0x4C, 0x45, 0x58, 0, 0, 0, 0, 0, 0, 0, 0] [];
      s.RegionsOk ∧ 12 ≤ s.latch.n.toNat ∧ (∀ k < 3, s.srcBytes.getD k 0 = magic.getD k 0) ∧
      s.srcBytes.getD 3 0 ≠ magic.getD 3 0) := by decide +kernel

/-- The hypotheses of `RleDecStopsAtTheFirstFault` for a state, a size, pairs and a tail. -/
abbrev Faulty (s : State) (size : Nat) (pairs : List (Byte × Byte)) (tail : List Byte) : Prop :=
  s.RegionsOk ∧ size < 2 ^ 64 ∧ (∀ p ∈ pairs, p.1 ≠ 0) ∧ s.srcBytes = container size pairs ++ tail ∧
  (expansion pairs).length ≤ size ∧ (expansion pairs).length ≤ s.latch.cap.toNat

/-- RD11, RD10, RD8, RD13, RD16: one state for each of the five faults. -/
theorem witness_RleDecStopsAtTheFirstFault :
    (Faulty (busyWith 2 0 14 32 64 (header 4 ++ [3, 0x41]) []) 4 [(3, 0x41)] [] ∧
      (expansion [(3, 0x41)]).length < 4) ∧
    Faulty (busyWith 2 0 15 32 64 (header 5 ++ [3, 0x41, 2]) []) 5 [(3, 0x41)] [2] ∧
    Faulty (busyWith 2 0 14 32 64 (header 3 ++ [0, 0x41]) []) 3 [] [0, 0x41] ∧
    (Faulty (busyWith 2 0 16 32 64 (header 3 ++ [3, 0x41, 1, 0x42]) []) 3 [(3, 0x41)] [1, 0x42] ∧
      3 < (expansion [(3, 0x41)]).length + (1 : Byte).toNat) ∧
    (Faulty (busyWith 2 0 18 32 4 (header 6 ++ [3, 0x41, 2, 0x42, 1, 0x43]) []) 6 [(3, 0x41)] [2, 0x42, 1, 0x43] ∧
      (expansion [(3, 0x41)]).length + (2 : Byte).toNat ≤ 6 ∧ 4 < (expansion [(3, 0x41)]).length + (2 : Byte).toNat) := by
  refine ⟨⟨⟨?_, ?_, by simp, ?_, ?_, ?_⟩, ?_⟩, ⟨?_, ?_, by simp, ?_, ?_, ?_⟩, ⟨?_, ?_, by simp, ?_, ?_, ?_⟩,
    ⟨⟨?_, ?_, by simp, ?_, ?_, ?_⟩, ?_⟩, ⟨?_, ?_, by simp, ?_, ?_, ?_⟩, ?_, ?_⟩ <;> decide +kernel

/-- "AAABBC" with room for exactly 12 + 2n bytes, decoded to address 64 with room for exactly n. -/
theorem witness_RleRoundTrip :
    let s := busyWith 1 0 6 16 24 aaabbc []
    s.RegionsOk ∧ 12 + 2 * s.latch.n.toNat ≤ s.latch.cap.toNat ∧
    ∃ t : State, exec .rleEnc s = .next t ∧
      { t with latch := { t.latch with src := s.latch.dst, n := t.outLen, dst := 64, cap := 6 } }.RegionsOk ∧
      s.latch.n.toNat ≤ (6 : Word).toNat :=
  ⟨by decide, by decide, _, rfl, by decide +kernel, by decide⟩

/-- DF5 in exactly its four bytes. -/
theorem witness_DeflateWritesTheBlock :
    let s := busyWith 5 0 4 16 4 [0x61, 0x61, 0x61, 0x61] []
    s.RegionsOk ∧ (deflateBlock s.srcBytes).bytes.length ≤ s.latch.cap.toNat := by decide +kernel

/-- DF5 one byte short; ZL6. -/
theorem witness_DeflateStopsAtTheCapacity :
    (let s := busyWith 5 0 4 16 3 [0x61, 0x61, 0x61, 0x61] [];
      s.RegionsOk ∧ s.latch.cap.toNat < (deflateBlock s.srcBytes).bytes.length) ∧
    (let s := busyWith 6 0 1 16 8 [0x61] [];
      s.RegionsOk ∧ s.latch.cap.toNat < (deflateBlock s.srcBytes).bytes.length + 6) := by decide +kernel

theorem witness_DeflateFitsTheWorstCase :
    let s := busyWith 5 0 4 16 6 [0x61, 0x61, 0x61, 0x61] []
    s.RegionsOk ∧ (10 + 9 * s.latch.n.toNat + 7) / 8 ≤ s.latch.cap.toNat := by decide

/-- The first and the last window of an input. -/
theorem witness_HashIsAFifteenBitRolledXor :
    (0x21 : Byte).toNat % 32 = (0x61 : Byte).toNat % 32 ∧
    ∀ q ∈ [0, 1], q + 3 ≤ [(0x61 : Byte), 0x62, 0x63, 0x61].length := by decide

/-- Both outcomes of a search: none at position 0, one at position 1 of "aaaa" (DF5). -/
theorem witness_SearchFindsTheLongestNearestCandidate :
    let input : List Byte := [0x61, 0x61, 0x61, 0x61]
    (0 + 3 ≤ input.length ∧ findMatch input (ringTables input 0) 0 = (0, 0)) ∧
    (1 + 3 ≤ input.length ∧ findMatch input (ringTables input 1) 1 = (3, 1)) := by decide +kernel

theorem witness_ExtraBitsHoldTheDifference :
    (∀ len ∈ [3, 258], 3 ≤ len ∧ len ≤ 258) ∧ (∀ dist ∈ [1, 32768], 1 ≤ dist ∧ dist ≤ 32768) := by decide

/-- ZL7, an exact fit. -/
theorem witness_ZlibWritesTheWrappedBlock :
    let s := busyWith 6 0 1 16 9 [0x61] []
    s.RegionsOk ∧ (deflateBlock s.srcBytes).bytes.length + 6 ≤ s.latch.cap.toNat := by decide +kernel

/-- A running command that the next step completes, and a block held in reset that the next step releases. -/
theorem witness_EveryStepKeepsInvariants :
    (running.Inv ∧ ∃ t : State, step running = .next t) ∧
    (let s := atOp { small with inReset := true } .releaseReset;
      s.Inv ∧ ∃ t : State, step s = .next t) :=
  ⟨⟨by constructor <;> decide, _, rfl⟩, by constructor <;> decide, _, rfl⟩

end Sys2Proof.Tests
end

section
/-! ### The greedy parse expands to its input (42_deflate.md R237)

Every position in the tables lies before the one searched from, so a match found copies bytes already expanded. -/

namespace Sys2Proof.Machine

open Sys2Proof.Reference

theorem mem_of_listGet_eq_some {α : Type} {t : List (Nat × α)} {a : Nat} {v : α} (h : listGet t a = some v) :
    (a, v) ∈ t := by
  induction t with
  | nil => simp [listGet] at h
  | cons c t ih =>
    obtain ⟨k, w⟩ := c
    simp only [listGet] at h
    split at h
    case isTrue heq =>
      obtain rfl := Option.some.inj h
      exact heq ▸ List.mem_cons_self
    case isFalse => exact List.mem_cons_of_mem _ (ih h)

/-- Every position the tables hold lies below `p`. -/
structure TablesBelow (p : Nat) (t : MatchTables) : Prop where
  head : ∀ e ∈ t.head, e.2 < p
  prev : ∀ e ∈ t.prev, e.2 < p

theorem TablesBelow.headAt_lt {p : Nat} {t : MatchTables} (ht : TablesBelow p t) {h c : Nat}
    (hc : headAt t h = some c) : c < p :=
  ht.head _ (mem_of_listGet_eq_some hc)

theorem TablesBelow.prevAt_lt {p : Nat} {t : MatchTables} (ht : TablesBelow p t) {q c : Nat}
    (hc : prevAt t q = some c) : c < p :=
  ht.prev _ (mem_of_listGet_eq_some hc)

theorem TablesBelow.mono {p q : Nat} {t : MatchTables} (ht : TablesBelow p t) (hpq : p ≤ q) : TablesBelow q t :=
  ⟨fun e he => (ht.head e he).trans_le hpq, fun e he => (ht.prev e he).trans_le hpq⟩

theorem initTables_below : TablesBelow 0 initTables := by constructor <;> simp [initTables]

theorem insertPos_below {input : List Byte} {p : Nat} {t : MatchTables} (ht : TablesBelow p t) :
    TablesBelow (p + 1) (insertPos input t p) := by
  have ht' := ht.mono (Nat.le_succ p)
  unfold insertPos
  split
  case isFalse => exact ht'
  case isTrue =>
    constructor
    · intro e he
      rcases mem_listSet he with rfl | he
      · exact Nat.lt_succ_self p
      · exact ht'.head e he
    · intro e he
      cases hc : headAt t (hashAt input p) with
      | none =>
        simp only [hc, listPut] at he
        exact ht'.prev e (mem_of_mem_listErase he)
      | some c =>
        simp only [hc, listPut] at he
        rcases mem_listSet he with rfl | he
        · exact (ht.headAt_lt hc).trans (Nat.lt_succ_self p)
        · exact ht'.prev e he

theorem insertRange_below {input : List Byte} {p k : Nat} {t : MatchTables} (ht : TablesBelow p t) :
    TablesBelow (p + k) (insertRange input t p k) := by
  induction k generalizing p t with
  | zero => exact ht
  | succ k ih =>
    have := ih (insertPos_below (input := input) ht)
    rwa [show p + 1 + k = p + (k + 1) by omega] at this

theorem matchLen_le (input : List Byte) (maxlen c p : Nat) : matchLen input maxlen c p ≤ maxlen := by
  induction maxlen generalizing c p with
  | zero => simp [matchLen]
  | succ maxlen ih =>
    simp only [matchLen]
    split
    · exact Nat.succ_le_succ (ih _ _)
    · exact Nat.zero_le _

/-- The bytes a match covers agree. -/
theorem inByte_eq_of_lt_matchLen {input : List Byte} {maxlen c p k : Nat} (hk : k < matchLen input maxlen c p) :
    inByte input (c + k) = inByte input (p + k) := by
  induction maxlen generalizing c p k with
  | zero => simp [matchLen] at hk
  | succ maxlen ih =>
    simp only [matchLen] at hk
    split at hk
    case isFalse => omega
    case isTrue heq =>
      cases k with
      | zero => exact heq
      | succ k =>
        have := ih (Nat.lt_of_succ_lt_succ hk)
        rwa [show c + 1 + k = c + (k + 1) by omega, show p + 1 + k = p + (k + 1) by omega] at this

/-- A match at `p`, of at most `maxlen` bytes: its distance is in the window and does not point before the input, and
its bytes stand at that distance. -/
structure MatchAt (input : List Byte) (p maxlen len dist : Nat) : Prop where
  len_le : len ≤ maxlen
  one_le : 1 ≤ dist
  le_window : dist ≤ Config.windowSize
  le_pos : dist ≤ p
  agree : ∀ k < len, inByte input (p + k - dist) = inByte input (p + k)

theorem matchAt_matchLen {input : List Byte} {p maxlen c : Nat} (hc : c < p) (hw : p - c ≤ Config.windowSize) :
    MatchAt input p maxlen (matchLen input maxlen c p) (p - c) where
  len_le := matchLen_le input maxlen c p
  one_le := by omega
  le_window := hw
  le_pos := by omega
  agree k hk := by
    rw [show p + k - (p - c) = c + k by omega]
    exact inByte_eq_of_lt_matchLen hk

/-- A search that starts from a candidate below `p` and with no match, or with a match, ends so. -/
theorem searchChain_matchAt {input : List Byte} {t : MatchTables} {p maxlen : Nat} (ht : TablesBelow p t)
    (probes : Nat) {cand : Option Nat} (hcand : ∀ c, cand = some c → c < p) {best bestd : Nat}
    (hbest : best = 0 ∨ MatchAt input p maxlen best bestd) :
    (searchChain input t p maxlen probes cand best bestd).1 = 0 ∨
      MatchAt input p maxlen (searchChain input t p maxlen probes cand best bestd).1
        (searchChain input t p maxlen probes cand best bestd).2 := by
  induction probes generalizing cand best bestd with
  | zero => simpa [searchChain] using hbest
  | succ probes ih =>
    cases cand with
    | none => simpa [searchChain] using hbest
    | some c =>
      have hprev : ∀ c', prevAt t c = some c' → c' < p := fun _ h => ht.prevAt_lt h
      simp only [searchChain]
      split
      · exact hbest
      · next hw =>
        have hm := matchAt_matchLen (input := input) (maxlen := maxlen) (hcand c rfl) (Nat.le_of_not_lt hw)
        split
        · split
          · exact .inr hm
          · exact ih hprev (.inr hm)
        · exact ih hprev hbest

theorem findMatch_matchAt {input : List Byte} {t : MatchTables} {p : Nat} (ht : TablesBelow p t)
    (hlen : Config.minMatch ≤ (findMatch input t p).1) :
    MatchAt input p (min Config.maxMatch (input.length - p)) (findMatch input t p).1 (findMatch input t p).2 := by
  have hfound := searchChain_matchAt (input := input) (maxlen := min Config.maxMatch (input.length - p)) ht
    Config.maxProbes (cand := headAt t (hashAt input p)) (fun _ h => ht.headAt_lt h) (bestd := 0) (.inl rfl)
  unfold findMatch at hlen ⊢
  split at hlen
  case isFalse => simp at hlen
  case isTrue hp =>
    simp only at hlen ⊢
    split at hlen
    case isFalse => simp at hlen
    case isTrue hmin =>
      rw [if_pos hp, if_pos hmin]
      exact hfound.resolve_left (Nat.ne_of_gt (Nat.lt_of_lt_of_le (by decide) hmin))

theorem take_succ_eq_append_inByte {input : List Byte} {p : Nat} (hp : p < input.length) :
    input.take (p + 1) = input.take p ++ [inByte input p] := by
  rw [List.take_succ_eq_append_getElem hp, inByte, List.getD_eq_getElem _ _ hp]

/-- Copying from a distance at which the input repeats itself lengthens a part of the input (42_deflate.md R227). -/
theorem copyBack_take {input : List Byte} {p dist k : Nat} (h1 : 1 ≤ dist) (hd : dist ≤ p)
    (hk : p + k ≤ input.length) (hagree : ∀ j < k, inByte input (p + j - dist) = inByte input (p + j)) :
    copyBack dist k (input.take p) = input.take (p + k) := by
  induction k generalizing p with
  | zero => rfl
  | succ k ih =>
    have hbyte : (input.take p).getD (p - dist) 0 = inByte input p := by
      have h0 : inByte input (p - dist) = inByte input p := hagree 0 (Nat.succ_pos k)
      rw [← h0, inByte, List.getD_eq_getElem?_getD, List.getD_eq_getElem?_getD, List.getElem?_take_of_lt (by omega)]
    have hlength : (input.take p).length = p := List.length_take_of_le (by omega)
    rw [copyBack, hlength, hbyte, ← take_succ_eq_append_inByte (by omega), ih (by omega) (by omega),
      show p + 1 + k = p + (k + 1) by omega]
    intro j hj
    rw [show p + 1 + j = p + (j + 1) by omega]
    exact hagree (j + 1) (by omega)

theorem expandSyms_lit_take {input : List Byte} {p : Nat} (hp : p < input.length) (syms : List Sym) :
    expandSyms (.lit (inByte input p) :: syms) (input.take p) = expandSyms syms (input.take (p + 1)) := by
  rw [expandSyms, take_succ_eq_append_inByte hp]

theorem expandSyms_pair_take {input : List Byte} {p len dist : Nat} (hp : p ≤ input.length)
    (hlen : Config.minMatch ≤ len) (hm : MatchAt input p (min Config.maxMatch (input.length - p)) len dist)
    (syms : List Sym) :
    expandSyms (.pair len dist :: syms) (input.take p) = expandSyms syms (input.take (p + len)) := by
  obtain ⟨hle, h1, hw, hd, hagree⟩ := hm
  simp only [Config.minMatch, Config.maxMatch, Config.windowSize] at hlen hle hw
  have hlength : (input.take p).length = p := List.length_take_of_le hp
  rw [expandSyms, hlength, if_pos (by omega), copyBack_take h1 hd (by omega) hagree]

/-- The parse from `p` on expands, behind the first `p` bytes, to the whole input. -/
theorem expandSyms_parseFrom {input : List Byte} {fuel p : Nat} {t : MatchTables} (hp : p ≤ input.length)
    (hfuel : input.length ≤ p + fuel) (ht : TablesBelow p t) :
    expandSyms (parseFrom input fuel p t).1 (input.take p) = some input := by
  induction fuel generalizing p t with
  | zero => simpa [parseFrom, expandSyms] using hfuel
  | succ fuel ih =>
    simp only [parseFrom]
    split
    case isFalse hend => simpa [expandSyms] using hend
    case isTrue hlt =>
      split
      case isTrue hlen =>
        have hm := findMatch_matchAt ht hlen
        have hle := hm.len_le
        simp only [Config.minMatch, Config.maxMatch] at hlen hle
        simp only
        rw [expandSyms_pair_take hp hlen hm]
        exact ih (by omega) (by omega) (insertRange_below ht)
      case isFalse =>
        simp only
        rw [expandSyms_lit_take hlt]
        exact ih hlt (by omega) (insertPos_below ht)

/-- Expanding the parse of an input gives the input (42_deflate.md R237). -/
theorem expandSyms_parse (input : List Byte) : expandSyms (parse input).1 [] = some input :=
  expandSyms_parseFrom (Nat.zero_le _) (by omega) initTables_below

end Sys2Proof.Machine
end

section
/-! ### The bits of a block in stream order (30_encoding.md R124 to R132, 42_deflate.md R230 to R233)

Each operation of the bit packer appends its field to the bits packed so far. -/

namespace Sys2Proof.Machine

open Sys2Proof.Reference

/-! #### Bit fields -/

@[simp] theorem lsbBits_zero (v : Nat) : lsbBits v 0 = [] := rfl

@[simp] theorem msbBits_zero (v : Nat) : msbBits v 0 = [] := rfl

@[simp] theorem length_lsbBits (v k : Nat) : (lsbBits v k).length = k := by simp [lsbBits]

@[simp] theorem length_msbBits (v k : Nat) : (msbBits v k).length = k := by simp [msbBits]

theorem lsbBits_succ (v k : Nat) : lsbBits v (k + 1) = v.testBit 0 :: lsbBits (v / 2) k := by
  simp only [lsbBits, List.range_succ_eq_map, List.map_cons, List.map_map, Function.comp_def, Nat.testBit_succ]

theorem lsbBits_succ_last (v k : Nat) : lsbBits v (k + 1) = lsbBits v k ++ [v.testBit k] := by
  simp only [lsbBits, List.range_succ, List.map_append, List.map_cons, List.map_nil]

theorem msbBits_succ (v k : Nat) : msbBits v (k + 1) = v.testBit k :: msbBits v k := by
  simp only [msbBits, List.range_succ_eq_map, List.map_cons, List.map_map, Function.comp_def]
  simp only [Nat.add_sub_cancel, Nat.sub_zero, Nat.succ_eq_add_one, Nat.sub_add_eq, Nat.sub_right_comm]

/-- The low bits of a code are its last bits in the stream. -/
theorem msbBits_add (v j m : Nat) : msbBits v (j + m) = msbBits (v / 2 ^ m) j ++ msbBits v m := by
  induction j with
  | zero => simp
  | succ j ih =>
    rw [show j + 1 + m = (j + m) + 1 by omega, msbBits_succ, msbBits_succ, ih, Nat.testBit_div_two_pow,
      List.cons_append, Nat.add_comm]

theorem revBits_lt (v k : Nat) : revBits v k < 2 ^ k := by
  induction k generalizing v with
  | zero => simp [revBits]
  | succ k ih =>
    have hbit : v % 2 * 2 ^ k ≤ 1 * 2 ^ k := Nat.mul_le_mul_right _ (by omega)
    have := ih (v / 2)
    rw [revBits, Nat.pow_succ]
    omega

/-- A reversed code, least significant bit first, is the code most significant bit first (00_scope.md R14). -/
theorem lsbBits_revBits (v k : Nat) : lsbBits (revBits v k) k = msbBits v k := by
  induction k generalizing v with
  | zero => rfl
  | succ k ih =>
    have hbit (i : Nat) := Nat.testBit_two_pow_mul_add (v % 2) (revBits_lt (v / 2) k) i
    have hlow : lsbBits (revBits v (k + 1)) k = lsbBits (revBits (v / 2) k) k := by
      refine List.map_congr_left fun i hi => ?_
      rw [revBits, Nat.mul_comm, hbit, if_pos (List.mem_range.1 hi)]
    have htop : (revBits v (k + 1)).testBit k = v.testBit 0 := by
      rw [revBits, Nat.mul_comm, hbit, if_neg (Nat.lt_irrefl k), Nat.sub_self]
      simp [Nat.testBit_zero]
    rw [lsbBits_succ_last, hlow, htop, ih, msbBits_add v k 1, pow_one, msbBits_succ, msbBits_zero]

/-! #### The packer -/

/-- The bits of a byte from bit 0 on. -/
def byteBits (b : Byte) (k : Nat) : List Bool := (List.range k).map fun i => b.getLsbD i

@[simp] theorem byteBits_zero (b : Byte) : byteBits b 0 = [] := rfl

theorem bitsOf_append_singleton (l : List Byte) (b : Byte) : bitsOf (l ++ [b]) = bitsOf l ++ byteBits b 8 := by
  simp [bitsOf, byteBits]

/-- The packer has room in its byte, no bit stands there above the ones pending, and the bits packed so far are
`bits` (42_deflate.md R230). -/
structure Packer.Holds (pk : Packer) (bits : List Bool) : Prop where
  room : pk.bitcnt < 8
  clean : ∀ i, pk.bitcnt ≤ i → pk.bitbuf.getLsbD i = false
  bits_eq : bitsOf pk.out ++ byteBits pk.bitbuf pk.bitcnt = bits

theorem initPacker_holds : initPacker.Holds [] := by
  constructor <;> simp [initPacker, bitsOf]

/-- The byte with one more bit above `k` clean ones. -/
theorem getLsbD_or_shiftLeft_bit {buf : Byte} {k : Nat} (hk : k < 8) (hclean : ∀ i, k ≤ i → buf.getLsbD i = false)
    (v i : Nat) :
    (buf ||| (BitVec.ofNat 8 (v % 2) <<< k)).getLsbD i = if i = k then v.testBit 0 else buf.getLsbD i := by
  rw [BitVec.getLsbD_or, BitVec.getLsbD_shiftLeft, BitVec.getLsbD_ofNat]
  rcases Nat.lt_trichotomy i k with h | rfl | h
  · simp [h, h.ne]
  · simp only [hclean i le_rfl, hk]
    simp [Nat.testBit_zero]
  · have hhigh : (v % 2).testBit (i - k) = false :=
      Nat.testBit_lt_two_pow ((Nat.mod_lt v (by decide)).trans_le (Nat.le_self_pow (by omega) 2))
    simp [hhigh, h.ne']

theorem putBit_holds {pk : Packer} {bits : List Bool} (h : pk.Holds bits) (v : Nat) :
    (putBit pk v).Holds (bits ++ [v.testBit 0]) := by
  obtain ⟨hroom, hclean, rfl⟩ := h
  have hbuf := getLsbD_or_shiftLeft_bit hroom hclean v
  have hbits : byteBits (pk.bitbuf ||| (BitVec.ofNat 8 (v % 2) <<< pk.bitcnt)) (pk.bitcnt + 1) =
      byteBits pk.bitbuf pk.bitcnt ++ [v.testBit 0] := by
    simp only [byteBits, List.range_succ, List.map_append, List.map_cons, List.map_nil, hbuf, if_true]
    congr 1
    exact List.map_congr_left fun i hi => if_neg (List.mem_range.1 hi).ne
  unfold putBit
  simp only
  split
  case isTrue hfull =>
    refine ⟨by simp, by simp, ?_⟩
    rw [hfull] at hbits
    simp [bitsOf_append_singleton, hbits]
  case isFalse hmore =>
    refine ⟨by simp only; omega, fun i hi => ?_, ?_⟩
    · simp only at hi ⊢
      rw [hbuf, if_neg (by omega), hclean i (by omega)]
    · simp [hbits]

theorem putBits_holds {pk : Packer} {bits : List Bool} (h : pk.Holds bits) (v k : Nat) :
    (putBits pk v k).Holds (bits ++ lsbBits v k) := by
  induction k generalizing pk bits v with
  | zero => simpa [putBits] using h
  | succ k ih =>
    rw [lsbBits_succ, ← List.singleton_append, ← List.append_assoc]
    exact ih (putBit_holds h v) (v / 2)

/-- Flushing pads the pending byte with zeros (42_deflate.md R233). -/
theorem flushToByte_holds {pk : Packer} {bits : List Bool} (h : pk.Holds bits) :
    ∃ pad < 8, bitsOf (flushToByte pk).out = bits ++ List.replicate pad false := by
  obtain ⟨hroom, hclean, rfl⟩ := h
  unfold flushToByte
  split
  case isFalse hnone => exact ⟨0, by omega, by simp [show pk.bitcnt = 0 by omega]⟩
  case isTrue hsome =>
    refine ⟨8 - pk.bitcnt, by omega, ?_⟩
    have hbits : byteBits pk.bitbuf 8 = byteBits pk.bitbuf pk.bitcnt ++ List.replicate (8 - pk.bitcnt) false := by
      conv_lhs => rw [show 8 = pk.bitcnt + (8 - pk.bitcnt) by omega]
      simp only [byteBits, List.range_add, List.map_append, List.map_map]
      simp [Function.comp_def, hclean]
    simp [bitsOf_append_singleton, hbits]

/-! #### The rows of the tables -/

theorem largestIndex_le (bases : List Nat) (x top : Nat) : largestIndex bases x top ≤ top := by
  fun_induction largestIndex bases x top <;> omega

theorem getD_largestIndex_le {bases : List Nat} {x : Nat} (h0 : bases.getD 0 0 ≤ x) (top : Nat) :
    bases.getD (largestIndex bases x top) 0 ≤ x := by
  fun_induction largestIndex bases x top with
  | case1 => exact h0
  | case2 top hle => exact hle
  | case3 top hlt ih => exact ih

theorem lt_getD_largestIndex_succ {bases : List Nat} {x top : Nat} (h : largestIndex bases x top < top) :
    x < bases.getD (largestIndex bases x top + 1) 0 := by
  fun_induction largestIndex bases x top with
  | case1 => omega
  | case2 top hle => omega
  | case3 top hlt ih =>
    rcases (largestIndex_le bases x top).lt_or_eq with hi | hi
    · exact ih hi
    · rw [hi]; omega

/-- Over rising bases, the largest index whose base is at most `x` is one less than the number of such bases. -/
theorem largestIndex_eq_countP {bases : List Nat} (hrise : bases.Pairwise (· < ·)) (x : Nat) {top : Nat}
    (htop : top < bases.length) :
    largestIndex bases x top = (bases.take (top + 1)).countP (· ≤ x) - 1 := by
  induction top with
  | zero =>
    have := List.countP_le_length (p := fun b => decide (b ≤ x)) (l := bases.take 1)
    simp only [List.length_take] at this
    simp only [largestIndex, Nat.zero_add]
    omega
  | succ top ih =>
    have hget : bases.getD (top + 1) 0 = bases[top + 1] := List.getD_eq_getElem _ _ htop
    rw [largestIndex, hget, List.take_succ_eq_append_getElem htop, List.countP_append]
    split
    case isTrue hle =>
      have hall : (bases.take (top + 1)).countP (· ≤ x) = (bases.take (top + 1)).length := by
        refine List.countP_eq_length.2 fun b hb => ?_
        obtain ⟨i, hi, rfl⟩ := List.mem_take_iff_getElem.1 hb
        have := List.pairwise_iff_getElem.1 hrise i (top + 1) (by omega) htop (by omega)
        simp only [decide_eq_true_eq]
        omega
      rw [hall, List.length_take]
      simp only [List.countP_singleton, decide_eq_true_eq, hle, if_true]
      omega
    case isFalse hlt => simpa [hlt] using ih (by omega)

/-- The model's search for a row finds the row of the spec's table. -/
theorem largestIndex_eq_rowOf {rows : List (Nat × Nat)} (hrise : (rows.map Prod.snd).Pairwise (· < ·))
    {top : Nat} (htop : top + 1 = rows.length) (x : Nat) :
    largestIndex (rows.map Prod.snd) x top = rowOf rows x := by
  rw [largestIndex_eq_countP hrise x (by simp; omega), List.take_of_length_le (by simp; omega), List.countP_map, rowOf,
    List.countP_eq_length_filter]
  rfl

theorem lengthIndex_eq_rowOf (len : Nat) : lengthIndex len = rowOf lengthRows len :=
  largestIndex_eq_rowOf (rows := lengthRows) (by decide) (by decide) len

theorem distIndex_eq_rowOf (dist : Nat) : distIndex dist = rowOf distRows dist :=
  largestIndex_eq_rowOf (rows := distRows) (by decide) (by decide) dist

theorem getD_map_snd (rows : List (Nat × Nat)) (i : Nat) : (rows.map Prod.snd).getD i 0 = rowBase rows i := by
  simp only [List.getD_eq_getElem?_getD, List.getElem?_map, rowBase]
  cases rows[i]? <;> rfl

theorem getD_map_fst (rows : List (Nat × Nat)) (i : Nat) : (rows.map Prod.fst).getD i 0 = rowExtra rows i := by
  simp only [List.getD_eq_getElem?_getD, List.getElem?_map, rowExtra]
  cases rows[i]? <;> rfl

theorem lengthBase_getD (i : Nat) : lengthBase.getD i 0 = rowBase lengthRows i := getD_map_snd lengthRows i

theorem lengthExtra_getD (i : Nat) : lengthExtra.getD i 0 = rowExtra lengthRows i := getD_map_fst lengthRows i

theorem distBase_getD (i : Nat) : distBase.getD i 0 = rowBase distRows i := getD_map_snd distRows i

theorem distExtra_getD (i : Nat) : distExtra.getD i 0 = rowExtra distRows i := getD_map_fst distRows i

/-! #### The symbols -/

/-- The model's code of a symbol, by its four ranges (30_encoding.md R125). -/
theorem msbBits_fixedCode (sym : Nat) : msbBits (fixedCode sym).1 (fixedCode sym).2 = codeBits sym := by
  unfold fixedCode codeBits
  simp only [← Nat.lt_succ_iff]
  split_ifs <;> rfl

theorem emitCode_holds {pk : Packer} {bits : List Bool} (h : pk.Holds bits) (sym : Nat) :
    (emitCode pk sym).Holds (bits ++ codeBits sym) := by
  rw [← msbBits_fixedCode, ← lsbBits_revBits]
  exact putBits_holds h _ _

theorem emitLength_holds {pk : Packer} {bits : List Bool} (h : pk.Holds bits) (len : Nat) :
    (emitLength pk len).Holds (bits ++ codeBits (257 + rowOf lengthRows len) ++ extraBits lengthRows len) := by
  simp only [emitLength, lengthBase_getD, lengthExtra_getD, lengthIndex_eq_rowOf]
  exact putBits_holds (emitCode_holds h _) _ _

theorem emitDistance_holds {pk : Packer} {bits : List Bool} (h : pk.Holds bits) (dist : Nat) :
    (emitDistance pk dist).Holds (bits ++ msbBits (rowOf distRows dist) 5 ++ extraBits distRows dist) := by
  simp only [emitDistance, distBase_getD, distExtra_getD, distIndex_eq_rowOf, ← lsbBits_revBits]
  exact putBits_holds (putBits_holds h _ _) _ _

theorem emitSym_holds {pk : Packer} {bits : List Bool} (h : pk.Holds bits) (y : Sym) :
    (emitSym pk y).Holds (bits ++ symBits y) := by
  cases y with
  | lit b => exact emitCode_holds h b.toNat
  | pair len dist =>
    simp only [emitSym, symBits, ← List.append_assoc]
    exact emitDistance_holds (emitLength_holds h len) dist

theorem foldl_emitSym_holds {pk : Packer} {bits : List Bool} (h : pk.Holds bits) (syms : List Sym) :
    (syms.foldl emitSym pk).Holds (bits ++ syms.flatMap symBits) := by
  induction syms generalizing pk bits with
  | nil => simpa using h
  | cons y syms ih =>
    rw [List.foldl_cons, List.flatMap_cons, ← List.append_assoc]
    exact ih (emitSym_holds h y)

/-- The final-block bit and the two bits of the block type (42_deflate.md R211). -/
theorem packHeader_initPacker_holds : (packHeader initPacker).Holds [true, true, false] :=
  putBits_holds (putBits_holds initPacker_holds 1 1) 1 2

/-- The bits of a block: header, symbols, end of block, padding (30_encoding.md R124). -/
theorem bitsOf_packBlock (syms : List Sym) :
    ∃ pad < 8, bitsOf (packBlock syms).out =
      [true, true, false] ++ syms.flatMap symBits ++ codeBits 256 ++ List.replicate pad false :=
  flushToByte_holds (emitCode_holds (foldl_emitSym_holds packHeader_initPacker_holds syms) 256)

end Sys2Proof.Machine
end

section
/-! ### Reading the bits of a block back (30_encoding.md R124 to R131)

Each reader of the reference decoder undoes the field it is given, whatever bits follow. -/

namespace Sys2Proof.Reference

open Sys2Proof.Machine

/-! #### Fields -/

/-- Reading the first `j` bits of a code of `j + m` bits gives its `j` high bits. -/
theorem readMsb_msbBits_add (j m acc v : Nat) (rest : List Bool) :
    readMsb j acc (msbBits v (j + m) ++ rest) = some (acc * 2 ^ j + v / 2 ^ m % 2 ^ j, msbBits v m ++ rest) := by
  induction j generalizing acc with
  | zero => simp [readMsb, Nat.mod_one]
  | succ j ih =>
    have hmod : v / 2 ^ m % 2 ^ (j + 1) = v / 2 ^ m % 2 ^ j + 2 ^ j * (v / 2 ^ (j + m) % 2) := by
      rw [Nat.mod_pow_succ, Nat.div_div_eq_div_mul, ← Nat.pow_add, Nat.add_comm m j]
    rw [show j + 1 + m = (j + m) + 1 by omega, msbBits_succ, List.cons_append, readMsb, ih, Nat.toNat_testBit, hmod]
    simp only [Option.some.injEq, Prod.mk.injEq, and_true]
    ring

theorem readMsb_msbBits {k v : Nat} (hv : v < 2 ^ k) (rest : List Bool) :
    readMsb k 0 (msbBits v k ++ rest) = some (v, rest) := by
  simpa [Nat.mod_eq_of_lt hv] using readMsb_msbBits_add k 0 0 v rest

theorem readLsb_lsbBits (k i v : Nat) (rest : List Bool) :
    readLsb k i (lsbBits v k ++ rest) = some (v % 2 ^ k * 2 ^ i, rest) := by
  induction k generalizing i v with
  | zero => simp [readLsb, Nat.mod_one]
  | succ k ih =>
    have hmod : v % 2 ^ (k + 1) = v % 2 + 2 * (v / 2 % 2 ^ k) := by rw [Nat.pow_succ', Nat.mod_mul]
    rw [lsbBits_succ, List.cons_append, readLsb, ih, Option.map_some, Nat.toNat_testBit, hmod, pow_zero, Nat.div_one]
    simp only [Option.some.injEq, Prod.mk.injEq, and_true]
    ring

/-! #### Literal/length symbols -/

theorem readSymbol_of_seven_bits {v : Nat} (hv : v ≤ 0x17) (rest : List Bool) :
    readSymbol (msbBits v 7 ++ rest) = some (256 + v, rest) := by
  simp only [readSymbol, readMsb_msbBits (show v < 2 ^ 7 by omega), hv, if_true]

theorem readSymbol_of_eight_bits {v : Nat} (hlo : 0x30 ≤ v) (hhi : v ≤ 0xC7) (rest : List Bool) :
    readSymbol (msbBits v 8 ++ rest) = some (if v ≤ 0xBF then v - 0x30 else 280 + (v - 0xC0), rest) := by
  have h7 := readMsb_msbBits_add 7 1 0 v rest
  have h8 := readMsb_msbBits (show v < 2 ^ 8 by omega) rest
  have hnot7 : ¬ 0 * 2 ^ 7 + v / 2 ^ 1 % 2 ^ 7 ≤ 0x17 := by omega
  simp only [readSymbol, h7, h8, hnot7, hhi, if_true, if_false]
  split <;> rfl

theorem readSymbol_of_nine_bits {v : Nat} (hlo : 0x190 ≤ v) (hhi : v < 2 ^ 9) (rest : List Bool) :
    readSymbol (msbBits v 9 ++ rest) = some (144 + (v - 0x190), rest) := by
  have h7 := readMsb_msbBits_add 7 2 0 v rest
  have h8 := readMsb_msbBits_add 8 1 0 v rest
  have hnot7 : ¬ 0 * 2 ^ 7 + v / 2 ^ 2 % 2 ^ 7 ≤ 0x17 := by omega
  have hnot8 : ¬ 0 * 2 ^ 8 + v / 2 ^ 1 % 2 ^ 8 ≤ 0xBF := by omega
  have hnot8' : ¬ 0 * 2 ^ 8 + v / 2 ^ 1 % 2 ^ 8 ≤ 0xC7 := by omega
  simp only [readSymbol, h7, h8, hnot7, hnot8, hnot8', readMsb_msbBits hhi, if_false, Option.map_some]

/-- The four code ranges are told apart by their first bits (30_encoding.md R125). -/
theorem readSymbol_codeBits {sym : Nat} (hsym : sym < 288) (rest : List Bool) :
    readSymbol (codeBits sym ++ rest) = some (sym, rest) := by
  unfold codeBits
  split_ifs with h1 h2 h3
  · rw [readSymbol_of_eight_bits (by omega) (by omega), if_pos (by omega), Nat.add_sub_cancel_left]
  · rw [readSymbol_of_nine_bits (by omega) (by omega), Nat.add_sub_cancel_left, Nat.add_sub_cancel' (by omega)]
  · rw [readSymbol_of_seven_bits (by omega), Nat.add_sub_cancel' (by omega)]
  · rw [readSymbol_of_eight_bits (by omega) (by omega), if_neg (by omega), Nat.add_sub_cancel_left,
      Nat.add_sub_cancel' (by omega)]

/-! #### Lengths and distances -/

/-- The values from `rowBase rows 0` to `last` are covered: the extra bits of each row reach up to the next row's base,
those of the last row beyond `last`. -/
def RowsCover (rows : List (Nat × Nat)) (last : Nat) : Prop :=
  ∀ i < rows.length, (if i + 1 < rows.length then rowBase rows (i + 1) else last + 1) ≤
    rowBase rows i + 2 ^ rowExtra rows i

theorem lengthRows_cover : RowsCover lengthRows 258 := by unfold RowsCover; decide

theorem distRows_cover : RowsCover distRows 32768 := by unfold RowsCover; decide

/-- A value lies in its row: it is not below the row's base, and its extra bits hold the difference. -/
structure InRow (rows : List (Nat × Nat)) (x : Nat) : Prop where
  lt_length : rowOf rows x < rows.length
  base_le : rowBase rows (rowOf rows x) ≤ x
  sub_lt : x - rowBase rows (rowOf rows x) < 2 ^ rowExtra rows (rowOf rows x)

theorem inRow_of_cover {rows : List (Nat × Nat)} {last x : Nat} (hrise : (rows.map Prod.snd).Pairwise (· < ·))
    (hne : 0 < rows.length) (hcover : RowsCover rows last) (hlo : rowBase rows 0 ≤ x) (hhi : x ≤ last) :
    InRow rows x := by
  have htop : rows.length - 1 + 1 = rows.length := by omega
  have hle := largestIndex_le (rows.map Prod.snd) x (rows.length - 1)
  have hbase := getD_largestIndex_le (bases := rows.map Prod.snd) (x := x) (by rwa [getD_map_snd])
    (rows.length - 1)
  have hnext := lt_getD_largestIndex_succ (bases := rows.map Prod.snd) (x := x) (top := rows.length - 1)
  rw [largestIndex_eq_rowOf hrise htop x] at hle hbase hnext
  rw [getD_map_snd] at hbase hnext
  have hrow : rowOf rows x < rows.length := by omega
  have hreach := hcover _ hrow
  refine ⟨hrow, hbase, ?_⟩
  split at hreach
  · have := hnext (by omega)
    omega
  · omega

theorem inRow_lengthRows {len : Nat} (hlo : 3 ≤ len) (hhi : len ≤ 258) : InRow lengthRows len :=
  inRow_of_cover (by decide) (by decide) lengthRows_cover hlo hhi

theorem inRow_distRows {dist : Nat} (hlo : 1 ≤ dist) (hhi : dist ≤ 32768) : InRow distRows dist :=
  inRow_of_cover (by decide) (by decide) distRows_cover hlo hhi

theorem InRow.readExtra {rows : List (Nat × Nat)} {x : Nat} (h : InRow rows x) (rest : List Bool) :
    readExtra rows (rowOf rows x) (extraBits rows x ++ rest) = some (x, rest) := by
  rw [Reference.readExtra, extraBits, readLsb_lsbBits, Nat.mod_eq_of_lt h.sub_lt, Option.map_some, pow_zero,
    Nat.mul_one, Nat.add_sub_cancel' h.base_le]

/-! #### The symbols of a block -/

/-- A pair's length and distance are among those the tables hold (30_encoding.md R127, R128). -/
def LegalSym : Sym → Prop
  | .lit _ => True
  | .pair len dist => 3 ≤ len ∧ len ≤ 258 ∧ 1 ≤ dist ∧ dist ≤ 32768

theorem legalSym_of_expandSyms {syms : List Sym} {out res : List Byte} (h : expandSyms syms out = some res) :
    ∀ y ∈ syms, LegalSym y := by
  fun_induction expandSyms syms out with
  | case1 => simp
  | case2 out b rest ih => exact List.forall_mem_cons.2 ⟨trivial, ih h⟩
  | case3 out len dist rest hpair ih =>
    obtain ⟨h3, h258, h1, hwindow, -⟩ := hpair
    exact List.forall_mem_cons.2 ⟨⟨h3, h258, h1, hwindow⟩, ih h⟩
  | case4 => simp at h

/-! What the decoder's loop does with a symbol, by its three kinds. (`readBlock` has no equation lemma: Lean, making
one, runs out of depth on a table row at an unknown index, so these unfold the recursion itself.) -/

theorem readBlock_of_lit {fuel sym : Nat} {bits rest : List Bool} (h : readSymbol bits = some (sym, rest))
    (hsym : sym ≤ 255) :
    readBlock (fuel + 1) bits = (readBlock fuel rest).map fun r => (.lit (BitVec.ofNat 8 sym) :: r.1, r.2) := by
  delta readBlock
  simp only [Nat.brecOn.go, readBlock._f, h, hsym, if_true]

theorem readBlock_of_end {fuel : Nat} {bits rest : List Bool} (h : readSymbol bits = some (256, rest)) :
    readBlock (fuel + 1) bits = some ([], rest) := by
  delta readBlock
  simp only [readBlock._f, h]
  rfl

theorem readBlock_of_pair {fuel i len j dist : Nat} {bits rest rest1 rest2 rest3 : List Bool}
    (hsym : readSymbol bits = some (257 + i, rest)) (hi : i ≤ 28)
    (hlen : readExtra lengthRows i rest = some (len, rest1)) (hdsym : readMsb 5 0 rest1 = some (j, rest2))
    (hj : j ≤ 29) (hdist : readExtra distRows j rest2 = some (dist, rest3)) :
    readBlock (fuel + 1) bits = (readBlock fuel rest3).map fun r => (.pair len dist :: r.1, r.2) := by
  have hnotLit : ¬ 257 + i ≤ 255 := by omega
  have hnotEnd : 257 + i ≠ 256 := by omega
  have hlegal : ¬ 285 < 257 + i := by omega
  delta readBlock
  simp only [Nat.brecOn.go, readBlock._f, hsym, hnotLit, hnotEnd, hlegal, Nat.add_sub_cancel_left, hlen, hdsym,
    Nat.not_lt.2 hj, hdist, if_false]

theorem readBlock_endOfBlock (fuel : Nat) (rest : List Bool) :
    readBlock (fuel + 1) (codeBits 256 ++ rest) = some ([], rest) :=
  readBlock_of_end (readSymbol_codeBits (by decide) rest)

theorem readBlock_symBits {y : Sym} (hy : LegalSym y) (fuel : Nat) (rest : List Bool) :
    readBlock (fuel + 1) (symBits y ++ rest) = (readBlock fuel rest).map fun r => (y :: r.1, r.2) := by
  cases y with
  | lit b =>
    have hb : b.toNat < 256 := b.isLt
    have hread := readBlock_of_lit (fuel := fuel) (readSymbol_codeBits (by omega) rest) (Nat.le_of_lt_succ hb)
    rwa [BitVec.ofNat_toNat, BitVec.setWidth_eq] at hread
  | pair len dist =>
    obtain ⟨h3, h258, h1, hwindow⟩ := hy
    have hlen := inRow_lengthRows h3 h258
    have hdist := inRow_distRows h1 hwindow
    have hi : rowOf lengthRows len ≤ 28 := Nat.le_of_lt_succ hlen.lt_length
    have hj : rowOf distRows dist ≤ 29 := Nat.le_of_lt_succ hdist.lt_length
    simp only [symBits, List.append_assoc]
    exact readBlock_of_pair (readSymbol_codeBits (by omega) _) hi (hlen.readExtra _)
      (readMsb_msbBits (by omega) _) hj (hdist.readExtra rest)

theorem readBlock_flatMap_symBits {syms : List Sym} (hlegal : ∀ y ∈ syms, LegalSym y) {fuel : Nat}
    (hfuel : syms.length < fuel) (rest : List Bool) :
    readBlock fuel (syms.flatMap symBits ++ (codeBits 256 ++ rest)) = some (syms, rest) := by
  induction syms generalizing fuel with
  | nil =>
    obtain ⟨fuel, rfl⟩ := Nat.exists_eq_succ_of_ne_zero (Nat.ne_of_gt hfuel)
    exact readBlock_endOfBlock fuel rest
  | cons y syms ih =>
    obtain ⟨hy, hsyms⟩ := List.forall_mem_cons.1 hlegal
    obtain ⟨fuel, rfl⟩ := Nat.exists_eq_succ_of_ne_zero (Nat.ne_of_gt ((Nat.zero_le _).trans_lt hfuel))
    rw [List.flatMap_cons, List.append_assoc, Nat.succ_eq_add_one, readBlock_symBits hy,
      ih hsyms (Nat.lt_of_succ_lt_succ hfuel), Option.map_some]

theorem length_codeBits_pos (sym : Nat) : 0 < (codeBits sym).length := by
  unfold codeBits
  split_ifs <;> simp

theorem length_symBits_pos (y : Sym) : 0 < (symBits y).length := by
  cases y with
  | lit b => exact length_codeBits_pos b.toNat
  | pair len dist =>
    have := length_codeBits_pos (257 + rowOf lengthRows len)
    simp only [symBits, List.length_append]
    omega

/-- Every symbol takes a bit or more, so the decoder's fuel, the number of bits, is enough. -/
theorem length_le_length_flatMap_symBits (syms : List Sym) : syms.length ≤ (syms.flatMap symBits).length := by
  induction syms with
  | nil => simp
  | cons y syms ih =>
    have := length_symBits_pos y
    simp only [List.flatMap_cons, List.length_append, List.length_cons]
    omega

/-- The decoder on the bits of a block of legal symbols expands these symbols. -/
theorem inflate_of_bitsOf_eq {bytes : List Byte} {syms : List Sym} {pad : Nat} (hpad : pad < 8)
    (hlegal : ∀ y ∈ syms, LegalSym y)
    (hbits : bitsOf bytes =
      [true, true, false] ++ syms.flatMap symBits ++ codeBits 256 ++ List.replicate pad false) :
    inflate bytes = expandSyms syms [] := by
  have hfuel : syms.length < (syms.flatMap symBits ++ (codeBits 256 ++ List.replicate pad false)).length := by
    have h1 := length_le_length_flatMap_symBits syms
    have h2 := length_codeBits_pos 256
    simp only [List.length_append]
    omega
  have hread := readBlock_flatMap_symBits hlegal hfuel (List.replicate pad false)
  simp only [List.append_assoc, List.cons_append, List.nil_append] at hbits
  simp only [inflate, hbits, hread]
  simp [hpad]

/-- Settles O55: the bits of the packed parse are read back as its symbols, and these expand to the input. -/
theorem inflateInvertsDeflate : Obligations.InflateInvertsDeflate := by
  unfold Obligations.InflateInvertsDeflate
  intro input
  have hexpand := expandSyms_parse input
  obtain ⟨pad, hpad, hbits⟩ := bitsOf_packBlock (parse input).1
  rw [deflateBlock_bytes, inflate_of_bitsOf_eq hpad (legalSym_of_expandSyms hexpand) hbits, hexpand]

end Sys2Proof.Reference
end

section
/-! ### What a command can do (40_control.md R163 to R167)

A command writes its output and the registers of its rule, and ends with a completion. No command touches what `Control`
lists. -/

namespace Sys2Proof.Machine

/-- The part of the state that belongs to the host, the pin and the platform (10_state.md R42 to R48, R58). -/
structure Control where
  dmemLog : Fin 29
  latch : Latch
  ie : Bool
  ovr : Bool
  cmd : Word
  srcAddr : Word
  srcLen : Word
  dstAddr : Word
  dstCap : Word
  inReset : Bool
  regRdata : Word
  memRdata : Word
  inbox : List Event

/-- The control part of a state. -/
def State.control (s : State) : Control where
  dmemLog := s.dmemLog
  latch := s.latch
  ie := s.ie
  ovr := s.ovr
  cmd := s.cmd
  srcAddr := s.srcAddr
  srcLen := s.srcLen
  dstAddr := s.dstAddr
  dstCap := s.dstCap
  inReset := s.inReset
  regRdata := s.regRdata
  memRdata := s.memRdata
  inbox := s.inbox

theorem latch_eq_of_control {s t : State} (h : t.control = s.control) : t.latch = s.latch := congrArg Control.latch h

theorem dmemLog_eq_of_control {s t : State} (h : t.control = s.control) : t.dmemLog = s.dmemLog :=
  congrArg Control.dmemLog h

theorem inReset_eq_of_control {s t : State} (h : t.control = s.control) : t.inReset = s.inReset :=
  congrArg Control.inReset h

/-- The internal tables, the packer's count and the internal Adler pair are in their form (10_state.md R64 to R66,
43_zlib.md R260). -/
def State.InternalForm (s : State) : Prop :=
  TablesForm s.tables ∧ s.bitcnt < 8 ∧ s.za < Config.adlerMod ∧ s.zb < Config.adlerMod

/-- What a command has done from `s` when it is about to end in `u`. -/
structure Worked (s u : State) : Prop where
  control : u.control = s.control
  dmem : u.dmem = s.dmem ∨ s.RegionsOk ∧
    ∃ l : List Byte, l.length ≤ s.latch.cap.toNat ∧ u.dmem = Memory.writeBytes s.dmem s.latch.dst.toNat l
  internal : s.InternalForm → u.InternalForm

/-- The two ways a command ends (40_control.md R164, R165). -/
inductive CommandEnds (s : State) : State → Prop
  | complete {u : State} (h : Worked s u) : CommandEnds s u.complete
  | raiseErr {u : State} {e : Err} (info : Word) (h : Worked s u) (he : e ≠ .invalidOffset) :
    CommandEnds s (u.raiseErr e info)

theorem Worked.refl (s : State) : Worked s s := ⟨rfl, .inl rfl, id⟩

theorem Worked.congr {s u v : State} (h : Worked s u) (hc : v.control = u.control) (hd : v.dmem = u.dmem)
    (hi : u.InternalForm → v.InternalForm) : Worked s v where
  control := hc.trans h.control
  dmem := by rw [hd]; exact h.dmem
  internal := hi ∘ h.internal

theorem Worked.clearOutLen (s : State) : Worked s s.clearOutLen := (Worked.refl s).congr rfl rfl id

theorem Worked.drawCounts {s u : State} (h : Worked s u) : Worked s u.drawCounts := h.congr rfl rfl id

theorem Worked.keepDeflateTables {s u : State} (h : Worked s u) (input : List Byte) :
    Worked s (u.keepTables (deflateBlock input)) :=
  h.congr rfl rfl fun ⟨_, _, hz⟩ => ⟨deflateBlock_form input, by simp [deflateBlock_bitcnt], hz⟩

/-- Writing at most CAP bytes at DST, when the regions are sound and DMEM is still untouched. -/
theorem Worked.write {s u v : State} {l : List Byte} (hr : s.RegionsOk) (h : Worked s u) (hu : u.dmem = s.dmem)
    (hc : v.control = u.control) (hi : u.InternalForm → v.InternalForm) (hl : l.length ≤ u.latch.cap.toNat)
    (hd : v.dmem = Memory.writeBytes u.dmem u.latch.dst.toNat l) : Worked s v where
  control := hc.trans h.control
  dmem := by
    rw [latch_eq_of_control h.control] at hl hd
    exact .inr ⟨hr, l, hl, by rw [hd, hu]⟩
  internal := hi ∘ h.internal

/-- A command behind the common prologue: an error of the region checks, or the command's rule. -/
theorem withPrologue_ends {s : State} {c : CmdClass} {onErr rule : State → State}
    (herr : Worked s (onErr s.clearOutLen))
    (hrule : (c = .transform → s.RegionsOk) → CommandEnds s (rule s.clearOutLen)) :
    CommandEnds s (withPrologue c onErr rule s) := by
  cases c with
  | control => exact hrule (by simp)
  | checksum =>
    by_cases hs : s.SrcOk
    · rw [withPrologue_checksum_of_srcOk hs]
      exact hrule (by simp)
    · rw [withPrologue_checksum_of_not_srcOk hs]
      exact .raiseErr 0 herr (by decide)
  | transform =>
    rcases withPrologue_transform_cases onErr rule s with ⟨hr, h⟩ | ⟨_, e, info, he, h⟩
    · rw [h]
      exact hrule fun _ => hr
    · rw [h]
      exact .raiseErr info herr (by rcases he with rfl | rfl <;> decide)

theorem finishStream_ends {s u : State} {l : List Byte} {onOk onErr : State → State} (hr : s.RegionsOk)
    (h : Worked s u) (hu : u.dmem = s.dmem) (hok : ∀ v, Worked s v → Worked s (onOk v))
    (herr : ∀ v, Worked s v → Worked s (onErr v)) : CommandEnds s (u.finishStream l onOk onErr) := by
  have hw : Worked s (u.writePrefix l) := .write hr h hu rfl id (List.length_take_le _ l) rfl
  rcases Nat.lt_or_ge u.latch.cap.toNat l.length with hlt | hle
  · rw [finishStream_of_lt hlt]
    exact .raiseErr _ (herr _ hw) (by decide)
  · rw [finishStream_of_le hle]
    exact .complete (hok _ hw)

/-- The state the decoder leaves before it ends. -/
def State.storeDecoded (s : State) (d : Decoded) : State :=
  { s with
    dmem := Memory.writeBytes s.dmem s.latch.dst.toNat d.out
    outLen := BitVec.ofNat 32 d.out.length
    hdrSizeLo := BitVec.ofNat 32 d.hdr
    hdrSizeHi := BitVec.ofNat 32 (d.hdr / 2 ^ 32) }

theorem finishDecode_of_none {s : State} {d : Decoded} (h : d.err = none) :
    s.finishDecode d = (s.storeDecoded d).complete := by simp [State.finishDecode, State.storeDecoded, h]

theorem finishDecode_of_some {s : State} {d : Decoded} {e : Err} {info : Nat} (h : d.err = some (e, info)) :
    s.finishDecode d = (s.storeDecoded d).raiseErr e (BitVec.ofNat 32 info) := by
  simp [State.finishDecode, State.storeDecoded, h]

theorem finishDecode_ends {s u : State} (hr : s.RegionsOk) (h : Worked s u) (hu : u.dmem = s.dmem)
    (input : List Byte) : CommandEnds s (u.finishDecode (rleDecode input u.latch.cap.toNat)) := by
  obtain ⟨hlen, hlegal⟩ := rleDecode_bound input u.latch.cap.toNat
  have hw : Worked s (u.storeDecoded (rleDecode input u.latch.cap.toNat)) := .write hr h hu rfl id hlen rfl
  cases he : (rleDecode input u.latch.cap.toNat).err with
  | none =>
    rw [finishDecode_of_none he]
    exact .complete hw
  | some p =>
    rw [finishDecode_of_some he]
    exact .raiseErr _ hw (hlegal _ _ he)

theorem zlibKept_worked {s u : State} (h : Worked s u) : Worked s (zlibKept u) :=
  h.congr rfl rfl fun _ => ⟨zlibKept_form u, by simp [zlibKept_bitcnt], zlibKept_lt u⟩

theorem deflateRule_ends {s u : State} (hr : s.RegionsOk) (h : Worked s u) (hu : u.dmem = s.dmem) :
    CommandEnds s (deflateRule u) := by
  unfold deflateRule
  exact finishStream_ends hr (h.keepDeflateTables _) hu (fun _ hv => hv.congr rfl rfl id) fun _ hv => hv.drawCounts

theorem zlibRule_ends {s u : State} (hr : s.RegionsOk) (h : Worked s u) (hu : u.dmem = s.dmem) :
    CommandEnds s (zlibRule u) := by
  unfold zlibRule
  exact finishStream_ends hr (zlibKept_worked h) hu (fun _ hv => hv.congr rfl rfl id) fun _ hv => hv.drawCounts

/-- What every command does: work on its output and its own registers, and one of the two completions. -/
theorem exec_ends {i : Instr} {s t : State} (h : exec i s = .next t) : CommandEnds s t := by
  have hclear := Worked.clearOutLen s
  cases i with
  | nop => cases h; exact .complete (.refl s)
  | rleEnc =>
    cases h
    exact withPrologue_ends hclear fun hr =>
      finishStream_ends (hr rfl) (hclear.congr rfl rfl id) rfl (fun _ => id) fun _ => id
  | rleDec =>
    cases h
    exact withPrologue_ends hclear fun hr => finishDecode_ends (hr rfl) hclear rfl _
  | deflate =>
    cases h
    exact withPrologue_ends hclear.drawCounts fun hr => deflateRule_ends (hr rfl) hclear rfl
  | zlib =>
    cases h
    exact withPrologue_ends hclear.drawCounts fun hr => zlibRule_ends (hr rfl) hclear rfl
  | crc32Start => cases h; exact withPrologue_ends hclear fun _ => .complete (hclear.congr rfl rfl id)
  | crc32Cont => cases h; exact withPrologue_ends hclear fun _ => .complete (hclear.congr rfl rfl id)
  | adler32Start => cases h; exact withPrologue_ends hclear fun _ => .complete (hclear.congr rfl rfl id)
  | adler32Cont => cases h; exact withPrologue_ends hclear fun _ => .complete (hclear.congr rfl rfl id)

theorem CommandEnds.control {s t : State} (h : CommandEnds s t) : t.control = s.control := by
  cases h with
  | complete h => exact h.control
  | raiseErr info h he => exact h.control

theorem CommandEnds.eng {s t : State} (h : CommandEnds s t) : t.eng = .idle := by cases h <;> rfl

theorem completeWord_ends {w : Word} {s t : State} (h : completeWord w s = .next t) : CommandEnds s t := by
  unfold completeWord at h
  split at h
  · exact exec_ends h
  · cases h
    exact .raiseErr w (.refl s) (by decide)

/-- Settles O29: a command leaves the control part as it is. -/
theorem noCommandWritesControlRegisters : Obligations.NoCommandWritesControlRegisters := by
  unfold Obligations.NoCommandWritesControlRegisters
  intro i s t h
  have hc := (exec_ends h).control
  simp only [State.control, Control.mk.injEq] at hc
  tauto

end Sys2Proof.Machine
end

section
/-! ### The result of a transform command is a function of its operands (10_state.md R72)

From two states with the same operands the prologue decides alike and the rule writes the same stream. -/

namespace Sys2Proof.Machine

/-- The bytes at DST that OUT_LEN counts (20_memory.md R88). -/
def State.output (s : State) : List Byte := Memory.readBytes s.dmem s.latch.dst.toNat s.outLen.toNat

theorem getD_output {s : State} {k : Nat} (hk : k < s.outLen.toNat) :
    s.output.getD k 0 = Memory.read s.dmem (s.latch.dst.toNat + k) :=
  Memory.getD_readBytes hk

theorem output_of_writeBytes {s : State} {m : List Host.Cell} {l : List Byte} (hl : l.length ≤ s.latch.cap.toNat)
    (hlen : s.outLen = BitVec.ofNat 32 l.length) (hd : s.dmem = Memory.writeBytes m s.latch.dst.toNat l) :
    s.output = l := by
  have hn : s.outLen.toNat = l.length := by
    rw [hlen, BitVec.toNat_ofNat]
    exact Nat.mod_eq_of_lt (hl.trans_lt s.latch.cap.isLt)
  rw [State.output, hn, hd, Memory.readBytes_writeBytes]

theorem output_writePrefix (s : State) (l : List Byte) : (s.writePrefix l).output = l.take s.latch.cap.toNat :=
  output_of_writeBytes (List.length_take_le _ l) (by simp [Nat.min_comm]) rfl

theorem output_storeDecoded {s : State} {d : Decoded} (hd : d.out.length ≤ s.latch.cap.toNat) :
    (s.storeDecoded d).output = d.out :=
  output_of_writeBytes hd rfl rfl

/-- Two states agree on what a transform command may depend on (10_state.md R72). -/
structure SameOperands (s1 s2 : State) : Prop where
  latch : s1.latch = s2.latch
  dmemLog : s1.dmemLog = s2.dmemLog
  srcBytes : s1.srcBytes = s2.srcBytes

theorem SameOperands.clearOutLen {s1 s2 : State} (h : SameOperands s1 s2) :
    SameOperands s1.clearOutLen s2.clearOutLen := ⟨h.latch, h.dmemLog, h.srcBytes⟩

theorem SameOperands.prologueError {s1 s2 : State} (h : SameOperands s1 s2) (c : CmdClass) :
    s1.prologueError c = s2.prologueError c := by
  have hsize : s1.dmemSize = s2.dmemSize := congrArg Config.dmemSizeOf h.dmemLog
  have hsrc : s1.srcInRange = s2.srcInRange := by simp only [State.srcInRange, h.latch, hsize]
  have hdst : s1.dstInRange = s2.dstInRange := by simp only [State.dstInRange, h.latch, hsize]
  have hover : s1.regionsOverlap = s2.regionsOverlap := by simp only [State.regionsOverlap, h.latch]
  cases c <;> simp only [State.prologueError, hsrc, hdst, hover]

/-- Two states show the same output. -/
def SameOutput (u1 u2 : State) : Prop := u1.outLen = u2.outLen ∧ u1.output = u2.output

theorem sameOutput_clearOutLen (s1 s2 : State) : SameOutput s1.clearOutLen s2.clearOutLen := ⟨rfl, rfl⟩

theorem sameOutput_writePrefix {u1 u2 : State} (hlatch : u1.latch = u2.latch) (l : List Byte) :
    SameOutput (u1.writePrefix l) (u2.writePrefix l) :=
  ⟨by simp [hlatch], by simp only [output_writePrefix, hlatch]⟩

theorem sameOutput_storeDecoded {u1 u2 : State} (hlatch : u1.latch = u2.latch) {d : Decoded}
    (hd : d.out.length ≤ u1.latch.cap.toNat) : SameOutput (u1.storeDecoded d) (u2.storeDecoded d) :=
  ⟨rfl, by rw [output_storeDecoded hd, output_storeDecoded (hlatch ▸ hd)]⟩

/-- Two states hold the same size field (10_state.md R57). -/
def SameSize (u1 u2 : State) : Prop := u1.hdrSizeLo = u2.hdrSizeLo ∧ u1.hdrSizeHi = u2.hdrSizeHi

/-- Two states hold the same result of the transform command `i`; `sound` says that its regions were sound. -/
structure SameResult (i : Instr) (sound : Prop) (t1 t2 : State) : Prop where
  output : SameOutput t1 t2
  errCode : t1.errCode = t2.errCode
  errInfo : t1.errInfo = t2.errInfo
  counts : t1.errCode = 0 → i = .deflate ∨ i = .zlib → t1.litCount = t2.litCount ∧ t1.matchCount = t2.matchCount
  adlerAcc : t1.errCode = 0 → i = .zlib → t1.adlerAcc = t2.adlerAcc
  size : sound → i = .rleEnc ∨ i = .rleDec → SameSize t1 t2

theorem SameResult.of_raiseErr {i : Instr} {sound : Prop} {u1 u2 : State} (e : Err) (info : Word)
    (houtput : SameOutput u1 u2) (hsize : sound → i = .rleEnc ∨ i = .rleDec → SameSize u1 u2) :
    SameResult i sound (u1.raiseErr e info) (u2.raiseErr e info) where
  output := houtput
  errCode := rfl
  errInfo := rfl
  counts h := absurd h (code_ne_zero e)
  adlerAcc h := absurd h (code_ne_zero e)
  size := hsize

theorem SameResult.of_complete_rle {i : Instr} {sound : Prop} {u1 u2 : State} (hi : i = .rleEnc ∨ i = .rleDec)
    (houtput : SameOutput u1 u2) (hsize : SameSize u1 u2) : SameResult i sound u1.complete u2.complete where
  output := houtput
  errCode := rfl
  errInfo := rfl
  counts _ h := by rcases hi with rfl | rfl <;> simp at h
  adlerAcc _ h := by rcases hi with rfl | rfl <;> simp at h
  size _ _ := hsize

theorem SameResult.of_complete_deflate {i : Instr} {sound : Prop} {u1 u2 : State} (hi : i = .deflate ∨ i = .zlib)
    (houtput : SameOutput u1 u2) (hcounts : u1.litCount = u2.litCount ∧ u1.matchCount = u2.matchCount)
    (hadler : i = .zlib → u1.adlerAcc = u2.adlerAcc) : SameResult i sound u1.complete u2.complete where
  output := houtput
  errCode := rfl
  errInfo := rfl
  counts _ _ := hcounts
  adlerAcc _ := hadler
  size _ h := by rcases hi with rfl | rfl <;> simp at h

/-- The prologue decides alike, so the results agree when the rule's do. -/
theorem sameResult_withPrologue {i : Instr} {s1 s2 : State} {onErr rule : State → State} (h : SameOperands s1 s2)
    (herr : SameOutput (onErr s1.clearOutLen) (onErr s2.clearOutLen))
    (hrule : SameResult i s1.RegionsOk (rule s1.clearOutLen) (rule s2.clearOutLen)) :
    SameResult i s1.RegionsOk (withPrologue .transform onErr rule s1) (withPrologue .transform onErr rule s2) := by
  unfold withPrologue
  rw [← h.prologueError]
  cases hp : s1.prologueError .transform with
  | none => exact hrule
  | some p =>
    refine .of_raiseErr p.1 p.2 herr fun hr => ?_
    rw [s1.prologueError_transform_of_regionsOk hr] at hp
    cases hp

/-- The capacity decides alike, so the results agree when they do for a stream that fits. -/
theorem sameResult_finishStream {i : Instr} {sound : Prop} {u1 u2 : State} {l : List Byte}
    {onOk onErr : State → State} (hlatch : u1.latch = u2.latch)
    (hok : SameResult i sound (onOk (u1.writePrefix l)).complete (onOk (u2.writePrefix l)).complete)
    (herr : SameOutput (onErr (u1.writePrefix l)) (onErr (u2.writePrefix l)))
    (hsize : i = .rleEnc ∨ i = .rleDec → SameSize (onErr (u1.writePrefix l)) (onErr (u2.writePrefix l))) :
    SameResult i sound (u1.finishStream l onOk onErr) (u2.finishStream l onOk onErr) := by
  rcases Nat.lt_or_ge u1.latch.cap.toNat l.length with hlt | hle
  · rw [finishStream_of_lt hlt, finishStream_of_lt (hlatch ▸ hlt), ← hlatch]
    exact .of_raiseErr _ _ herr fun _ => hsize
  · rw [finishStream_of_le hle, finishStream_of_le (hlatch ▸ hle)]
    exact hok

theorem sameResult_finishDecode {sound : Prop} {u1 u2 : State} (hlatch : u1.latch = u2.latch) {d : Decoded}
    (hd : d.out.length ≤ u1.latch.cap.toNat) :
    SameResult .rleDec sound (u1.finishDecode d) (u2.finishDecode d) := by
  have hout := sameOutput_storeDecoded hlatch hd
  cases he : d.err with
  | none =>
    rw [finishDecode_of_none he, finishDecode_of_none he]
    exact .of_complete_rle (.inr rfl) hout ⟨rfl, rfl⟩
  | some p =>
    rw [finishDecode_of_some he, finishDecode_of_some he]
    exact .of_raiseErr _ _ hout fun _ _ => ⟨rfl, rfl⟩

theorem sameResult_deflateRule {sound : Prop} {u1 u2 : State} (h : SameOperands u1 u2) :
    SameResult .deflate sound (deflateRule u1) (deflateRule u2) := by
  unfold deflateRule
  rw [h.srcBytes]
  have hout := sameOutput_writePrefix (u1 := u1.keepTables (deflateBlock u2.srcBytes))
    (u2 := u2.keepTables (deflateBlock u2.srcBytes)) h.latch (deflateBlock u2.srcBytes).bytes
  exact sameResult_finishStream h.latch (.of_complete_deflate (.inl rfl) hout ⟨rfl, rfl⟩ (by simp)) hout (by simp)

theorem sameResult_zlibRule {sound : Prop} {u1 u2 : State} (h : SameOperands u1 u2) :
    SameResult .zlib sound (zlibRule u1) (zlibRule u2) := by
  have hz : zlibOut u1 = zlibOut u2 := by simp only [zlibOut, h.srcBytes]
  have hout := sameOutput_writePrefix (u1 := zlibKept u1) (u2 := zlibKept u2) h.latch (zlibOut u2)
  rcases Nat.lt_or_ge u2.latch.cap.toNat (zlibOut u2).length with hlt | hle
  · rw [zlibRule_of_lt hlt, zlibRule_of_lt (by rwa [hz, h.latch]), hz, h.latch]
    exact .of_raiseErr _ _ hout (by simp)
  · rw [zlibRule_of_le hle, zlibRule_of_le (by rwa [hz, h.latch]), hz, h.srcBytes]
    exact .of_complete_deflate (.inr rfl) hout ⟨rfl, rfl⟩ fun _ => rfl

/-- The four transform commands, from two states with the same operands. -/
theorem sameResult_exec {i : Instr} {s1 s2 t1 t2 : State} (hi : commandClass i = .transform)
    (h : SameOperands s1 s2) (h1 : exec i s1 = .next t1) (h2 : exec i s2 = .next t2) :
    SameResult i s1.RegionsOk t1 t2 := by
  have hclear := sameOutput_clearOutLen s1 s2
  cases i with
  | rleEnc =>
    cases h1
    cases h2
    refine sameResult_withPrologue h hclear ?_
    rw [h.clearOutLen.srcBytes]
    exact sameResult_finishStream h.latch
      (.of_complete_rle (.inl rfl) (sameOutput_writePrefix h.latch _) ⟨congrArg Latch.n h.latch, rfl⟩)
      (sameOutput_writePrefix h.latch _) fun _ => ⟨congrArg Latch.n h.latch, rfl⟩
  | rleDec =>
    cases h1
    cases h2
    refine sameResult_withPrologue h hclear ?_
    rw [h.clearOutLen.srcBytes, ← h.clearOutLen.latch]
    exact sameResult_finishDecode h.latch (rleDecode_bound _ _).1
  | deflate =>
    cases h1
    cases h2
    exact sameResult_withPrologue h hclear (sameResult_deflateRule h.clearOutLen)
  | zlib =>
    cases h1
    cases h2
    exact sameResult_withPrologue h hclear (sameResult_zlibRule h.clearOutLen)
  | nop => cases hi
  | crc32Start => cases hi
  | crc32Cont => cases hi
  | adler32Start => cases hi
  | adler32Cont => cases hi

/-- Settles O33: the source bytes agree, so the operands do, and the result is a function of them. -/
theorem transformResultDependsOnItsOperandsOnly : Obligations.TransformResultDependsOnItsOperandsOnly := by
  unfold Obligations.TransformResultDependsOnItsOperandsOnly
  intro i s1 s2 t1 t2 hi hlatch hlog hbytes h1 h2
  have hsrc : s1.srcBytes = s2.srcBytes := by
    rw [State.srcBytes, State.srcBytes, ← hlatch]
    exact Memory.readBytes_congr hbytes
  have r := sameResult_exec hi ⟨hlatch, hlog, hsrc⟩ h1 h2
  have hl1 : t1.latch = s1.latch := latch_eq_of_control (exec_ends h1).control
  have hl2 : t2.latch = s1.latch := (latch_eq_of_control (exec_ends h2).control).trans hlatch.symm
  obtain ⟨hlen, hout⟩ := r.output
  refine ⟨hlen, r.errCode, r.errInfo, fun k hk => ?_, r.counts, r.adlerAcc, r.size⟩
  have e1 := getD_output hk
  have e2 := getD_output (hlen ▸ hk)
  rw [hl1] at e1
  rw [hl2] at e2
  rw [← e1, ← e2, hout]

end Sys2Proof.Machine
end

section
/-! ### The invariant (State.Inv)

Its parts about DMEM and the internal state, the error registers and the latch are kept one by one; a command ends Idle,
and a host step changes one of them at a time. -/

namespace Sys2Proof.Machine

/-- DMEM in form and in bounds, and the internal state in form. -/
def State.StorageForm (s : State) : Prop :=
  (Memory.wf s.dmem ∧ ∀ c ∈ s.dmem, c.1 < s.dmemSize) ∧ s.InternalForm

/-- A legal error code, and no detail word without an error. -/
def State.ErrForm (s : State) : Prop := s.errCode ∈ legalErrCodes ∧ (s.errCode = 0 → s.errInfo = 0)

/-- While Busy, what acceptance established. -/
def State.BusyForm (s : State) : Prop :=
  s.eng = .busy → (s.done = false ∧ s.errCode = 0 ∧ s.errInfo = 0) ∧
    s.latch = { cmd := s.cmd, src := s.srcAddr, n := s.srcLen, dst := s.dstAddr, cap := s.dstCap }

theorem inv_iff (s : State) :
    s.Inv ↔ s.StorageForm ∧ s.ErrForm ∧ s.BusyForm ∧ (s.inReset = true → s.resetRegisters = s) := by
  constructor
  · intro h
    exact ⟨⟨⟨h.dmemWf, h.dmemBound⟩, ⟨h.headWf, h.prevWf⟩, h.bitcntBound, h.zBound⟩,
      ⟨h.errLegal, h.errInfoZero⟩, fun hb => ⟨h.busyClear hb, h.busyLatch hb⟩, h.heldInReset⟩
  · rintro ⟨⟨⟨hwf, hbound⟩, ⟨hhead, hprev⟩, hbit, hz⟩, ⟨hlegal, hzero⟩, hbusy, hheld⟩
    exact ⟨hwf, hbound, hlegal, hzero, fun hb => (hbusy hb).1, fun hb => (hbusy hb).2, hheld, hhead, hprev, hbit,
      hz⟩

/-- Settles O57: each part is a check of one field of `State.reset`. -/
theorem resetStateMeetsInvariants : Obligations.ResetStateMeetsInvariants := by
  unfold Obligations.ResetStateMeetsInvariants
  constructor <;> decide

theorem busyForm_of_idle {s : State} (h : s.eng = .idle) : s.BusyForm := fun hb => by rw [h] at hb; cases hb

theorem errForm_of_clear {s : State} (hcode : s.errCode = 0) (hinfo : s.errInfo = 0) : s.ErrForm :=
  ⟨by rw [hcode]; decide, fun _ => hinfo⟩

/-! #### Commands -/

theorem Memory.form_writeBytes {m : List Host.Cell} {a size : Nat} {l : List Byte} (ha : a + l.length ≤ size)
    (h : Memory.wf m ∧ ∀ c ∈ m, c.1 < size) :
    Memory.wf (writeBytes m a l) ∧ ∀ c ∈ writeBytes m a l, c.1 < size :=
  ⟨wf_writeBytes a l h.1, bound_writeBytes ha h.2⟩

theorem Worked.storageForm {s u : State} (h : Worked s u) (hs : s.StorageForm) : u.StorageForm := by
  obtain ⟨hdmem, hint⟩ := hs
  refine ⟨?_, h.internal hint⟩
  have hsize : u.dmemSize = s.dmemSize := congrArg Config.dmemSizeOf (dmemLog_eq_of_control h.control)
  rw [hsize]
  rcases h.dmem with hd | ⟨⟨_, hdst, _⟩, l, hl, hd⟩
  · rw [hd]
    exact hdmem
  · rw [hd]
    exact Memory.form_writeBytes (by omega) hdmem

theorem CommandEnds.storageForm {s t : State} (h : CommandEnds s t) (hs : s.StorageForm) : t.StorageForm := by
  cases h with
  | complete h => exact h.storageForm hs
  | raiseErr info h he => exact h.storageForm hs

theorem CommandEnds.errForm {s t : State} (h : CommandEnds s t) : t.ErrForm := by
  cases h with
  | complete h => exact errForm_of_clear rfl rfl
  | raiseErr info h he => exact ⟨code_legal he, fun h0 => absurd h0 (code_ne_zero _)⟩

theorem State.Inv.inReset_of_busy {s : State} (h : s.Inv) (hb : s.eng = .busy) : s.inReset = false := by
  by_contra hr
  have := h.heldInReset (by simpa using hr)
  rw [← this] at hb
  cases hb

theorem CommandEnds.inv {s t : State} (h : CommandEnds s t) (hs : s.Inv) (hb : s.eng = .busy) : t.Inv := by
  have hr : t.inReset = false := (inReset_eq_of_control h.control).trans (hs.inReset_of_busy hb)
  exact (inv_iff t).2 ⟨h.storageForm ((inv_iff s).1 hs).1, h.errForm, busyForm_of_idle h.eng, by simp [hr]⟩

theorem engineStep_inv {s t : State} (hs : s.Inv) (h : engineStep s = .next t) : t.Inv := by
  unfold engineStep at h
  split at h
  · exact (completeWord_ends h).inv hs ‹_›
  · cases h
    exact hs

/-! #### Resets -/

theorem abort_storageForm {s : State} (hs : s.StorageForm) : s.abort.StorageForm := by
  rcases abort_cases s with h | ⟨⟨_, hdst, _⟩, l, d, hl, h⟩
  · rw [h]
    exact hs
  · rw [h]
    exact ⟨Memory.form_writeBytes (size := s.dmemSize) (by omega) hs.1, hs.2⟩

/-- A reset, whatever `rst_n` is afterwards. -/
theorem applyReset_inv {s : State} (hs : s.StorageForm) (low : Bool) : { s.applyReset with inReset := low }.Inv :=
  (inv_iff _).2 ⟨abort_storageForm hs, errForm_of_clear rfl rfl, busyForm_of_idle rfl, fun _ => rfl⟩

theorem applyReset_inReset (s : State) : s.applyReset.inReset = s.inReset := by
  rcases abort_cases s with h | ⟨_, _, _, _, h⟩ <;> simp [State.applyReset, h]

theorem applyReset_inv_same {s : State} (hs : s.StorageForm) : s.applyReset.Inv := by
  have h := applyReset_inv hs s.inReset
  rwa [← applyReset_inReset s] at h

/-! #### Register writes -/

theorem whenIdle_of_busy {s : State} (t : State) (h : s.eng = .busy) : s.whenIdle t = s := if_pos h

theorem whenIdle_of_idle {s : State} (t : State) (h : s.eng = .idle) : s.whenIdle t = t := if_neg (by simp [h])

theorem writeCtrl_of_not_srst {s : State} {v : Word} (h : v.getLsbD 1 = false) :
    s.writeCtrl v = { s with ie := v.getLsbD 0 } := by
  simp only [State.writeCtrl, h, Bool.false_eq_true, if_false]

theorem writeCtrl_of_srst {s : State} {v : Word} (h : v.getLsbD 1 = true) : s.writeCtrl v = s.applyReset := if_pos h

/-- What a register write can do: nothing; a soft reset; acceptance; a change of flags, DONE never set; while Idle, a
change of parameter and accumulator registers. -/
theorem regWrite_cases (s : State) (r : Reg) (v : Word) :
    s.regWrite r v = s ∨
    (r = .ctrl ∧ v.getLsbD 1 = true ∧ s.regWrite r v = s.applyReset) ∨
    (r = .cmd ∧ s.regWrite r v = s.accept v) ∨
    (∃ ie keep ovr : Bool, s.regWrite r v = { s with ie := ie, done := s.done && keep, ovr := ovr }) ∨
    (∃ src n dst cap crc adler : Word, s.regWrite r v = s.whenIdle
      { s with srcAddr := src, srcLen := n, dstAddr := dst, dstCap := cap, crcAcc := crc, adlerAcc := adler }) := by
  cases r with
  | ctrl =>
    cases hv : v.getLsbD 1 with
    | true => exact .inr (.inl ⟨rfl, rfl, writeCtrl_of_srst hv⟩)
    | false =>
      refine .inr (.inr (.inr (.inl ⟨v.getLsbD 0, true, s.ovr, ?_⟩)))
      rw [State.regWrite, writeCtrl_of_not_srst hv, Bool.and_true]
  | cmd =>
    by_cases hb : s.eng = .busy
    · refine .inr (.inr (.inr (.inl ⟨s.ie, true, true, ?_⟩)))
      rw [State.regWrite, State.writeCmd, if_pos hb, Bool.and_true]
    · exact .inr (.inr (.inl ⟨rfl, by rw [State.regWrite, State.writeCmd, if_neg hb]⟩))
  | status => exact .inr (.inr (.inr (.inl ⟨s.ie, _, _, rfl⟩)))
  | srcAddr => exact .inr (.inr (.inr (.inr ⟨v, s.srcLen, s.dstAddr, s.dstCap, s.crcAcc, s.adlerAcc, rfl⟩)))
  | srcLen => exact .inr (.inr (.inr (.inr ⟨s.srcAddr, v, s.dstAddr, s.dstCap, s.crcAcc, s.adlerAcc, rfl⟩)))
  | dstAddr => exact .inr (.inr (.inr (.inr ⟨s.srcAddr, s.srcLen, v, s.dstCap, s.crcAcc, s.adlerAcc, rfl⟩)))
  | dstCap => exact .inr (.inr (.inr (.inr ⟨s.srcAddr, s.srcLen, s.dstAddr, v, s.crcAcc, s.adlerAcc, rfl⟩)))
  | crcAcc => exact .inr (.inr (.inr (.inr ⟨s.srcAddr, s.srcLen, s.dstAddr, s.dstCap, v, s.adlerAcc, rfl⟩)))
  | adlerAcc => exact .inr (.inr (.inr (.inr ⟨s.srcAddr, s.srcLen, s.dstAddr, s.dstCap, s.crcAcc, v, rfl⟩)))
  | id | outLen | errCode | errInfo | crcResult | litCount | matchCount | hdrSizeLo | hdrSizeHi | dmemSize =>
    exact .inl rfl

/-! #### Host steps -/

theorem regWrite_inv {s : State} (hs : s.Inv) (hr : s.inReset = false) (r : Reg) (v : Word) :
    (s.regWrite r v).Inv := by
  obtain ⟨hst, herr, hbusy, -⟩ := (inv_iff s).1 hs
  rcases regWrite_cases s r v with h | ⟨-, -, h⟩ | ⟨-, h⟩ | ⟨ie, keep, ovr, h⟩ | ⟨src, n, dst, cap, crc, adler, h⟩
  · rwa [h]
  · rw [h]
    exact applyReset_inv_same hst
  · rw [h]
    exact (inv_iff _).2 ⟨hst, errForm_of_clear rfl rfl, fun _ => ⟨⟨rfl, rfl, rfl⟩, rfl⟩, by simp [hr]⟩
  · rw [h]
    refine (inv_iff _).2 ⟨hst, herr, fun hb => ?_, by simp [hr]⟩
    obtain ⟨⟨hdone, hclear⟩, hlatch⟩ := hbusy hb
    exact ⟨⟨by simp [hdone], hclear⟩, hlatch⟩
  · rw [h]
    cases he : s.eng with
    | busy => rwa [whenIdle_of_busy _ he]
    | idle =>
      rw [whenIdle_of_idle _ he]
      exact (inv_iff _).2 ⟨hst, herr, busyForm_of_idle rfl, by simp [hr]⟩

theorem hostStep_inv {op : HostOp} {s t : State} (hs : s.Inv) (h : hostStep op s = .next t) : t.Inv := by
  obtain ⟨hst, herr, hbusy, -⟩ := (inv_iff s).1 hs
  rcases hostStep_cases h with ⟨v, w, d, q, hr, rfl⟩ | ⟨a, l, hr, hin, rfl⟩ | ⟨r, v, -, hr, rfl⟩ | ⟨-, rfl⟩ |
    ⟨-, rfl⟩ | ⟨-, rfl⟩
  · exact (inv_iff _).2 ⟨hst, herr, hbusy, by simp [hr]⟩
  · exact (inv_iff _).2 ⟨⟨Memory.form_writeBytes hin hst.1, hst.2⟩, herr, hbusy, by simp [hr]⟩
  · exact regWrite_inv hs hr r v
  · exact applyReset_inv hst true
  · unfold State.releaseReset
    split
    · exact applyReset_inv hst false
    · exact hs
  · exact hs

theorem takeEvent_inv {s : State} (hs : s.Inv) : s.takeEvent.Inv := by
  obtain ⟨hst, herr, hbusy, hheld⟩ := (inv_iff s).1 hs
  exact (inv_iff _).2 ⟨hst, herr, hbusy, fun hr => congrArg State.takeEvent (hheld hr)⟩

/-- Settles O58: the engine's turn ends a command or does nothing; a host step keeps each part. -/
theorem everyStepKeepsInvariants : Obligations.EveryStepKeepsInvariants := by
  unfold Obligations.EveryStepKeepsInvariants
  intro s t hs h
  rcases step_cases h with ⟨-, he⟩ | ⟨op, -, ho⟩
  · exact engineStep_inv (takeEvent_inv hs) he
  · exact hostStep_inv (takeEvent_inv hs) ho

end Sys2Proof.Machine
end

section
/-! ### Host steps: when they have a meaning, and what moves the engine (10_state.md R36, R38)

A step's outcome is read off its guards, one lemma per shape of outcome; so are the register accesses by their
register. -/

namespace Sys2Proof.Machine

/-! #### Meaning and refusal -/

theorem exists_next_ite {b : Bool} {s : State} {r : Refusal} :
    (∃ t : State, (if b then .next s else .refused r : Host.Outcome State Fault Refusal) = .next t) ↔ b = true := by
  cases b <;> simp

theorem exists_next_whenOutOfReset {s : State} {o : Host.Outcome State Fault Refusal} :
    (∃ t : State, whenOutOfReset s o = .next t) ↔ s.inReset = false ∧ ∃ t : State, o = .next t := by
  unfold whenOutOfReset
  cases s.inReset <;> simp

/-- There is no fault, so an outcome without a next state is a refusal. -/
theorem exists_refused_iff (o : Host.Outcome State Fault Refusal) :
    (∃ r : Refusal, o = .refused r) ↔ ¬ ∃ t : State, o = .next t := by
  cases o with
  | next t => simp
  | fault f => cases f
  | refused r => simp

theorem regAccessDefined_iff (w : Width) (off : BitVec 8) :
    regAccessDefined w off = true ↔ w = .word ∧ off.toNat % 4 = 0 := by simp [regAccessDefined]

theorem hostInRange_iff (s : State) (a k : Nat) : s.hostInRange a k = true ↔ a + k ≤ s.dmemSize := by
  simp [State.hostInRange]

theorem wordAligned_iff (a : Nat) : wordAligned a = true ↔ a % 4 = 0 := by simp [wordAligned]

theorem exists_next_doWordRead {s : State} {a : Nat} :
    (∃ t : State, doWordRead s a = .next t) ↔ a % 4 = 0 ∧ a + 4 ≤ s.dmemSize := by
  rw [← wordAligned_iff, ← hostInRange_iff, doWordRead]
  cases s.hostInRange a 4 <;> cases wordAligned a <;> simp

theorem exists_next_doByteWrite {s : State} {a : Nat} {b : Byte} :
    (∃ t : State, doByteWrite s a b = .next t) ↔ a < s.dmemSize ∧ s.WriteFree a 1 := by
  rw [writeFree_one_iff, Nat.lt_iff_add_one_le, ← hostInRange_iff, doByteWrite]
  cases s.hostInRange a 1 <;> cases s.writeBarred a <;> simp

theorem exists_next_doWordWrite {s : State} {a : Nat} {v : Word} :
    (∃ t : State, doWordWrite s a v = .next t) ↔ a % 4 = 0 ∧ a + 4 ≤ s.dmemSize ∧ s.WriteFree a 4 := by
  rw [writeFree_four_iff, ← wordAligned_iff, ← hostInRange_iff, doWordWrite]
  cases s.hostInRange a 4 <;> cases wordAligned a <;>
    cases (s.writeBarred a || s.writeBarred (a + 1) || s.writeBarred (a + 2) || s.writeBarred (a + 3)) <;> simp

theorem exists_next_hostStep {op : HostOp} {s : State} :
    (∃ t : State, hostStep op s = .next t) ↔ s.HasMeaning op := by
  cases op with
  | regWrite w off v =>
    exact exists_next_whenOutOfReset.trans (and_congr_right' (exists_next_ite.trans (regAccessDefined_iff w off)))
  | regRead w off =>
    exact exists_next_whenOutOfReset.trans (and_congr_right' (exists_next_ite.trans (regAccessDefined_iff w off)))
  | byteWrite a b => exact exists_next_whenOutOfReset.trans (and_congr_right' exists_next_doByteWrite)
  | byteRead a =>
    exact exists_next_whenOutOfReset.trans (and_congr_right' (exists_next_ite.trans (hostInRange_iff s a 1)))
  | wordWrite a v => exact exists_next_whenOutOfReset.trans (and_congr_right' exists_next_doWordWrite)
  | wordRead a => exact exists_next_whenOutOfReset.trans (and_congr_right' exists_next_doWordRead)
  | wait => exact exists_next_whenOutOfReset.trans (and_iff_left ⟨s.pollStatus, rfl⟩)
  | assertReset => exact iff_of_true ⟨_, rfl⟩ trivial
  | releaseReset => exact iff_of_true ⟨_, rfl⟩ trivial

theorem hasMeaning_takeEvent (s : State) (op : HostOp) : s.takeEvent.HasMeaning op ↔ s.HasMeaning op := by
  cases op <;> exact Iff.rfl

/-- Settles O8: a host step has a next state exactly with a meaning, and no step faults. -/
theorem hostStepIsRefusedExactlyWithoutMeaning : Obligations.HostStepIsRefusedExactlyWithoutMeaning := by
  unfold Obligations.HostStepIsRefusedExactlyWithoutMeaning
  intro s op hop
  have hnext : (∃ t : State, step s = .next t) ↔ s.HasMeaning op := by
    rw [step_of_hostNext hop, exists_next_hostStep, hasMeaning_takeEvent]
  exact ⟨hnext, (exists_refused_iff _).trans (not_congr hnext)⟩

/-! #### The engine's state -/

theorem engineStep_eng {s t : State} (h : engineStep s = .next t) : t.eng = .idle := by
  unfold engineStep at h
  split at h
  · exact (completeWord_ends h).eng
  · rename_i hb
    cases h
    cases he : s.eng with
    | idle => rfl
    | busy => exact absurd he hb

/-- A register write moves the engine only by acceptance or a soft reset. -/
theorem regWrite_eng (s : State) (r : Reg) (v : Word) :
    (s.regWrite r v).eng = s.eng ∨
    (r = .cmd ∧ s.regWrite r v = s.accept v) ∨
    (r = .ctrl ∧ v.getLsbD 1 = true ∧ (s.regWrite r v).eng = .idle) := by
  rcases regWrite_cases s r v with h | ⟨hr, hv, h⟩ | h | ⟨ie, keep, ovr, h⟩ | ⟨src, n, dst, cap, crc, adler, h⟩
  · exact .inl (by rw [h])
  · exact .inr (.inr ⟨hr, hv, by rw [h, applyReset_eng]⟩)
  · exact .inr (.inl h)
  · exact .inl (by rw [h])
  · refine .inl ?_
    rw [h, State.whenIdle]
    split <;> rfl

/-- A host operation moves the engine only by acceptance or a reset. -/
theorem hostStep_eng {op : HostOp} {s t : State} (h : hostStep op s = .next t) :
    t.eng = s.eng ∨
    (∃ w : Word, op = .regWrite .word Reg.cmd.offset w ∧ t = s.accept w) ∨
    (t.eng = .idle ∧ (op = .assertReset ∨ op = .releaseReset ∨
      ∃ v : Word, v.getLsbD 1 = true ∧ op = .regWrite .word Reg.ctrl.offset v)) := by
  rcases hostStep_cases h with ⟨_, _, _, _, _, rfl⟩ | ⟨_, _, _, _, rfl⟩ | ⟨r, v, rfl, _, rfl⟩ | ⟨rfl, rfl⟩ |
    ⟨rfl, rfl⟩ | ⟨_, rfl⟩
  · exact .inl rfl
  · exact .inl rfl
  · rcases regWrite_eng s r v with he | ⟨rfl, ht⟩ | ⟨rfl, hv, he⟩
    · exact .inl he
    · exact .inr (.inl ⟨v, rfl, ht⟩)
    · exact .inr (.inr ⟨he, .inr (.inr ⟨v, hv, rfl⟩)⟩)
  · exact .inr (.inr ⟨rfl, .inl rfl⟩)
  · unfold State.releaseReset
    split
    · exact .inr (.inr ⟨rfl, .inr (.inl rfl)⟩)
    · exact .inl rfl
  · exact .inl rfl

/-- Settles O10: an engine's turn ends Idle, and a host step moves the engine only by acceptance or a reset. -/
theorem busyChangesOnlyByAcceptanceCompletionReset : Obligations.BusyChangesOnlyByAcceptanceCompletionReset := by
  unfold Obligations.BusyChangesOnlyByAcceptanceCompletionReset
  refine ⟨fun s => ?_, fun s t h hidle hbusy => ?_, fun s t h hbusy hidle => ?_⟩
  · rw [State.statusWord, (statusWith_bits s s.errFlag).1, State.busyFlag, decide_eq_true_eq]
  · rcases step_cases h with ⟨-, he⟩ | ⟨op, hop, ho⟩
    · rw [engineStep_eng he] at hbusy
      cases hbusy
    · rcases hostStep_eng ho with he | ⟨w, rfl, rfl⟩ | ⟨he, -⟩
      · rw [he, State.takeEvent_eng, hidle] at hbusy
        cases hbusy
      · exact ⟨w, hop, rfl⟩
      · rw [he] at hbusy
        cases hbusy
  · rcases step_cases h with ⟨he, -⟩ | ⟨op, hop, ho⟩
    · exact .inl he
    · rcases hostStep_eng ho with he | ⟨w, -, rfl⟩ | ⟨-, rfl | rfl | ⟨v, hv, rfl⟩⟩
      · rw [he, State.takeEvent_eng, hbusy] at hidle
        cases hidle
      · cases hidle
      · exact .inr (.inl hop)
      · exact .inr (.inr (.inl hop))
      · exact .inr (.inr (.inr ⟨v, hv, hop⟩))

end Sys2Proof.Machine
end

section
/-! ### The register port (10_state.md R39 to R60) -/

namespace Sys2Proof.Machine

/-! #### Writes -/

theorem step_regWrite_word {s : State} {off : BitVec 8} {v : Word} (hr : s.inReset = false) (ha : off.toNat % 4 = 0)
    (h : s.HostNext (.regWrite .word off v)) : step s = .next (s.takeEvent.doRegWrite off v) := by
  rw [step_of_hostNext h]
  simp [hostStep, whenOutOfReset, hostRegWrite, regAccessDefined, hr, ha]

theorem doRegWrite_offset (s : State) (r : Reg) (v : Word) : s.doRegWrite r.offset v = s.regWrite r v := by
  simp only [State.doRegWrite, regAt_offset]

theorem step_regWrite {s : State} {r : Reg} {v : Word} (hr : s.inReset = false)
    (h : s.HostNext (.regWrite .word r.offset v)) : step s = .next (s.takeEvent.regWrite r v) := by
  rw [step_regWrite_word hr (offset_aligned r) h, doRegWrite_offset]

/-- Settles O14: while Busy a parameter write is `whenIdle`'s other case. -/
theorem busyEngineIgnoresParameterWrites : Obligations.BusyEngineIgnoresParameterWrites := by
  unfold Obligations.BusyEngineIgnoresParameterWrites
  intro s v hb hr
  have param : ∀ r u, s.takeEvent.regWrite r v = s.takeEvent.whenIdle u →
      s.HostNext (.regWrite .word r.offset v) → step s = .next s.takeEvent := by
    intro r u hu h
    rw [step_regWrite hr h, hu, whenIdle_of_busy (s := s.takeEvent) u hb]
  refine ⟨?_, fun h hv => ?_, fun h => step_regWrite (r := .status) hr h⟩
  · simp only [List.forall_mem_cons]
    exact ⟨param .srcAddr _ rfl, param .srcLen _ rfl, param .dstAddr _ rfl, param .dstCap _ rfl, param .crcAcc _ rfl,
      param .adlerAcc _ rfl, by simp⟩
  · rw [step_regWrite (r := .ctrl) hr h, State.regWrite, writeCtrl_of_not_srst hv]

/-- Settles O15: while Idle a parameter write takes effect. -/
theorem idleEngineTakesRegisterWrites : Obligations.IdleEngineTakesRegisterWrites := by
  unfold Obligations.IdleEngineTakesRegisterWrites
  intro s v hi hr u
  have param : ∀ r t, u.regWrite r v = u.whenIdle t →
      s.HostNext (.regWrite .word r.offset v) → step s = .next t := by
    intro r t ht h
    rw [step_regWrite hr h, ht, whenIdle_of_idle (s := s.takeEvent) t hi]
  refine ⟨?_, fun h hv => ?_, fun h => step_regWrite (r := .status) hr h⟩
  · simp only [List.forall_mem_cons]
    exact ⟨param .srcAddr _ rfl, param .srcLen _ rfl, param .dstAddr _ rfl, param .dstCap _ rfl, param .crcAcc _ rfl,
      param .adlerAcc _ rfl, by simp⟩
  · rw [step_regWrite (r := .ctrl) hr h, State.regWrite, writeCtrl_of_not_srst hv]

/-! #### Reads -/

theorem step_regRead_word {s : State} {off : BitVec 8} (hr : s.inReset = false) (ha : off.toNat % 4 = 0)
    (h : s.HostNext (.regRead .word off)) : step s = .next (s.takeEvent.doRegRead off) := by
  rw [step_of_hostNext h]
  simp [hostStep, whenOutOfReset, hostRegRead, regAccessDefined, hr, ha]

theorem offsetRead_offset (s : State) (r : Reg) : s.offsetRead r.offset = s.regRead r := by
  simp only [State.offsetRead, regAt_offset]

theorem doRegRead_of_idle {s : State} (h : s.eng = .idle) (off : BitVec 8) :
    s.doRegRead off = { s with regRdata := s.offsetRead off } := by
  simp [State.doRegRead, h]

theorem doRegWrite_reserved {s : State} {off : BitVec 8} (v : Word) (h : 0x4C ≤ off.toNat) :
    s.doRegWrite off v = s := by
  simp only [State.doRegWrite, regAt_reserved h]

theorem offsetRead_reserved {s : State} {off : BitVec 8} (h : 0x4C ≤ off.toNat) : s.offsetRead off = 0 := by
  simp only [State.offsetRead, regAt_reserved h]

/-- Settles O16: a read-only register's write is the identity, and a reserved offset is in no row of the map. -/
theorem readOnlyAndReservedOffsetsIgnoreWrites : Obligations.ReadOnlyAndReservedOffsetsIgnoreWrites := by
  unfold Obligations.ReadOnlyAndReservedOffsetsIgnoreWrites
  intro s off v hr ha
  refine ⟨fun hoff h => ?_, fun hres h => ?_⟩
  · rcases hoff with hlist | hres
    · have readOnly : ∀ r, s.takeEvent.regWrite r v = s.takeEvent →
          s.HostNext (.regWrite .word r.offset v) → step s = .next s.takeEvent := by
        intro r he h
        rw [step_regWrite hr h, he]
      revert off
      simp only [List.mem_cons, List.not_mem_nil, or_false]
      rintro off - h (rfl | rfl | rfl | rfl | rfl | rfl | rfl | rfl | rfl | rfl)
      exacts [readOnly .id rfl h, readOnly .outLen rfl h, readOnly .errCode rfl h, readOnly .errInfo rfl h,
        readOnly .crcResult rfl h, readOnly .litCount rfl h, readOnly .matchCount rfl h, readOnly .hdrSizeLo rfl h,
        readOnly .hdrSizeHi rfl h, readOnly .dmemSize rfl h]
    · rw [step_regWrite_word hr ha h, doRegWrite_reserved v hres]
  · refine ⟨_, fun hi => ?_, by rw [step_regRead_word hr ha h, State.doRegRead, offsetRead_reserved hres]⟩
    simp [hi]

theorem step_regRead {s : State} {r : Reg} (hr : s.inReset = false) (h : s.HostNext (.regRead .word r.offset)) :
    step s = .next (s.takeEvent.doRegRead r.offset) :=
  step_regRead_word hr (offset_aligned r) h

theorem regRead_of_idle {s : State} (h : s.eng = .idle) (r : Reg) : s.regRead r = s.regValue r := by
  simp [State.regRead, h]

theorem regRead_of_busy {s : State} {r : Reg} (h : s.eng = .busy) (hres : r.isResult = false) (hst : r ≠ .status) :
    s.regRead r = s.regValue r := by
  simp [State.regRead, h, hres, hst]

theorem regRead_status_of_busy {s : State} (h : s.eng = .busy) :
    s.regRead .status = statusWith s ((Config.freeWord s.draws).getLsbD 0) := by
  simp [State.regRead, h, Reg.isResult]

/-- STATUS while Idle as a number (10_state.md R43). -/
theorem statusWord_of_idle {s : State} (h : s.eng = .idle) :
    s.statusWord = BitVec.ofNat 32 (2 * s.done.toNat + 4 * (decide (s.errCode ≠ 0)).toNat + 8 * s.ovr.toNat) := by
  have hb : s.busyFlag = false := by simp [State.busyFlag, h]
  rw [State.statusWord, statusWith, hb, State.errFlag]
  cases s.done <;> cases decide (s.errCode ≠ 0) <;> cases s.ovr <;> rfl

theorem ctrlWord_eq (s : State) : s.ctrlWord = BitVec.ofNat 32 s.ie.toNat := by
  cases h : s.ie <;> simp [State.ctrlWord, flagBit, h]

theorem regValue_dmemSize (s : State) : s.regValue .dmemSize = BitVec.ofNat 32 (s.dmemSize % 2 ^ 32) :=
  BitVec.eq_of_toNat_eq (by simp [State.regValue])

/-- Settles O17: while Idle a read returns the register's value. -/
theorem idleReadsFollowTheRegisterMap : Obligations.IdleReadsFollowTheRegisterMap := by
  unfold Obligations.IdleReadsFollowTheRegisterMap
  intro s hi hr
  have read : ∀ r v, s.regValue r = v → s.HostNext (.regRead .word r.offset) →
      step s = .next { s.takeEvent with regRdata := v } := by
    rintro r v rfl h
    rw [step_regRead hr h, doRegRead_of_idle (s := s.takeEvent) hi, offsetRead_offset,
      regRead_of_idle (s := s.takeEvent) hi]
    rfl
  simp only [List.forall_mem_cons]
  exact ⟨read .id _ rfl, read .ctrl _ (ctrlWord_eq s), read .status _ (statusWord_of_idle hi), read .cmd _ rfl,
    read .srcAddr _ rfl, read .srcLen _ rfl, read .dstAddr _ rfl, read .dstCap _ rfl, read .outLen _ rfl,
    read .errCode _ (BitVec.ofNat_toNat 32 s.errCode).symm, read .errInfo _ rfl, read .crcAcc _ rfl,
    read .crcResult _ rfl, read .adlerAcc _ rfl,
    read .litCount _ rfl, read .matchCount _ rfl, read .hdrSizeLo _ rfl, read .hdrSizeHi _ rfl,
    read .dmemSize _ (regValue_dmemSize s), by simp⟩

/-- Settles O18: while Busy a register that is no result register reads its value, and STATUS all but its ERR bit. -/
theorem busyReadsKeepTheDefinedValues : Obligations.BusyReadsKeepTheDefinedValues := by
  unfold Obligations.BusyReadsKeepTheDefinedValues
  intro s r hb hr h
  refine ⟨_, _, step_regRead hr h, ?_, ?_⟩
  · have defined : ∀ q v, q.isResult = false → q ≠ .status → s.regValue q = v →
        r = q → s.takeEvent.offsetRead r.offset = v := by
      rintro q v hq hst rfl rfl
      rw [offsetRead_offset, regRead_of_busy (s := s.takeEvent) hb hq hst]
      rfl
    simp only [List.forall_mem_cons]
    exact ⟨defined .id _ rfl (by decide) rfl, defined .ctrl _ rfl (by decide) (ctrlWord_eq s),
      defined .cmd _ rfl (by decide) rfl, defined .srcAddr _ rfl (by decide) rfl, defined .srcLen _ rfl (by decide) rfl,
      defined .dstAddr _ rfl (by decide) rfl, defined .dstCap _ rfl (by decide) rfl,
      defined .dmemSize _ rfl (by decide) (regValue_dmemSize s), by simp⟩
  · rintro rfl
    rw [offsetRead_offset, regRead_status_of_busy (s := s.takeEvent) hb]
    obtain ⟨h0, h1, -, h3, hhigh⟩ :=
      statusWith_bits s.takeEvent ((Config.freeWord s.takeEvent.draws).getLsbD 0)
    exact ⟨h0.trans (by simp [State.busyFlag, hb]), h1, h3, hhigh⟩

/-- Settles O24: each value is read off `State.reset`. -/
theorem resetStateHoldsTheResetValues : Obligations.ResetStateHoldsTheResetValues := by
  unfold Obligations.ResetStateHoldsTheResetValues
  decide

end Sys2Proof.Machine
end

section
/-! ### The DMEM host port (20_memory.md R82 to R84, R94, R98)

A transaction with a meaning passes every guard, so its step is the store or the read that stands behind them. -/

namespace Sys2Proof.Machine

theorem whenOutOfReset_of_high {s : State} (h : s.inReset = false) (o : Host.Outcome State Fault Refusal) :
    whenOutOfReset s o = o := by simp [whenOutOfReset, h]

/-! #### Writes -/

theorem step_byteWrite {s : State} {a : Nat} {b : Byte} (h : s.HostNext (.byteWrite a b))
    (hm : s.HasMeaning (.byteWrite a b)) :
    step s = .next { s.takeEvent with dmem := Memory.write s.dmem a b } := by
  obtain ⟨hr, ha, hfree⟩ := (hasMeaning_takeEvent s _).2 hm
  rw [step_of_hostNext h, hostStep, whenOutOfReset_of_high hr, doByteWrite,
    if_pos ((hostInRange_iff _ a 1).2 ha), (writeFree_one_iff _ a).1 hfree]
  rfl

theorem step_wordWrite {s : State} {a : Nat} {w : Word} (h : s.HostNext (.wordWrite a w))
    (hm : s.HasMeaning (.wordWrite a w)) :
    step s = .next { s.takeEvent with dmem := Memory.writeBytes s.dmem a (le32 w) } := by
  obtain ⟨hr, hal, ha, hfree⟩ := (hasMeaning_takeEvent s _).2 hm
  rw [step_of_hostNext h, hostStep, whenOutOfReset_of_high hr, doWordWrite,
    if_pos ((hostInRange_iff _ a 4).2 ha), if_pos ((wordAligned_iff a).2 hal), (writeFree_four_iff _ a).1 hfree]
  rfl

/-- Byte k of a word is the k-th digit of its number in base 256 (20_memory.md R83). -/
theorem getD_le32 (w : Word) {k : Nat} (hk : k < 4) : (le32 w).getD k 0 = BitVec.ofNat 8 (w.toNat / 2 ^ (8 * k)) := by
  have digit : (le32 w).getD k 0 = wordByte w k := by interval_cases k <;> rfl
  rw [digit, wordByte, BitVec.extractLsb', Nat.shiftRight_eq_div_pow]

/-- Settles O21: the step stores the byte, or the word's four bytes from its address on. -/
theorem hostWritesStoreLittleEndian : Obligations.HostWritesStoreLittleEndian := by
  unfold Obligations.HostWritesStoreLittleEndian
  refine ⟨fun s a b h hm => ⟨_, step_byteWrite h hm, ?_, fun x hx => Memory.read_write_ne hx⟩,
    fun s a w h hm => ⟨_, step_wordWrite h hm, fun k hk => ?_, fun x hx => Memory.read_writeBytes_outside hx⟩⟩
  · simp [Memory.read_write]
  · rw [Memory.read_writeBytes_inside hk, getD_le32 w hk]

/-! #### Reads -/

theorem step_byteRead {s : State} {a : Nat} (h : s.HostNext (.byteRead a)) (hm : s.HasMeaning (.byteRead a)) :
    step s = .next (s.takeEvent.takeRead ((s.hostByte 0 a).setWidth 32) 1) := by
  obtain ⟨hr, ha⟩ := (hasMeaning_takeEvent s _).2 hm
  rw [step_of_hostNext h, hostStep, whenOutOfReset_of_high hr, doByteRead, if_pos ((hostInRange_iff _ a 1).2 ha)]
  rfl

theorem step_wordRead {s : State} {a : Nat} (h : s.HostNext (.wordRead a)) (hm : s.HasMeaning (.wordRead a)) :
    step s = .next (s.takeEvent.takeRead
      (ofLe32 (s.hostByte 0 a) (s.hostByte 1 (a + 1)) (s.hostByte 2 (a + 2)) (s.hostByte 3 (a + 3))) 4) := by
  obtain ⟨hr, hal, ha⟩ := (hasMeaning_takeEvent s _).2 hm
  rw [step_of_hostNext h, hostStep, whenOutOfReset_of_high hr, doWordRead, if_pos ((hostInRange_iff _ a 4).2 ha),
    if_pos ((wordAligned_iff a).2 hal)]
  rfl

theorem takeRead_of_idle {s : State} (h : s.eng = .idle) (v : Word) (k : Nat) :
    s.takeRead v k = { s with memRdata := v } := by simp [State.takeRead, h]

theorem hostByte_of_idle {s : State} (h : s.eng = .idle) (i a : Nat) : s.hostByte i a = Memory.read s.dmem a := by
  simp [State.hostByte, State.inBusyDestination, h]

/-- Only the destination region of a transform command hides its bytes (20_memory.md R98). -/
theorem hostByte_of_outside {s : State} {a : Nat} (i : Nat)
    (h : ¬ (wordClass s.latch.cmd = .transform ∧ s.latch.dst.toNat ≤ a ∧ a < s.latch.dst.toNat + s.latch.cap.toNat)) :
    s.hostByte i a = Memory.read s.dmem a := by
  refine if_neg fun hin => h ?_
  simp only [State.inBusyDestination, Bool.and_eq_true, decide_eq_true_eq, inRegion_iff] at hin
  exact ⟨hin.1.2, hin.2⟩

/-- Settles O22: while Idle the byte a read returns is the byte of DMEM. -/
theorem idleDmemReadsReturnTheBytes : Obligations.IdleDmemReadsReturnTheBytes := by
  unfold Obligations.IdleDmemReadsReturnTheBytes
  intro s a hi
  refine ⟨fun h hm => ?_, fun h hm => ?_⟩
  · rw [step_byteRead h hm, takeRead_of_idle (s := s.takeEvent) hi, hostByte_of_idle hi, BitVec.ofNat_toNat]
  · rw [step_wordRead h hm, takeRead_of_idle (s := s.takeEvent) hi]
    simp only [hostByte_of_idle hi, ofLe32_eq]

/-- Settles O23: while Busy, too, for a byte outside the destination region. -/
theorem busyByteReadsOutsideTheDestination : Obligations.BusyByteReadsOutsideTheDestination := by
  unfold Obligations.BusyByteReadsOutsideTheDestination
  intro s a _ outside
  refine ⟨fun h hm => ⟨_, _, step_byteRead h hm, fun hout => ?_⟩,
    fun h hm => ⟨_, _, step_wordRead h hm, fun hout => ?_⟩⟩
  · rw [hostByte_of_outside 0 hout, BitVec.ofNat_toNat]
  · rw [hostByte_of_outside (a := a) 0 (hout 0 (by decide)), hostByte_of_outside 1 (hout 1 (by decide)),
      hostByte_of_outside 2 (hout 2 (by decide)), hostByte_of_outside 3 (hout 3 (by decide)), ofLe32_eq]

end Sys2Proof.Machine
end

section
/-! ### The region checks and the footprint of the commands (20_memory.md R86 to R90) -/

namespace Sys2Proof.Machine

open Sys2Proof.Reference

/-! #### The prologue's errors -/

/-- The three errors of a transform command's prologue, each in the state `onErr` leaves (60_exceptions.md R302). -/
theorem withPrologue_transform_errors (onErr rule : State → State) (s : State) :
    (¬ s.SrcOk → withPrologue .transform onErr rule s = failed (onErr s.clearOutLen) 8 0) ∧
    (s.SrcOk → ¬ s.DstOk → withPrologue .transform onErr rule s = failed (onErr s.clearOutLen) 8 1) ∧
    (s.SrcOk → s.DstOk → ¬ s.Apart → withPrologue .transform onErr rule s = failed (onErr s.clearOutLen) 9 0) := by
  unfold withPrologue
  refine ⟨fun hs => ?_, fun hs hd => ?_, fun hs hd ha => ?_⟩
  · rw [s.prologueError_transform_of_not_srcOk hs]
    rfl
  · rw [s.prologueError_transform_of_not_dstOk hs hd]
    rfl
  · rw [s.prologueError_transform_of_not_apart hs hd ha]
    rfl

/-- Settles O31: a checksum command checks its source only, an RLE command has the three errors of its class. -/
theorem rleAndChecksumPrologueErrors : Obligations.RleAndChecksumPrologueErrors := by
  unfold Obligations.RleAndChecksumPrologueErrors
  refine ⟨fun s => ?_, fun s => ?_⟩
  · have checksum : ∀ rule, ¬ s.SrcOk →
        Host.Outcome.next (withPrologue .checksum id rule s) =
          (.next (failed { s with outLen := 0 } 8 0) : Host.Outcome State Fault Refusal) :=
      fun rule hs => congrArg _ (withPrologue_checksum_of_not_srcOk hs)
    simp only [List.forall_mem_cons]
    exact ⟨checksum _, checksum _, checksum _, checksum _, by simp⟩
  · have transform := fun rule => withPrologue_transform_errors id rule s
    simp only [List.forall_mem_cons, exec, execRleEnc, execRleDec, Host.Outcome.next.injEq]
    exact ⟨transform _, transform _, by simp⟩

/-- Settles O32: the same three errors, after the two counters have been drawn. -/
theorem deflatePrologueErrors : Obligations.DeflatePrologueErrors := by
  unfold Obligations.DeflatePrologueErrors
  intro s
  have transform := fun rule => withPrologue_transform_errors State.drawCounts rule s
  simp only [List.forall_mem_cons, exec, execDeflate, execZlib, Host.Outcome.next.injEq]
  exact ⟨⟨_, _, _, transform _⟩, ⟨_, _, _, transform _⟩, by simp⟩

/-! #### The footprint -/

/-- A transform command from `s` leaves in `t` at most CAP bytes at DST, as many as OUT_LEN counts, and the rest of
DMEM as it was (20_memory.md R88, R90). -/
def WroteOutput (s t : State) : Prop :=
  ∃ l : List Byte, l.length ≤ s.latch.cap.toNat ∧ t.outLen.toNat = l.length ∧
    t.dmem = Memory.writeBytes s.dmem s.latch.dst.toNat l

theorem wroteOutput_clearOutLen (s : State) : WroteOutput s s.clearOutLen := ⟨[], Nat.zero_le _, rfl, rfl⟩

theorem WroteOutput.congr {s u v : State} (h : WroteOutput s u) (ho : v.outLen = u.outLen) (hd : v.dmem = u.dmem) :
    WroteOutput s v := by
  rwa [WroteOutput, ho, hd]

/-- Storing at most CAP bytes at DST and their number in OUT_LEN, with DMEM untouched before. -/
theorem wroteOutput_of_store {s u v : State} {l : List Byte} (hlatch : u.latch = s.latch) (hdmem : u.dmem = s.dmem)
    (hl : l.length ≤ u.latch.cap.toNat) (ho : v.outLen = BitVec.ofNat 32 l.length)
    (hd : v.dmem = Memory.writeBytes u.dmem u.latch.dst.toNat l) : WroteOutput s v := by
  refine ⟨l, hlatch ▸ hl, ?_, by rw [hd, hlatch, hdmem]⟩
  rw [ho, BitVec.toNat_ofNat]
  exact Nat.mod_eq_of_lt (hl.trans_lt u.latch.cap.isLt)

theorem withPrologue_wroteOutput {s : State} {onErr rule : State → State} (herr : WroteOutput s (onErr s.clearOutLen))
    (hrule : WroteOutput s (rule s.clearOutLen)) : WroteOutput s (withPrologue .transform onErr rule s) := by
  rcases withPrologue_transform_cases onErr rule s with ⟨-, h⟩ | ⟨-, e, info, -, h⟩
  · rwa [h]
  · rw [h]
    exact herr

theorem finishStream_wroteOutput {s u : State} {l : List Byte} {onOk onErr : State → State}
    (hlatch : u.latch = s.latch) (hdmem : u.dmem = s.dmem)
    (hok : WroteOutput s (u.writePrefix l) → WroteOutput s (onOk (u.writePrefix l)))
    (herr : WroteOutput s (u.writePrefix l) → WroteOutput s (onErr (u.writePrefix l))) :
    WroteOutput s (u.finishStream l onOk onErr) := by
  have hw : WroteOutput s (u.writePrefix l) :=
    wroteOutput_of_store hlatch hdmem (List.length_take_le _ l) (by simp [Nat.min_comm]) rfl
  rcases Nat.lt_or_ge u.latch.cap.toNat l.length with hlt | hle
  · rw [finishStream_of_lt hlt]
    exact herr hw
  · rw [finishStream_of_le hle]
    exact hok hw

theorem finishDecode_wroteOutput {s u : State} (hlatch : u.latch = s.latch) (hdmem : u.dmem = s.dmem)
    (input : List Byte) : WroteOutput s (u.finishDecode (rleDecode input u.latch.cap.toNat)) := by
  have hw : WroteOutput s (u.storeDecoded (rleDecode input u.latch.cap.toNat)) :=
    wroteOutput_of_store hlatch hdmem (rleDecode_bound input _).1 rfl rfl
  cases he : (rleDecode input u.latch.cap.toNat).err with
  | none =>
    rw [finishDecode_of_none he]
    exact hw
  | some p =>
    rw [finishDecode_of_some he]
    exact hw

theorem exec_wroteOutput {i : Instr} {s t : State} (hi : commandClass i = .transform) (h : exec i s = .next t) :
    WroteOutput s t := by
  have hclear := wroteOutput_clearOutLen s
  cases i with
  | rleEnc =>
    cases h
    exact withPrologue_wroteOutput hclear (finishStream_wroteOutput rfl rfl id id)
  | rleDec =>
    cases h
    exact withPrologue_wroteOutput hclear (finishDecode_wroteOutput rfl rfl _)
  | deflate =>
    cases h
    refine withPrologue_wroteOutput (hclear.congr rfl rfl) ?_
    unfold deflateRule
    exact finishStream_wroteOutput rfl rfl (·.congr rfl rfl) (·.congr rfl rfl)
  | zlib =>
    cases h
    refine withPrologue_wroteOutput (hclear.congr rfl rfl) ?_
    unfold zlibRule
    exact finishStream_wroteOutput rfl rfl (·.congr rfl rfl) (·.congr rfl rfl)
  | nop | crc32Start | crc32Cont | adler32Start | adler32Cont => cases hi

theorem withPrologue_checksum_dmem {s : State} {rule : State → State} (hrule : ∀ u, (rule u).dmem = u.dmem) :
    (withPrologue .checksum id rule s).dmem = s.dmem := by
  by_cases hs : s.SrcOk
  · rw [withPrologue_checksum_of_srcOk hs, hrule]
    rfl
  · rw [withPrologue_checksum_of_not_srcOk hs]
    rfl

theorem exec_dmem_of_not_transform {i : Instr} {s t : State} (hi : commandClass i ≠ .transform)
    (h : exec i s = .next t) : t.dmem = s.dmem := by
  cases i with
  | nop => cases h; rfl
  | crc32Start | crc32Cont | adler32Start | adler32Cont =>
    cases h
    exact withPrologue_checksum_dmem fun _ => rfl
  | rleEnc | rleDec | deflate | zlib => exact absurd rfl hi

theorem CommandEnds.dmem {s t : State} (h : CommandEnds s t) :
    t.dmem = s.dmem ∨ s.RegionsOk ∧
      ∃ l : List Byte, l.length ≤ s.latch.cap.toNat ∧ t.dmem = Memory.writeBytes s.dmem s.latch.dst.toNat l := by
  cases h with
  | complete h => exact h.dmem
  | raiseErr info h he => exact h.dmem

/-- The source region is read-only to the engine (20_memory.md R90): sound regions are apart. -/
theorem CommandEnds.read_source {s t : State} (h : CommandEnds s t) {x : Nat} (hlo : s.latch.src.toNat ≤ x)
    (hhi : x < s.latch.src.toNat + s.latch.n.toNat) : Memory.read t.dmem x = Memory.read s.dmem x := by
  rcases h.dmem with hd | ⟨⟨-, -, hapart⟩, l, hl, hd⟩
  · rw [hd]
  · rw [hd]
    refine Memory.read_writeBytes_outside ?_
    unfold State.Apart at hapart
    omega

/-- Settles O30: a transform command writes its counted output only, every other command nothing. -/
theorem commandFootprintIsTheOutput : Obligations.CommandFootprintIsTheOutput := by
  unfold Obligations.CommandFootprintIsTheOutput
  intro i s t h
  refine ⟨fun x hx => ?_, (exec_dmem_of_not_transform · h), fun hi => ?_, fun x => (exec_ends h).read_source⟩
  · by_cases hi : commandClass i = .transform
    · obtain ⟨l, -, hlen, hd⟩ := exec_wroteOutput hi h
      rw [hd]
      exact Memory.read_writeBytes_outside (hlen ▸ hx)
    · rw [exec_dmem_of_not_transform hi h]
  · obtain ⟨l, hl, hlen, -⟩ := exec_wroteOutput hi h
    rwa [hlen]

end Sys2Proof.Machine
end

section
/-! ### Command words (30_encoding.md R110 to R114)

A word's two fields decide what it is; as numbers they are the word's quotient and remainder by 256. -/

namespace Sys2Proof

/-- Each row of the command map pairs a command with its `op` value, and each command has its row. -/
theorem decodeOp_eq_some_iff {op : BitVec 8} {i : Instr} : decodeOp op = some i ↔ op = i.op := by
  constructor
  · intro h
    have hrows : ∀ r ∈ opMap, r.1 = r.2.op := by decide
    obtain ⟨l₁, l₂, hmap, -⟩ := List.lookup_eq_some_iff.1 h
    exact hrows (op, i) (by simp [hmap])
  · rintro rfl
    cases i <;> rfl

theorem decode_eq_ok_iff_fields {w : Word} {i : Instr} :
    decode w = .ok i ↔ rsvField w = 0 ∧ opField w = i.op := by
  rw [← decodeOp_eq_some_iff, decode]
  split
  case isTrue hrsv => cases decodeOp (opField w) <;> simp [hrsv]
  case isFalse hrsv => exact iff_of_false (by simp) fun h => hrsv h.1

theorem toNat_opField (w : Word) : (opField w).toNat = w.toNat % 256 := by simp [opField]

theorem toNat_rsvField (w : Word) : (rsvField w).toNat = w.toNat / 256 := by
  have := w.isLt
  simp only [rsvField, BitVec.extractLsb'_toNat, Nat.shiftRight_eq_div_pow]
  omega

theorem decode_eq_ok_iff {w : Word} {i : Instr} :
    decode w = .ok i ↔ w.toNat / 256 = 0 ∧ w.toNat % 256 = i.op.toNat := by
  rw [decode_eq_ok_iff_fields, ← BitVec.toNat_inj, ← BitVec.toNat_inj, toNat_rsvField, toNat_opField]
  rfl

theorem toNat_encode (i : Instr) : (encode i).toNat = i.op.toNat := by cases i <;> rfl

theorem decode_eq_ok_iff_eq_encode {w : Word} {i : Instr} : decode w = .ok i ↔ w = encode i := by
  have := i.op.isLt
  rw [decode_eq_ok_iff, ← BitVec.toNat_inj, toNat_encode]
  omega

/-- Settles O3: both sides say what the two fields of the word are. -/
theorem decodeInvertsEncode : Obligations.DecodeInvertsEncode := fun _ _ => decode_eq_ok_iff_eq_encode

/-- Settles O2: each word is the encoding of its row's command. -/
theorem commandMapWordsDecode : Obligations.CommandMapWordsDecode := by
  unfold Obligations.CommandMapWordsDecode
  simp only [decode_eq_ok_iff_eq_encode]
  decide

/-- The assigned `op` values (30_encoding.md R113, R114). -/
theorem exists_op_eq_iff {n : Nat} :
    (∃ i : Instr, n = i.op.toNat) ↔ ¬ (n = 0x03 ∨ n = 0x04 ∨ n = 0x07 ∨ 0x0C ≤ n) := by
  constructor
  · rintro ⟨i, rfl⟩
    cases i <;> decide
  · intro h
    have hrows : ∀ m < 12, ¬ (m = 0x03 ∨ m = 0x04 ∨ m = 0x07) → ∃ r ∈ opMap, m = r.2.op.toNat := by decide
    obtain ⟨r, -, hr⟩ := hrows n (by omega) (by omega)
    exact ⟨r.2, hr⟩

/-- The illegal words (30_encoding.md R114). -/
theorem forall_decode_ne_ok_iff {w : Word} :
    (∀ i : Instr, decode w ≠ .ok i) ↔
      (w.toNat / 256 ≠ 0 ∨ w.toNat % 256 = 0x03 ∨ w.toNat % 256 = 0x04 ∨ w.toNat % 256 = 0x07 ∨
        0x0C ≤ w.toNat % 256) := by
  rw [← not_exists_not]
  simp only [not_not, decode_eq_ok_iff, exists_and_left, exists_op_eq_iff]
  tauto

end Sys2Proof
end

section
/-! ### Completing a word (30_encoding.md R112, R114) -/

namespace Sys2Proof.Machine

open Sys2Proof.Reference

theorem completeWord_of_decode {w : Word} {i : Instr} (h : decode w = .ok i) (s : State) :
    completeWord w s = exec i s := by simp only [completeWord, h]

theorem completeWord_of_illegal {w : Word} (h : ∀ i : Instr, decode w ≠ .ok i) (s : State) :
    completeWord w s = .next (failed s 10 w) := by
  cases hd : decode w with
  | ok i => exact absurd hd (h i)
  | error e =>
    simp only [completeWord, hd]
    rfl

theorem step_of_busy {s : State} (hb : s.eng = .busy) (hn : s.EngineNext) :
    step s = completeWord s.latch.cmd s.takeEvent := by
  rw [step_of_engineNext hn]
  exact if_pos hb

/-- Settles O1: a word decodes to at most one command, which then is the one it performs, or to none. -/
theorem everyWordIsOneCommandOrIllegal : Obligations.EveryWordIsOneCommandOrIllegal := by
  unfold Obligations.EveryWordIsOneCommandOrIllegal
  intro w
  simp only [← decode_eq_ok_iff]
  by_cases h : ∃ i, decode w = .ok i
  · obtain ⟨i, hi⟩ := h
    refine .inl ⟨i, hi, fun j hj => ?_, completeWord_of_decode hi⟩
    simpa [hi] using hj.symm
  · have hnone := not_exists.1 h
    exact .inr ⟨hnone, completeWord_of_illegal hnone⟩

theorem writeCmd_of_idle {s : State} (h : s.eng = .idle) (w : Word) : s.writeCmd w = s.accept w :=
  if_neg (by simp [h])

/-- Settles O4: acceptance does not look at the word, and completing an illegal one raises its error. -/
theorem illegalWordsAreAcceptedAndRefusedAlike : Obligations.IllegalWordsAreAcceptedAndRefusedAlike := by
  unfold Obligations.IllegalWordsAreAcceptedAndRefusedAlike
  refine fun w => ⟨forall_decode_ne_ok_iff, fun hill s hr => ⟨fun hi hn => ?_, fun hb hw he => ?_⟩⟩
  · refine ⟨s.takeEvent.accept w, ?_, rfl, rfl, rfl⟩
    rw [step_regWrite (r := .cmd) hr hn, State.regWrite, writeCmd_of_idle (s := s.takeEvent) hi]
  · rw [step_of_busy hb he, hw, completeWord_of_illegal hill]

end Sys2Proof.Machine
end

section
/-! ### The pseudo-operation `wait` (30_encoding.md R119) -/

namespace Sys2Proof.Machine

theorem step_wait {s : State} (hr : s.inReset = false) (h : s.HostNext .wait) :
    step s = .next s.takeEvent.pollStatus := by
  rw [step_of_hostNext h, hostStep, whenOutOfReset_of_high (s := s.takeEvent) hr]

theorem busyFlag_of_idle {s : State} (h : s.eng = .idle) : s.busyFlag = false := by simp [State.busyFlag, h]

theorem busyFlag_of_busy {s : State} (h : s.eng = .busy) : s.busyFlag = true := by simp [State.busyFlag, h]

/-- A read of STATUS shows BUSY, whatever it shows of ERR (10_state.md R60). -/
theorem getLsbD_zero_regRead_status (s : State) : (s.regRead .status).getLsbD 0 = s.busyFlag := by
  cases h : s.eng with
  | idle =>
    rw [regRead_of_idle h]
    exact (statusWith_bits s s.errFlag).1
  | busy =>
    rw [regRead_status_of_busy h]
    exact (statusWith_bits s _).1

/-- A poll reads STATUS, and repeats behind a turn of the engine while Busy. -/
theorem pollStatus_eq (s : State) :
    s.pollStatus = if s.busyFlag then
      { s.doRegRead Reg.status.offset with inbox := .engine :: .host .wait :: s.inbox }
      else s.doRegRead Reg.status.offset := by
  rw [← getLsbD_zero_regRead_status, ← offsetRead_offset]
  rfl

/-- Settles O20: the poll ends exactly when BUSY reads 0. -/
theorem waitPollsUntilIdle : Obligations.WaitPollsUntilIdle := by
  unfold Obligations.WaitPollsUntilIdle
  intro s hr h
  rw [step_wait hr h, pollStatus_eq]
  refine ⟨fun hi => ?_, fun hb => ⟨s.takeEvent.regRead .status, s.draws + 1, ?_, ?_⟩⟩
  · rw [busyFlag_of_idle (s := s.takeEvent) hi, if_neg Bool.false_ne_true, doRegRead_of_idle (s := s.takeEvent) hi,
      offsetRead_offset, regRead_of_idle (s := s.takeEvent) hi]
    rfl
  · rw [getLsbD_zero_regRead_status, busyFlag_of_busy (s := s.takeEvent) hb]
  · rw [busyFlag_of_busy (s := s.takeEvent) hb, if_pos rfl, State.doRegRead, offsetRead_offset]
    simp [hb]

end Sys2Proof.Machine
end

section
/-! ### The bits of a block and their tables (30_encoding.md R124 to R132) -/

namespace Sys2Proof.Machine

open Sys2Proof.Reference

/-- Settles O53: the packer's bits are its fields in order. -/
theorem blockBitsInStreamOrder : Obligations.BlockBitsInStreamOrder := bitsOf_packBlock

/-- Settles O54: the model's tables are the spec's rows, and a value lies in the row chosen for it. -/
theorem extraBitsHoldTheDifference : Obligations.ExtraBitsHoldTheDifference := by
  unfold Obligations.ExtraBitsHoldTheDifference
  refine ⟨⟨rfl, rfl, fun i _ => ⟨lengthBase_getD i, lengthExtra_getD i⟩⟩,
    ⟨rfl, rfl, fun j _ => ⟨distBase_getD j, distExtra_getD j⟩⟩, by decide, by decide,
    fun len h3 h258 => ?_, by decide, fun dist h1 hwindow => ?_⟩
  · obtain ⟨hrow, hbase, hsub⟩ := inRow_lengthRows h3 h258
    rw [lengthBase_getD, lengthExtra_getD, lengthIndex_eq_rowOf]
    exact ⟨rfl, Nat.le_of_lt_succ hrow, hbase, hsub⟩
  · obtain ⟨hrow, hbase, hsub⟩ := inRow_distRows h1 hwindow
    rw [distBase_getD, distExtra_getD, distIndex_eq_rowOf]
    exact ⟨rfl, Nat.le_of_lt_succ hrow, hbase, hsub⟩

end Sys2Proof.Machine
end

section
/-! ### Accepting and completing a command (40_control.md R160 to R170) -/

namespace Sys2Proof.Machine

/-! #### Completion -/

/-- A command is never refused: the engine completes it whatever its operands are (40_control.md R163). -/
theorem exists_next_exec (i : Instr) (s : State) : ∃ t : State, exec i s = .next t := by
  cases i <;> exact ⟨_, rfl⟩

theorem exists_next_completeWord (w : Word) (s : State) : ∃ t : State, completeWord w s = .next t := by
  by_cases h : ∃ i : Instr, decode w = .ok i
  · obtain ⟨i, hi⟩ := h
    rw [completeWord_of_decode hi]
    exact exists_next_exec i s
  · exact ⟨_, completeWord_of_illegal (not_exists.1 h) s⟩

theorem CommandEnds.done {s t : State} (h : CommandEnds s t) : t.done = true := by cases h <;> rfl

/-- Settles O28: a word has a next state, and either way to end a command sets DONE and makes the engine Idle. -/
theorem everyCommandCompletes : Obligations.EveryCommandCompletes := by
  unfold Obligations.EveryCommandCompletes
  intro w s
  obtain ⟨t, h⟩ := exists_next_completeWord w s
  exact ⟨t, h, (completeWord_ends h).done, (completeWord_ends h).eng⟩

/-- Settles O34: `nop` is the successful completion alone. -/
theorem nopOnlyCompletes : Obligations.NopOnlyCompletes := fun _ => rfl

/-! #### The engine's turn -/

theorem step_of_busy_of_decode {s : State} {i : Instr} (hb : s.eng = .busy) (hn : s.EngineNext)
    (h : decode s.latch.cmd = .ok i) : step s = exec i s.takeEvent := by
  rw [step_of_busy hb hn, completeWord_of_decode h]

/-- Settles O5: the engine's turn completes the latched word, which is the command. -/
theorem engineTurnRunsTheLatchedCommand : Obligations.EngineTurnRunsTheLatchedCommand :=
  fun _ _ => step_of_busy_of_decode

theorem decodeTableWord_eq_some_iff {nbits w : Nat} {i : Instr} :
    decodeTableWord nbits w = some i ↔ decode (tableWord nbits w) = .ok i := by
  unfold decodeTableWord
  cases decode (tableWord nbits w) <;> simp [Except.toOption]

theorem takeEvent_withFetchWord (s : State) (nbits w : Nat) :
    (s.withFetchWord nbits w).takeEvent = { s.accept (tableWord nbits w) with inReset := false } := rfl

/-- Settles O6: `withFetchWord` latches the word in a Busy engine whose turn is next. -/
theorem fetchedWordRunsAtTheNextStep : Obligations.FetchedWordRunsAtTheNextStep := by
  unfold Obligations.FetchedWordRunsAtTheNextStep
  intro s i nbits w h
  rw [step_of_busy_of_decode (s := s.withFetchWord nbits w) rfl (.inr rfl) (decodeTableWord_eq_some_iff.1 h),
    takeEvent_withFetchWord]

/-! #### A write of CMD -/

theorem step_cmdWrite {s : State} {w : Word} (hr : s.inReset = false) (h : s.HostNext (.regWrite .word 0x0C w)) :
    step s = .next (s.takeEvent.writeCmd w) :=
  step_regWrite (r := .cmd) hr h

theorem writeCmd_of_busy {s : State} (h : s.eng = .busy) (w : Word) : s.writeCmd w = { s with ovr := true } := if_pos h

theorem irq_of_not_done {s : State} (h : s.done = false) : s.irq = false := by rw [State.irq, h, Bool.and_false]

/-- Settles O12: while Idle the write is `State.accept`, which clears DONE. -/
theorem idleEngineAcceptsAnyCommandWord : Obligations.IdleEngineAcceptsAnyCommandWord := by
  unfold Obligations.IdleEngineAcceptsAnyCommandWord
  intro s w hi hr h
  refine ⟨?_, irq_of_not_done (State.accept_done s.takeEvent w)⟩
  rw [step_cmdWrite hr h, writeCmd_of_idle (s := s.takeEvent) hi]
  rfl

/-- Settles O13: while Busy the write sets OVR alone. -/
theorem busyEngineDropsACommandWord : Obligations.BusyEngineDropsACommandWord := by
  unfold Obligations.BusyEngineDropsACommandWord
  intro s w hb hr h
  rw [step_cmdWrite hr h, writeCmd_of_busy (s := s.takeEvent) hb]

end Sys2Proof.Machine
end

section
/-! ### The RLE container and its decoder (41_rle.md R180 to R188)

The encoder's bytes are the container of its runs, and the decoder peels the pairs of a container one by one, so what
decides is what it makes of the bytes behind the pairs that fit. -/

namespace Sys2Proof.Machine

open Sys2Proof.Reference

/-! #### Containers -/

/-- The bytes of the pairs of a container (30_encoding.md R122). -/
def pairBytes (pairs : List (Byte × Byte)) : List Byte := pairs.flatMap fun p => [p.1, p.2]

@[simp] theorem pairBytes_nil : pairBytes [] = [] := rfl

@[simp] theorem pairBytes_cons (p : Byte × Byte) (pairs : List (Byte × Byte)) :
    pairBytes (p :: pairs) = p.1 :: p.2 :: pairBytes pairs := rfl

@[simp] theorem length_pairBytes (pairs : List (Byte × Byte)) : (pairBytes pairs).length = 2 * pairs.length := by
  induction pairs with
  | nil => rfl
  | cons p pairs ih => simp only [pairBytes_cons, List.length_cons, ih]; omega

@[simp] theorem expansion_nil : expansion [] = [] := rfl

@[simp] theorem expansion_cons (p : Byte × Byte) (pairs : List (Byte × Byte)) :
    expansion (p :: pairs) = List.replicate p.1.toNat p.2 ++ expansion pairs := rfl

theorem leBytes_eq_map (k v : Nat) : leBytes k v = (List.range k).map fun i => BitVec.ofNat 8 (v / 256 ^ i) := by
  induction k generalizing v with
  | zero => rfl
  | succ k ih =>
    simp [leBytes, ih, List.range_succ_eq_map, Nat.div_div_eq_div_mul, Nat.pow_succ, Nat.mul_comm]

theorem le64_eq_sizeField (size : Nat) : le64 size = sizeField size := leBytes_eq_map 8 size

theorem container_eq (size : Nat) (pairs : List (Byte × Byte)) :
    container size pairs = Config.rleMagic ++ le64 size ++ pairBytes pairs := by
  rw [le64_eq_sizeField]
  rfl

@[simp] theorem length_container (size : Nat) (pairs : List (Byte × Byte)) :
    (container size pairs).length = 12 + 2 * pairs.length := by
  rw [container_eq, List.length_append, List.length_append, le64, length_leBytes, length_pairBytes]
  rfl

theorem ofLeBytes_le64 {size : Nat} (h : size < 2 ^ 64) : ofLeBytes (le64 size) = size := by
  rw [le64, ofLeBytes_leBytes]
  exact Nat.mod_eq_of_lt h

/-! #### The encoder's runs -/

/-- The run ends at its cap or before a byte of another value (41_rle.md R181). -/
theorem head?_drop_runMore_ne {v : Byte} {k : Nat} {l : List Byte} (h : runMore v k l < k) :
    (l.drop (runMore v k l)).head? ≠ some v := by
  induction k generalizing l with
  | zero => omega
  | succ k ih =>
    cases l with
    | nil => simp
    | cons b l =>
      simp only [runMore] at h ⊢
      split at h
      case isTrue hb =>
        rw [if_pos hb]
        exact ih (Nat.lt_of_succ_lt_succ h)
      case isFalse hb =>
        rw [if_neg hb]
        simpa using hb

/-- The runs of an input as (count, value) pairs, whose bytes are `rlePairs`. -/
def rleRuns : Nat → List Byte → List (Byte × Byte)
  | 0, _ => []
  | _, [] => []
  | fuel + 1, v :: rest =>
    let more := runMore v (Config.maxRun - 1) rest
    (BitVec.ofNat 8 (more + 1), v) :: rleRuns fuel (rest.drop more)

theorem rlePairs_eq_pairBytes_rleRuns (fuel : Nat) (l : List Byte) : rlePairs fuel l = pairBytes (rleRuns fuel l) := by
  fun_induction rleRuns fuel l with
  | case1 => rfl
  | case2 fuel => cases fuel <;> rfl
  | case3 fuel v rest more ih => simp only [rlePairs, pairBytes_cons, ← ih, more]

theorem rleEncode_eq_container (l : List Byte) : rleEncode l = container l.length (rleRuns l.length l) := by
  rw [container_eq, rleEncode, rlePairs_eq_pairBytes_rleRuns]

/-- The count byte of a run does not wrap: a run has at most 255 bytes. -/
theorem toNat_runCount (v : Byte) (l : List Byte) :
    (BitVec.ofNat 8 (runMore v (Config.maxRun - 1) l + 1)).toNat = runMore v (Config.maxRun - 1) l + 1 := by
  have hle : runMore v (Config.maxRun - 1) l ≤ 254 := (runMore_le v _ l).1
  rw [BitVec.toNat_ofNat]
  exact Nat.mod_eq_of_lt (by omega)

theorem expansion_rleRuns {fuel : Nat} {l : List Byte} (h : l.length ≤ fuel) : expansion (rleRuns fuel l) = l := by
  fun_induction rleRuns fuel l with
  | case1 l => exact (List.length_eq_zero_iff.1 (Nat.le_zero.1 h)).symm
  | case2 => rfl
  | case3 fuel v rest more ih =>
    have hrest : (rest.drop more).length ≤ fuel := by
      simp only [List.length_cons, List.length_drop] at h ⊢
      omega
    rw [expansion_cons, toNat_runCount, ih hrest, List.replicate_succ, List.cons_append, ← take_runMore,
      List.take_append_drop]

theorem rleRuns_count_ne_zero (fuel : Nat) (l : List Byte) : ∀ p ∈ rleRuns fuel l, p.1 ≠ 0 := by
  fun_induction rleRuns fuel l with
  | case1 => simp
  | case2 => simp
  | case3 fuel v rest more ih =>
    exact List.forall_mem_cons.2
      ⟨fun h => Nat.succ_ne_zero _ ((toNat_runCount v rest).symm.trans (congrArg BitVec.toNat h)), ih⟩

theorem length_rleRuns_le (fuel : Nat) (l : List Byte) : (rleRuns fuel l).length ≤ l.length := by
  fun_induction rleRuns fuel l with
  | case1 => simp
  | case2 => simp
  | case3 fuel v rest more ih =>
    simp only [List.length_cons, List.length_drop] at ih ⊢
    omega

/-- The first run's value is the first byte. -/
theorem head?_of_mem_head?_rleRuns {fuel : Nat} {l : List Byte} {p : Byte × Byte} (h : p ∈ (rleRuns fuel l).head?) :
    l.head? = some p.2 := by
  cases fuel with
  | zero => simp [rleRuns] at h
  | succ fuel =>
    cases l with
    | nil => simp [rleRuns] at h
    | cons v rest =>
      simp only [rleRuns, List.head?_cons, Option.mem_some_iff] at h
      simp [← h]

theorem isChain_rleRuns (fuel : Nat) (l : List Byte) :
    (rleRuns fuel l).IsChain fun p q => p.2 ≠ q.2 ∨ p.1 = 255 := by
  fun_induction rleRuns fuel l with
  | case1 => exact .nil
  | case2 => exact .nil
  | case3 fuel v rest more ih =>
    refine List.isChain_cons.2 ⟨fun q hq => ?_, ih⟩
    have hhead : (rest.drop more).head? = some q.2 := head?_of_mem_head?_rleRuns hq
    rcases Nat.lt_or_ge more (Config.maxRun - 1) with hlt | hge
    · exact .inl fun hv => head?_drop_runMore_ne hlt (hhead.trans (congrArg some hv.symm))
    · have hmore : more = Config.maxRun - 1 := Nat.le_antisymm (runMore_le v _ rest).1 hge
      exact .inr (by rw [hmore]; rfl)

theorem length_rleEncode_le (l : List Byte) : (rleEncode l).length ≤ 12 + 2 * l.length := by
  have := length_rleRuns_le l.length l
  rw [rleEncode_eq_container, length_container]
  omega

/-- Settles O42: the pairs are the encoder's runs. -/
theorem rleContainerHasMaximalRuns : Obligations.RleContainerHasMaximalRuns := by
  unfold Obligations.RleContainerHasMaximalRuns
  intro x
  exact ⟨rleRuns x.length x, rleEncode_eq_container x, expansion_rleRuns le_rfl, rleRuns_count_ne_zero _ _,
    isChain_rleRuns _ _, length_rleEncode_le x⟩

/-! #### `rle.enc` -/

theorem exec_rleEnc_of_regionsOk {s : State} (h : s.RegionsOk) :
    exec .rleEnc s = .next
      ({ s with outLen := 0, hdrSizeLo := s.latch.n, hdrSizeHi := 0 }.finishStream (rleEncode s.srcBytes) id id) :=
  congrArg _ (withPrologue_transform_of_regionsOk h)

/-- Settles O40: a container that fits is written whole. -/
theorem rleEncWritesTheContainer : Obligations.RleEncWritesTheContainer := by
  unfold Obligations.RleEncWritesTheContainer
  intro s hr hfit
  rw [exec_rleEnc_of_regionsOk hr, finishStream_of_le (by exact hfit)]
  simp [State.writePrefix, State.complete, completed, List.take_of_length_le hfit, Nat.min_eq_left hfit]

/-- Settles O41: the bounded output write stops at the capacity. -/
theorem rleEncStopsAtTheCapacity : Obligations.RleEncStopsAtTheCapacity := by
  unfold Obligations.RleEncStopsAtTheCapacity
  intro s hr hfull
  rw [exec_rleEnc_of_regionsOk hr, finishStream_of_lt (by exact hfull)]
  simp [State.writePrefix, State.raiseErr, Err.code, failed, Nat.min_eq_right hfull.le]

/-! #### The decoder -/

theorem firstMismatch_append_self (ms rest : List Byte) (j : Nat) : firstMismatch ms (ms ++ rest) j = none := by
  induction ms generalizing j with
  | nil => simp [firstMismatch]
  | cons m ms ih => simp [firstMismatch, ih]

theorem firstMismatch_eq_some {ms bs : List Byte} {j : Nat} (i : Nat) (hms : j < ms.length) (hbs : j < bs.length)
    (heq : ∀ k < j, bs.getD k 0 = ms.getD k 0) (hne : bs.getD j 0 ≠ ms.getD j 0) :
    firstMismatch ms bs i = some (i + j) := by
  induction ms generalizing bs j i with
  | nil => simp at hms
  | cons m ms ih =>
    cases bs with
    | nil => simp at hbs
    | cons b bs =>
      cases j with
      | zero => exact if_neg hne
      | succ j =>
        have h0 : b = m := heq 0 (Nat.succ_pos j)
        have htail := ih (i + 1) (Nat.lt_of_succ_lt_succ hms) (Nat.lt_of_succ_lt_succ hbs)
          (fun k hk => heq (k + 1) (Nat.succ_lt_succ hk)) hne
        rw [firstMismatch, if_pos h0, htail, Nat.add_right_comm]
        rfl

theorem rleDecode_of_short {input : List Byte} (cap : Nat) (h : input.length < 12) :
    rleDecode input cap = ⟨[], 0, some (.truncatedInput, input.length)⟩ := if_pos h

theorem rleDecode_of_badMagic {input : List Byte} {j : Nat} (cap : Nat) (hlen : 12 ≤ input.length)
    (h : firstMismatch Config.rleMagic input 0 = some j) :
    rleDecode input cap = ⟨[], 0, some (.badMagic, j)⟩ := by
  simp only [rleDecode, if_neg (Nat.not_lt.2 hlen), h]

theorem toNat_ne_zero_of_ne_zero {c : Byte} (h : c ≠ 0) : c.toNat ≠ 0 := fun h0 => h (BitVec.eq_of_toNat_eq h0)

/-- Pairs that fit the declared size and the capacity are expanded; the bytes behind them decide the end (R185). -/
theorem rleExpand_pairBytes_append {n size cap : Nat} {tail : List Byte} {pairs : List (Byte × Byte)}
    {r : List Byte × Option (Err × Nat)} (h0 : ∀ p ∈ pairs, p.1 ≠ 0) {k produced : Nat}
    (hsize : produced + (expansion pairs).length ≤ size) (hcap : produced + (expansion pairs).length ≤ cap)
    (hr : rleExpand n size cap tail (k + 2 * pairs.length) (produced + (expansion pairs).length) = r) :
    rleExpand n size cap (pairBytes pairs ++ tail) k produced = (expansion pairs ++ r.1, r.2) := by
  induction pairs generalizing k produced with
  | nil => exact hr
  | cons p pairs ih =>
    obtain ⟨hp, h0⟩ := List.forall_mem_cons.1 h0
    simp only [expansion_cons, List.length_append, List.length_replicate, ← Nat.add_assoc] at hsize hcap hr
    rw [List.length_cons, show k + 2 * (pairs.length + 1) = k + 2 + 2 * pairs.length by omega] at hr
    rw [pairBytes_cons, List.cons_append, List.cons_append, rleExpand, if_neg (toNat_ne_zero_of_ne_zero hp),
      if_neg (by omega), if_neg (by omega), ih h0 hsize hcap hr, emitRun, expansion_cons, List.append_assoc]

/-- The decoder on a container of pairs that fit, with any bytes behind it. -/
theorem rleDecode_of_container {input tail : List Byte} {size cap : Nat} {pairs : List (Byte × Byte)}
    {r : List Byte × Option (Err × Nat)} (hsize : size < 2 ^ 64) (h0 : ∀ p ∈ pairs, p.1 ≠ 0)
    (hinput : input = container size pairs ++ tail) (hle : (expansion pairs).length ≤ size)
    (hcap : (expansion pairs).length ≤ cap)
    (hr : rleExpand input.length size cap tail (12 + 2 * pairs.length) (expansion pairs).length = r) :
    rleDecode input cap = ⟨expansion pairs ++ r.1, size, r.2⟩ := by
  have hlong : ¬ input.length < 12 := by
    rw [hinput, List.length_append, length_container]
    omega
  have hsplit : input = Config.rleMagic ++ (le64 size ++ (pairBytes pairs ++ tail)) := by
    rw [hinput, container_eq, List.append_assoc, List.append_assoc]
  have hmagic : firstMismatch Config.rleMagic input 0 = none := by
    rw [hsplit]
    exact firstMismatch_append_self _ _ _
  have hfield : (input.drop 4).take 8 = le64 size := by
    rw [hsplit]
    rfl
  have hpairs : input.drop Config.rleHeaderLen = pairBytes pairs ++ tail := by
    rw [hsplit]
    rfl
  have hexpand : rleExpand input.length size cap (pairBytes pairs ++ tail) 12 0 = (expansion pairs ++ r.1, r.2) :=
    rleExpand_pairBytes_append h0 (by rwa [Nat.zero_add]) (by rwa [Nat.zero_add]) (by rwa [Nat.zero_add])
  simp only [rleDecode, if_neg hlong, hmagic, hfield, ofLeBytes_le64 hsize, hpairs, hexpand]

/-! #### `rle.dec` -/

/-- A failed header check leaves a size of 0 and no output. -/
theorem storeDecoded_nil_zero (s : State) (err : Option (Err × Nat)) :
    s.storeDecoded ⟨[], 0, err⟩ = { s with outLen := 0, hdrSizeLo := 0, hdrSizeHi := 0 } := by
  simp [State.storeDecoded]

theorem exec_rleDec_of_regionsOk {s : State} (h : s.RegionsOk) :
    exec .rleDec s = .next (s.clearOutLen.finishDecode (rleDecode s.srcBytes s.latch.cap.toNat)) :=
  congrArg _ (withPrologue_transform_of_regionsOk h)

theorem exec_rleDec_completed {s : State} {out : List Byte} {size : Nat} (h : s.RegionsOk)
    (hd : rleDecode s.srcBytes s.latch.cap.toNat = ⟨out, size, none⟩) :
    exec .rleDec s = .next (completed (s.storeDecoded ⟨out, size, none⟩)) := by
  rw [exec_rleDec_of_regionsOk h, hd, finishDecode_of_none rfl]
  rfl

theorem exec_rleDec_failed {s : State} {out : List Byte} {size info : Nat} {e : Err} (h : s.RegionsOk)
    (hd : rleDecode s.srcBytes s.latch.cap.toNat = ⟨out, size, some (e, info)⟩) :
    exec .rleDec s =
      .next (failed (s.storeDecoded ⟨out, size, some (e, info)⟩) e.code (BitVec.ofNat 32 info)) := by
  rw [exec_rleDec_of_regionsOk h, hd, finishDecode_of_some rfl]
  rfl

/-- Settles O44: the header checks end the decoder before it has written a byte. -/
theorem rleDecChecksTheHeader : Obligations.RleDecChecksTheHeader := by
  unfold Obligations.RleDecChecksTheHeader
  intro s hr magic u
  refine ⟨fun hshort => ?_, fun hlong j hj heq hne => ?_⟩
  · have hd := rleDecode_of_short s.latch.cap.toNat (s.length_srcBytes ▸ hshort)
    rw [exec_rleDec_failed hr hd, storeDecoded_nil_zero, s.length_srcBytes, BitVec.ofNat_toNat, BitVec.setWidth_eq]
    rfl
  · have hlen : 12 ≤ s.srcBytes.length := s.length_srcBytes ▸ hlong
    have hmis := firstMismatch_eq_some (ms := Config.rleMagic) 0 hj (hj.trans_le (by omega)) heq hne
    rw [exec_rleDec_failed hr (rleDecode_of_badMagic _ hlen hmis), storeDecoded_nil_zero, Nat.zero_add]
    rfl

/-- Settles O43: behind the last pair nothing is left and the declared size is met. -/
theorem rleDecExpandsAValidContainer : Obligations.RleDecExpandsAValidContainer := by
  unfold Obligations.RleDecExpandsAValidContainer
  intro s pairs hr h0 hsrc hcap
  have hsize : (expansion pairs).length < 2 ^ 32 := hcap.trans_lt s.latch.cap.isLt
  have hd := rleDecode_of_container (hsize.trans (by decide)) h0 (hsrc.trans (List.append_nil _).symm) le_rfl hcap
    (by rw [rleExpand, if_pos rfl])
  rw [List.append_nil] at hd
  rw [exec_rleDec_completed hr hd, State.storeDecoded, Nat.div_eq_of_lt hsize]
  rfl

/-- Settles O45: each fault is what the decoder's loop finds first behind the pairs that fit. -/
theorem rleDecStopsAtTheFirstFault : Obligations.RleDecStopsAtTheFirstFault := by
  unfold Obligations.RleDecStopsAtTheFirstFault
  intro s size pairs tail hr hsize h0 hsrc hle hcap k done
  have fault : ∀ {out : List Byte} {e : Err} {info : Nat},
      rleExpand s.srcBytes.length size s.latch.cap.toNat tail (12 + 2 * pairs.length) (expansion pairs).length =
        (out, some (e, info)) →
      exec .rleDec s = .next (failed (done (expansion pairs ++ out)) e.code (BitVec.ofNat 32 info)) :=
    fun h => exec_rleDec_failed hr (rleDecode_of_container hsize h0 hsrc hle hcap h)
  refine ⟨?shortEnd, ?loneByte, ?pair⟩
  case shortEnd =>
    rintro rfl hshort
    have h := fault (by rw [rleExpand, if_neg hshort.ne])
    rwa [List.append_nil, s.length_srcBytes, BitVec.ofNat_toNat, BitVec.setWidth_eq] at h
  case loneByte =>
    rintro b rfl
    have h := fault (by rw [rleExpand])
    rwa [List.append_nil] at h
  case pair =>
    rintro c v more rfl
    refine ⟨fun hc => ?zeroCount, fun hc hover => ?pastSize, fun hc hfits hfull => ?pastCap⟩
    case zeroCount =>
      have h := fault (by rw [rleExpand, if_pos (by rw [hc]; rfl)])
      rwa [List.append_nil] at h
    case pastSize =>
      have h := fault (by rw [rleExpand, if_neg (toNat_ne_zero_of_ne_zero hc), if_pos hover])
      rwa [List.append_nil] at h
    case pastCap =>
      have h := fault (by
        rw [rleExpand, if_neg (toNat_ne_zero_of_ne_zero hc), if_neg (Nat.not_lt.2 hfits), if_pos hfull])
      rwa [BitVec.ofNat_toNat, BitVec.setWidth_eq] at h

/-! #### The round trip -/

/-- The bytes `rle.enc` leaves at DST, as many as OUT_LEN counts. -/
theorem readBytes_output_rleEnc {s t : State} (hr : s.RegionsOk)
    (hfit : (rleEncode s.srcBytes).length ≤ s.latch.cap.toNat) (ht : exec .rleEnc s = .next t) :
    Memory.readBytes t.dmem s.latch.dst.toNat t.outLen.toNat = rleEncode s.srcBytes := by
  rw [rleEncWritesTheContainer s hr hfit] at ht
  obtain rfl := Host.Outcome.next.inj ht
  simp only [completed]
  rw [BitVec.toNat_ofNat, Nat.mod_eq_of_lt (hfit.trans_lt s.latch.cap.isLt), Memory.readBytes_writeBytes]

/-- Settles O46: the encoder's output is a valid container of its input, and the decoder expands it. -/
theorem rleRoundTrip : Obligations.RleRoundTrip := by
  unfold Obligations.RleRoundTrip
  intro s t dst2 cap2 hr hroom ht u hu hcap2
  have hfit : (rleEncode s.srcBytes).length ≤ s.latch.cap.toNat := by
    have := length_rleEncode_le s.srcBytes
    rw [s.length_srcBytes] at this
    omega
  have hsrc : u.srcBytes = rleEncode s.srcBytes := readBytes_output_rleEnc (t := t) hr hfit ht
  obtain ⟨pairs, henc, hexp, h0, -, -⟩ := rleContainerHasMaximalRuns s.srcBytes
  have hn : (expansion pairs).length = s.latch.n.toNat := by rw [hexp, s.length_srcBytes]
  have hword : BitVec.ofNat 32 (expansion pairs).length = s.latch.n := by
    rw [hn, BitVec.ofNat_toNat, BitVec.setWidth_eq]
  have hdec := rleDecExpandsAValidContainer u pairs hu h0 (by rw [hsrc, henc, hexp]) (hn ▸ hcap2)
  refine ⟨_, hdec, rfl, hword, hword, rfl, ?_⟩
  rw [← hexp, ← hn]
  exact Memory.readBytes_writeBytes _ _ _

end Sys2Proof.Machine
end

section
/-! ### The hash, the tables of the earlier positions and the greedy parse (42_deflate.md R218 to R221, R237, R238) -/

namespace Sys2Proof.Machine

open Sys2Proof.Reference

/-! #### The hash -/

theorem hash3_eq_xor_mod (b0 b1 b2 : Byte) :
    hash3 b0 b1 b2 = (b0.toNat * 2 ^ 10 ^^^ b1.toNat * 2 ^ 5 ^^^ b2.toNat) % 2 ^ 15 := by
  rw [hash3, Nat.shiftLeft_eq, Nat.shiftLeft_eq]
  exact Nat.and_two_pow_sub_one_eq_mod _ 15

/-- Rolling a byte in does not depend on the bits above the fifteen kept. -/
theorem mod_mul_xor_mod (h b : Nat) : (h % 2 ^ 15 * 2 ^ 5 ^^^ b) % 2 ^ 15 = (h * 2 ^ 5 ^^^ b) % 2 ^ 15 := by
  rw [Nat.xor_mod_two_pow, Nat.mod_mul_mod, ← Nat.xor_mod_two_pow]

theorem hash3_eq_rolledHash (b0 b1 b2 : Byte) : hash3 b0 b1 b2 = rolledHash [b0, b1, b2] :=
  calc hash3 b0 b1 b2
      = ((b0.toNat * 2 ^ 5 ^^^ b1.toNat) * 2 ^ 5 ^^^ b2.toNat) % 2 ^ 15 := by
        rw [hash3_eq_xor_mod, ← Nat.shiftLeft_eq (_ ^^^ _), Nat.shiftLeft_xor_distrib, Nat.shiftLeft_eq,
          Nat.shiftLeft_eq, Nat.mul_assoc, ← Nat.pow_add]
    _ = (((0 * 2 ^ 5 ^^^ b0.toNat) % 2 ^ 15 * 2 ^ 5 ^^^ b1.toNat) % 2 ^ 15 * 2 ^ 5 ^^^ b2.toNat) % 2 ^ 15 := by
        rw [mod_mul_xor_mod (_ ^^^ b0.toNat), mod_mul_xor_mod, Nat.zero_mul, Nat.zero_xor]

/-- The bits of the first byte above its five low ones are shifted out of the hash. -/
theorem hash3_congr_first {b0 c0 : Byte} (h : c0.toNat % 32 = b0.toNat % 32) (b1 b2 : Byte) :
    hash3 c0 b1 b2 = hash3 b0 b1 b2 := by
  have hshift : c0.toNat * 2 ^ 10 % 2 ^ 15 = b0.toNat * 2 ^ 10 % 2 ^ 15 := by omega
  simp only [hash3_eq_xor_mod, Nat.xor_mod_two_pow, hshift]

theorem take_three_drop {input : List Byte} {q : Nat} (hq : q + 3 ≤ input.length) :
    (input.drop q).take 3 = [inByte input q, inByte input (q + 1), inByte input (q + 2)] := by
  rw [List.drop_eq_getElem_cons (by omega), List.drop_eq_getElem_cons (by omega), List.drop_eq_getElem_cons (by omega)]
  simp only [List.take_succ_cons, List.take_zero, inByte, List.getD_eq_getElem?_getD,
    List.getElem?_eq_getElem (show q < input.length by omega),
    List.getElem?_eq_getElem (show q + 1 < input.length by omega),
    List.getElem?_eq_getElem (show q + 2 < input.length by omega), Option.getD_some]

theorem hashAt_eq_windowHash {input : List Byte} {q : Nat} (hq : q + 3 ≤ input.length) :
    hashAt input q = windowHash input q := by
  rw [hashAt, hash3_eq_rolledHash, windowHash, take_three_drop hq]

/-- Settles O60: multiplying by a power of two shifts, and each roll keeps fifteen bits. -/
theorem hashIsAFifteenBitRolledXor : Obligations.HashIsAFifteenBitRolledXor := by
  unfold Obligations.HashIsAFifteenBitRolledXor
  exact ⟨fun b0 b1 b2 =>
      ⟨hash3_eq_xor_mod b0 b1 b2, hash3_eq_rolledHash b0 b1 b2, fun _ h => hash3_congr_first h b1 b2⟩,
    fun _ _ hq => hashAt_eq_windowHash hq, by decide, by decide, by decide, by decide⟩

/-! #### The tables of all earlier positions, and the parse -/

theorem insertRange_add (input : List Byte) (t : MatchTables) (p j k : Nat) :
    insertRange input t p (j + k) = insertRange input (insertRange input t p j) (p + j) k := by
  induction j generalizing t p with
  | zero => simp [insertRange]
  | succ j ih =>
    rw [show j + 1 + k = (j + k) + 1 by omega, insertRange, insertRange, ih, show p + 1 + j = p + (j + 1) by omega]

theorem ringTables_add (input : List Byte) (p k : Nat) :
    ringTables input (p + k) = insertRange input (ringTables input p) p k := by
  rw [ringTables, insertRange_add, Nat.zero_add]; rfl

theorem ringTables_succ (input : List Byte) (p : Nat) :
    ringTables input (p + 1) = insertPos input (ringTables input p) p := ringTables_add input p 1

theorem ringTables_form (input : List Byte) (p : Nat) : TablesForm (ringTables input p) :=
  insertRange_form 0 p initTables_form

/-- The parse from `p` on, with the tables of all positions before `p`, is the greedy one. -/
theorem parseFrom_ringTables (input : List Byte) (fuel p : Nat) :
    (parseFrom input fuel p (ringTables input p)).1 = greedy input fuel p := by
  induction fuel generalizing p with
  | zero => rfl
  | succ fuel ih =>
    simp only [parseFrom, greedy, Config.minMatch]
    split
    case isFalse => rfl
    case isTrue =>
      split
      case isTrue => simp only [← ringTables_add, ih]
      case isFalse => simp only [← ringTables_succ, ih, inByte]

/-- Settles O50: behind a symbol the tables hold the positions it covers. -/
theorem parseIsGreedyOverTheConsumedPrefix : Obligations.ParseIsGreedyOverTheConsumedPrefix := by
  unfold Obligations.ParseIsGreedyOverTheConsumedPrefix
  exact fun input => parseFrom_ringTables input input.length 0

/-- Settles O52: a match copies bytes that are already expanded. -/
theorem parseExpandsToTheInput : Obligations.ParseExpandsToTheInput := expandSyms_parse

end Sys2Proof.Machine
end

section
/-! ### The search of the match finder (42_deflate.md R222 to R228)

The ring of `prev` holds what the unbounded chain does for every position in the window, so the search compares the
candidates of the unbounded chain, each nearer than the next. -/

namespace Sys2Proof.Machine

open Sys2Proof.Reference

/-! #### The ring and the unbounded chain -/

/-- The unbounded tables before position `p`: a chain leads from below `p` downwards. -/
structure ChainFalls (p : Nat) (u : MatchTables) : Prop where
  rise : keysRise u.prev
  head_lt : ∀ {h c : Nat}, listGet u.head h = some c → c < p
  prev_lt : ∀ {q c : Nat}, listGet u.prev q = some c → c < q

theorem insertUnbounded_chainFalls {input : List Byte} {p : Nat} {u : MatchTables} (hu : ChainFalls p u) :
    ChainFalls (p + 1) (insertUnbounded input u p) := by
  obtain ⟨hrise, hhead, hprev⟩ := hu
  have hhead' {h c : Nat} (hc : listGet u.head h = some c) : c < p + 1 := (hhead hc).trans (Nat.lt_succ_self p)
  unfold insertUnbounded
  split
  case isFalse => exact ⟨hrise, hhead', hprev⟩
  case isTrue =>
    refine ⟨keysRise_listPut _ _ hrise, fun hc => ?_, fun hc => ?_⟩
    · rw [listGet_listSet] at hc
      split at hc
      · obtain rfl := Option.some.inj hc
        exact Nat.lt_succ_self p
      · exact hhead' hc
    · rw [listGet_listPut _ _ _ hrise] at hc
      split at hc
      case isTrue hq => exact hq ▸ hhead hc
      case isFalse => exact hprev hc

theorem unboundedTables_chainFalls (input : List Byte) (p : Nat) : ChainFalls p (unboundedTables input p) := by
  induction p with
  | zero => exact ⟨.nil, by simp [unboundedTables, listGet], by simp [unboundedTables, listGet]⟩
  | succ p ih => exact insertUnbounded_chainFalls ih

/-- The block's tables hold, for every position in the window before `p`, what the unbounded ones do. -/
structure RingAgrees (p : Nat) (t u : MatchTables) : Prop where
  head : ∀ h, headAt t h = listGet u.head h
  prev : ∀ {c : Nat}, c < p → p - c ≤ 32768 → prevAt t c = listGet u.prev c

/-- A new position takes the ring slot of the one that has just left the window. -/
theorem insertPos_ringAgrees {input : List Byte} {p : Nat} {t u : MatchTables} (hp : p + 3 ≤ input.length)
    (ht : keysRise t.prev) (hu : keysRise u.prev) (h : RingAgrees p t u) :
    RingAgrees (p + 1) (insertPos input t p) (insertUnbounded input u p) := by
  rw [insertPos, if_pos hp, insertUnbounded, if_pos hp, hashAt_eq_windowHash hp]
  refine ⟨fun k => ?_, fun {c} hc hw => ?_⟩
  · simp only [headAt, listGet_listSet]
    rw [← h.head k, headAt]
  · simp only [prevAt, Config.tableSize, listGet_listPut _ _ _ ht, listGet_listPut _ _ _ hu, h.head]
    rcases Nat.lt_succ_iff_lt_or_eq.1 hc with hlt | rfl
    · rw [if_neg (by omega), if_neg (by omega)]
      exact h.prev hlt (by omega)
    · rw [if_pos rfl, if_pos rfl]

theorem ringTables_ringAgrees {input : List Byte} {p : Nat} (hp : p + 3 ≤ input.length) :
    RingAgrees p (ringTables input p) (unboundedTables input p) := by
  induction p with
  | zero => exact ⟨fun _ => rfl, fun _ _ => rfl⟩
  | succ p ih =>
    rw [ringTables_succ]
    obtain ⟨-, hring, -⟩ := ringTables_form input p
    exact insertPos_ringAgrees (by omega) hring (unboundedTables_chainFalls input p).rise (ih (by omega))

/-! #### The candidates -/

theorem candidates_lt {u : MatchTables} {p b : Nat} (hu : ChainFalls p u) {k : Nat} {cand : Option Nat}
    (hcand : ∀ c, cand = some c → c < b) : ∀ c ∈ candidates u p k cand, c < b := by
  fun_induction candidates u p k cand with
  | case1 => simp
  | case2 => simp
  | case3 => simp
  | case4 k c hw ih =>
    have hc := hcand c rfl
    exact List.forall_mem_cons.2 ⟨hc, ih fun c' hc' => (hu.prev_lt hc').trans hc⟩

theorem candidates_fall {u : MatchTables} {p : Nat} (hu : ChainFalls p u) (k : Nat) (cand : Option Nat) :
    (candidates u p k cand).Pairwise (· > ·) := by
  fun_induction candidates u p k cand with
  | case1 => exact .nil
  | case2 => exact .nil
  | case3 => exact .nil
  | case4 k c hw ih => exact .cons (candidates_lt hu fun _ => hu.prev_lt) ih

theorem candidates_in_window {u : MatchTables} {p k : Nat} {cand : Option Nat} :
    ∀ c ∈ candidates u p k cand, p - c ≤ 32768 := by
  fun_induction candidates u p k cand with
  | case1 => simp
  | case2 => simp
  | case3 => simp
  | case4 k c hw ih => exact List.forall_mem_cons.2 ⟨Nat.le_of_not_lt hw, ih⟩

/-! #### The search -/

/-- A candidate replaces the best match only if its match is strictly longer (42_deflate.md R225). -/
def takeLonger (input : List Byte) (p maxlen : Nat) (best : Nat × Nat) (c : Nat) : Nat × Nat :=
  if best.1 < matchLen input maxlen c p then (matchLen input maxlen c p, p - c) else best

/-- A match of the greatest length allowed is never replaced, so the search may end with it. -/
theorem foldl_takeLonger_of_maxlen (input : List Byte) (p maxlen d : Nat) (cs : List Nat) :
    cs.foldl (takeLonger input p maxlen) (maxlen, d) = (maxlen, d) :=
  List.foldl_fixed' (fun c => if_neg (Nat.not_lt.2 (matchLen_le input maxlen c p))) cs

/-- The search compares the candidates of the unbounded chain. -/
theorem searchChain_eq_foldl {input : List Byte} {t u : MatchTables} {p maxlen : Nat} (ht : RingAgrees p t u)
    (hu : ChainFalls p u) (probes : Nat) {cand : Option Nat} (hcand : ∀ c, cand = some c → c < p) (best bestd : Nat) :
    searchChain input t p maxlen probes cand best bestd =
      (candidates u p probes cand).foldl (takeLonger input p maxlen) (best, bestd) := by
  induction probes generalizing cand best bestd with
  | zero => simp [searchChain, candidates]
  | succ probes ih =>
    cases cand with
    | none => simp [searchChain, candidates]
    | some c =>
      have hc := hcand c rfl
      simp only [searchChain, candidates, Config.windowSize]
      split
      case isTrue => rfl
      case isFalse hw =>
        have hprev : prevAt t c = listGet u.prev c := ht.prev hc (Nat.le_of_not_lt hw)
        have hnext : ∀ c', listGet u.prev c = some c' → c' < p := fun c' h => (hu.prev_lt h).trans hc
        rw [List.foldl_cons, takeLonger, hprev]
        split
        case isFalse => exact ih hnext best bestd
        case isTrue =>
          split
          case isTrue hmax => rw [hmax, foldl_takeLonger_of_maxlen]
          case isFalse => exact ih hnext _ _

/-- What the search keeps of candidates that come nearest first: the match it had, when no candidate's is longer, or
that of the nearest among those of greatest length. -/
theorem foldl_takeLonger_cases (input : List Byte) (p maxlen : Nat) {cs : List Nat} (hcs : cs.Pairwise (· > ·))
    (best : Nat × Nat) :
    (cs.foldl (takeLonger input p maxlen) best = best ∧ ∀ c ∈ cs, matchLen input maxlen c p ≤ best.1) ∨
    ∃ c ∈ cs, cs.foldl (takeLonger input p maxlen) best = (matchLen input maxlen c p, p - c) ∧
      best.1 < matchLen input maxlen c p ∧
      ∀ c' ∈ cs, matchLen input maxlen c' p ≤ matchLen input maxlen c p ∧
        (matchLen input maxlen c' p = matchLen input maxlen c p → c' ≤ c) := by
  induction cs generalizing best with
  | nil => exact .inl ⟨rfl, by simp⟩
  | cons c cs ih =>
    obtain ⟨hfall, hcs⟩ := List.pairwise_cons.1 hcs
    rw [List.foldl_cons, takeLonger]
    split
    case isTrue hlonger =>
      right
      rcases ih hcs (matchLen input maxlen c p, p - c) with ⟨hkeep, hle⟩ | ⟨d, hd, hfold, hlt, hbest⟩
      · exact ⟨c, List.mem_cons_self, hkeep, hlonger,
          List.forall_mem_cons.2 ⟨⟨le_rfl, fun _ => le_rfl⟩, fun c' hc' => ⟨hle c' hc', fun _ => (hfall c' hc').le⟩⟩⟩
      · exact ⟨d, List.mem_cons_of_mem _ hd, hfold, hlonger.trans hlt,
          List.forall_mem_cons.2 ⟨⟨hlt.le, fun h => absurd h hlt.ne⟩, hbest⟩⟩
    case isFalse hshort =>
      have hshort := Nat.le_of_not_lt hshort
      rcases ih hcs best with ⟨hkeep, hle⟩ | ⟨d, hd, hfold, hlt, hbest⟩
      · exact .inl ⟨hkeep, List.forall_mem_cons.2 ⟨hshort, hle⟩⟩
      · have hlt' := hshort.trans_lt hlt
        exact .inr ⟨d, List.mem_cons_of_mem _ hd, hfold, hlt,
          List.forall_mem_cons.2 ⟨⟨hlt'.le, fun h => absurd h hlt'.ne⟩, hbest⟩⟩

theorem le_matchLen_iff (input : List Byte) (maxlen c p l : Nat) :
    l ≤ matchLen input maxlen c p ↔ l ≤ maxlen ∧ ∀ k < l, inByte input (c + k) = inByte input (p + k) := by
  constructor
  · exact fun h => ⟨h.trans (matchLen_le _ _ _ _), fun k hk => inByte_eq_of_lt_matchLen (hk.trans_le h)⟩
  · rintro ⟨hmax, hagree⟩
    induction l generalizing maxlen c p with
    | zero => exact Nat.zero_le _
    | succ l ih =>
      obtain ⟨maxlen, rfl⟩ := Nat.exists_eq_add_of_le' hmax
      have h0 : inByte input c = inByte input p := hagree 0 (Nat.succ_pos l)
      rw [← Nat.add_assoc, matchLen, if_pos h0]
      refine Nat.succ_le_succ (ih _ _ _ (by omega) fun k hk => ?_)
      have := hagree (k + 1) (by omega)
      rwa [show c + 1 + k = c + (k + 1) by omega, show p + 1 + k = p + (k + 1) by omega]

/-- A length agrees exactly if the model's comparison reaches it (42_deflate.md R226). -/
theorem agrees_iff_le_matchLen (input : List Byte) (c p l : Nat) :
    agrees input c p l ↔ l ≤ matchLen input (min 258 (input.length - p)) c p :=
  (le_matchLen_iff _ _ _ _ _).symm

theorem findMatch_eq {input : List Byte} {p : Nat} (hp : p + 3 ≤ input.length) :
    findMatch input (ringTables input p) p =
      let r := (searchCandidates input p).foldl (takeLonger input p (min 258 (input.length - p))) (0, 0)
      if 3 ≤ r.1 then r else (0, 0) := by
  have hring := ringTables_ringAgrees hp
  have hchain := unboundedTables_chainFalls input p
  rw [findMatch, if_pos hp, hashAt_eq_windowHash hp, hring.head,
    searchChain_eq_foldl hring hchain _ (fun _ => hchain.head_lt)]
  rfl

/-- Settles O51: the search folds over the candidates of the unbounded chain, nearest first, and replaces its best match
by a strictly longer one only. -/
theorem searchFindsTheLongestNearestCandidate : Obligations.SearchFindsTheLongestNearestCandidate := by
  unfold Obligations.SearchFindsTheLongestNearestCandidate
  intro input p hp
  have hchain := unboundedTables_chainFalls input p
  have hfall : (searchCandidates input p).Pairwise (· > ·) := candidates_fall hchain _ _
  simp only [findMatch_eq hp, agrees_iff_le_matchLen]
  rcases foldl_takeLonger_cases input p (min 258 (input.length - p)) hfall (0, 0) with
    ⟨hfold, hnone⟩ | ⟨c, hc, hfold, -, hbest⟩
  · rw [hfold, if_neg (by decide)]
    exact .inl ⟨rfl, fun c hc l hl => (hl.trans (hnone c hc)).trans_lt (by decide)⟩
  · rw [hfold]
    split
    case isTrue hmin =>
      refine .inr ⟨hmin, c, hc, candidates_lt hchain (fun _ => hchain.head_lt) c hc, rfl, candidates_in_window c hc,
        le_rfl, fun c' hc' l hl => hl.trans (hbest c' hc').1, fun c' hc' hl => ?_⟩
      exact (hbest c' hc').2 (Nat.le_antisymm (hbest c' hc').1 hl)
    case isFalse hshort =>
      exact .inl ⟨rfl, fun c' hc' l hl => (hl.trans (hbest c' hc').1).trans_lt (Nat.lt_of_not_le hshort)⟩

end Sys2Proof.Machine
end

section
/-! ### The commands `deflate` and `zlib` (42_deflate.md R210, R212, R234 to R236, 43_zlib.md R260 to R262) -/

namespace Sys2Proof.Machine

open Sys2Proof.Reference

/-! #### The length of a block -/

theorem length_bitsOf (l : List Byte) : (bitsOf l).length = 8 * l.length := by
  induction l with
  | nil => rfl
  | cons b l ih =>
    rw [bitsOf, List.flatMap_cons, List.length_append, ← bitsOf, ih, List.length_map, List.length_range,
      List.length_cons]
    omega

theorem length_codeBits_le (sym : Nat) : (codeBits sym).length ≤ 9 := by
  unfold codeBits
  split_ifs <;> simp

theorem length_copyBack (dist k : Nat) (out : List Byte) : (copyBack dist k out).length = out.length + k := by
  induction k generalizing out with
  | zero => rfl
  | succ k ih => rw [copyBack, ih, List.length_append, List.length_singleton]; omega

@[simp] theorem length_extraBits (rows : List (Nat × Nat)) (x : Nat) :
    (extraBits rows x).length = rowExtra rows (rowOf rows x) := length_lsbBits _ _

/-- A pair of the shortest length of its row takes at most nine bits for each byte it covers, whatever its distance. -/
theorem lengthRows_bits_le :
    ∀ i < lengthRows.length, (codeBits (257 + i)).length + rowExtra lengthRows i + 18 ≤ 9 * rowBase lengthRows i := by
  decide

theorem distRows_extra_le : ∀ j < distRows.length, rowExtra distRows j ≤ 13 := by decide

theorem length_symBits_pair_le {len dist : Nat} (h3 : 3 ≤ len) (h258 : len ≤ 258) (h1 : 1 ≤ dist)
    (hw : dist ≤ 32768) : (symBits (.pair len dist)).length ≤ 9 * len := by
  obtain ⟨hrow, hbase, -⟩ := inRow_lengthRows h3 h258
  have hlen := lengthRows_bits_le _ hrow
  have hdist := distRows_extra_le _ (inRow_distRows h1 hw).lt_length
  simp only [symBits, List.length_append, length_extraBits, length_msbBits]
  omega

/-- Legal symbols take at most nine bits for each byte they expand to (42_deflate.md R234). -/
theorem length_flatMap_symBits_le {syms : List Sym} {out res : List Byte} (h : expandSyms syms out = some res) :
    (syms.flatMap symBits).length + 9 * out.length ≤ 9 * res.length := by
  fun_induction expandSyms syms out with
  | case1 out =>
    obtain rfl := Option.some.inj h
    simp
  | case2 b rest out ih =>
    have hsym : (symBits (.lit b)).length ≤ 9 := length_codeBits_le b.toNat
    have hrest := ih h
    simp only [List.flatMap_cons, List.length_append, List.length_singleton] at hrest ⊢
    omega
  | case3 len dist rest out hpair ih =>
    obtain ⟨h3, h258, h1, hw, -⟩ := hpair
    have hsym := length_symBits_pair_le h3 h258 h1 hw
    have hrest := ih h
    rw [length_copyBack] at hrest
    simp only [List.flatMap_cons, List.length_append]
    omega
  | case4 => cases h

/-- The worst case of a block: three header bits, nine bits a byte, seven for its end, padded to a byte
(42_deflate.md R234). -/
theorem length_deflateBlock_le (input : List Byte) :
    (deflateBlock input).bytes.length ≤ (10 + 9 * input.length + 7) / 8 := by
  obtain ⟨pad, hpad, hbits⟩ := bitsOf_packBlock (parse input).1
  have hsyms := length_flatMap_symBits_le (expandSyms_parse input)
  have hlen := congrArg List.length hbits
  have hend : (codeBits 256).length = 7 := by decide
  rw [← deflateBlock_bytes, length_bitsOf] at hlen
  simp only [List.length_append, List.length_cons, List.length_nil, List.length_replicate, hend] at hlen hsyms
  omega

/-! #### The counters of a block -/

theorem length_filter_greedy_of_isLit (input : List Byte) {f : Sym → Bool} (hf : ∀ y, f y = y.isLit) :
    ((greedy input input.length 0).filter f).length = (deflateBlock input).lits := by
  rw [← parseIsGreedyOverTheConsumedPrefix, funext hf]
  exact List.countP_eq_length_filter.symm

theorem length_filter_greedy_of_not_isLit (input : List Byte) {f : Sym → Bool} (hf : ∀ y, f y = !y.isLit) :
    ((greedy input input.length 0).filter f).length = (deflateBlock input).pairs := by
  rw [← parseIsGreedyOverTheConsumedPrefix, funext hf]
  exact List.countP_eq_length_filter.symm

/-! #### The ends of the two commands -/

theorem exec_deflate_of_regionsOk {s : State} (h : s.RegionsOk) : exec .deflate s = .next (deflateRule s.clearOutLen) :=
  congrArg Host.Outcome.next (withPrologue_transform_of_regionsOk h)

theorem exec_zlib_of_regionsOk {s : State} (h : s.RegionsOk) : exec .zlib s = .next (zlibRule s.clearOutLen) :=
  congrArg Host.Outcome.next (withPrologue_transform_of_regionsOk h)

theorem outLen_writePrefix_of_lt {s : State} {l : List Byte} (h : s.latch.cap.toNat < l.length) :
    (s.writePrefix l).outLen = s.latch.cap := by
  simp [State.writePrefix, Nat.min_eq_right h.le]

/-- Settles O47: the block fits, so it is written whole, and its counters are those of the greedy parse. -/
theorem deflateWritesTheBlock : Obligations.DeflateWritesTheBlock := by
  unfold Obligations.DeflateWritesTheBlock
  intro s hr b syms hfit
  have hsyms : syms = greedy s.srcBytes s.srcBytes.length 0 := rfl
  rw [exec_deflate_of_regionsOk hr, deflateRule_of_le (by exact hfit), s.srcBytes_clearOutLen, hsyms,
    length_filter_greedy_of_isLit, length_filter_greedy_of_not_isLit]
  case hf | hf => intro y; cases y <;> rfl
  simp [State.writePrefix, State.keepCounts, State.keepTables, State.clearOutLen, State.complete, completed,
    List.take_of_length_le hfit, Nat.min_eq_left hfit, b]

/-- Settles O49: a block is no longer than its worst case, so it fits. -/
theorem deflateFitsTheWorstCase : Obligations.DeflateFitsTheWorstCase := by
  unfold Obligations.DeflateFitsTheWorstCase
  intro s hr hcap
  have hlen := length_deflateBlock_le s.srcBytes
  rw [s.length_srcBytes] at hlen
  refine ⟨_, deflateWritesTheBlock s hr (hlen.trans hcap), rfl, ?_⟩
  exact (BitVec.toNat_ofNat _ _).trans_le ((Nat.mod_le _ _).trans hlen)

/-! #### The Adler-32 of the input -/

/-- Adler-32 in closed form, modulo 65521 (44_checksum.md R275). -/
theorem adlerFeed_modEq (ab : Nat × Nat) (l : List Byte) :
    (adlerFeed ab l).1 ≡ ab.1 + byteSum l [MOD 65521] ∧
    (adlerFeed ab l).2 ≡ ab.2 + l.length * ab.1 + weightedSum l [MOD 65521] := by
  induction l generalizing ab with
  | nil => simp [adlerFeed, byteSum, weightedSum, Nat.ModEq.refl]
  | cons x l ih =>
    obtain ⟨ha, hb⟩ := ih (adlerStep ab x)
    have hstep : (adlerStep ab x).1 ≡ ab.1 + x.toNat [MOD 65521] := Nat.mod_modEq _ _
    have hstep' : (adlerStep ab x).2 ≡ ab.2 + (ab.1 + x.toNat) [MOD 65521] :=
      (Nat.mod_modEq _ _).trans (hstep.add_left _)
    constructor
    · calc (adlerFeed ab (x :: l)).1
          ≡ (adlerStep ab x).1 + byteSum l [MOD 65521] := ha
        _ ≡ ab.1 + x.toNat + byteSum l [MOD 65521] := hstep.add_right _
        _ = ab.1 + byteSum (x :: l) := by simp [byteSum, Nat.add_assoc]
    · calc (adlerFeed ab (x :: l)).2
          ≡ (adlerStep ab x).2 + l.length * (adlerStep ab x).1 + weightedSum l [MOD 65521] := hb
        _ ≡ ab.2 + (ab.1 + x.toNat) + l.length * (ab.1 + x.toNat) + weightedSum l [MOD 65521] :=
          (hstep'.add (hstep.mul_left _)).add_right _
        _ = ab.2 + (x :: l).length * ab.1 + weightedSum (x :: l) := by
          simp only [List.length_cons, weightedSum]; ring

theorem adlerFeed_adlerInit (l : List Byte) :
    adlerFeed adlerInit l = ((1 + byteSum l) % 65521, (l.length + weightedSum l) % 65521) := by
  obtain ⟨ha, hb⟩ := adlerFeed_modEq adlerInit l
  obtain ⟨ha', hb'⟩ := adlerFeed_lt (ab := adlerInit) l (by decide)
  simp only [adlerInit, Nat.zero_add, Nat.mul_one] at ha hb
  exact Prod.ext ((Nat.mod_eq_of_lt ha').symm.trans ha) ((Nat.mod_eq_of_lt hb').symm.trans hb)

theorem be32_adlerPack {ab : Nat × Nat} (h : ab.1 < 65536 ∧ ab.2 < 65536) :
    be32 (adlerPack ab) =
      [BitVec.ofNat 8 (ab.2 / 256), BitVec.ofNat 8 ab.2, BitVec.ofNat 8 (ab.1 / 256), BitVec.ofNat 8 ab.1] := by
  have hbyte (i : Nat) : wordByte (adlerPack ab) i = BitVec.ofNat 8 ((ab.2 * 65536 + ab.1) / 2 ^ (8 * i)) := by
    rw [← toNat_adlerPack h, ← Nat.shiftRight_eq_div_pow]; rfl
  simp only [be32, hbyte, List.cons.injEq, and_true, ← BitVec.toNat_inj, BitVec.toNat_ofNat]
  omega

/-- The stream of `zlib`: header, block, and the Adler-32 of the input most significant byte first
(43_zlib.md R260 to R262). -/
theorem zlibOut_eq (s : State) :
    zlibOut s =
      let za := (1 + byteSum s.srcBytes) % 65521
      let zb := (s.srcBytes.length + weightedSum s.srcBytes) % 65521
      [0x78, 0x01] ++ (deflateBlock s.srcBytes).bytes ++
        [BitVec.ofNat 8 (zb / 256), BitVec.ofNat 8 zb, BitVec.ofNat 8 (za / 256), BitVec.ofNat 8 za] := by
  rw [zlibOut, zlibStream, adlerFeed_adlerInit, be32_adlerPack (by omega)]
  rfl

theorem zlibOut_clearOutLen (s : State) : zlibOut s.clearOutLen = zlibOut s := by
  rw [zlibOut, zlibOut, s.srcBytes_clearOutLen]

/-- Settles O48: the bounded output write stops at the capacity, and the accumulators are written on success only. -/
theorem deflateStopsAtTheCapacity : Obligations.DeflateStopsAtTheCapacity := by
  unfold Obligations.DeflateStopsAtTheCapacity
  rintro s i stream hr za zb (⟨rfl, hstream⟩ | ⟨rfl, hstream⟩) hfull
  case inl =>
    rw [hstream] at hfull ⊢
    rw [exec_deflate_of_regionsOk hr, deflateRule_of_lt (by exact hfull)]
    exact ⟨_, rfl, rfl, rfl, outLen_writePrefix_of_lt hfull, rfl, by simp⟩
  case inr =>
    rw [hstream, ← zlibOut_eq, ← zlibOut_clearOutLen] at hfull ⊢
    rw [exec_zlib_of_regionsOk hr, zlibRule_of_lt (by exact hfull)]
    exact ⟨_, rfl, rfl, rfl, outLen_writePrefix_of_lt hfull, rfl, by simp [zlibKept]⟩

end Sys2Proof.Machine
end

section
/-! ### `zlib` with room for its stream (43_zlib.md R260 to R265) -/

namespace Sys2Proof.Machine

open Sys2Proof.Reference

theorem adlerPack_eq_ofNat {ab : Nat × Nat} (h : ab.1 < 65536 ∧ ab.2 < 65536) :
    adlerPack ab = BitVec.ofNat 32 (ab.2 * 65536 + ab.1) := by
  rw [← toNat_adlerPack h, BitVec.ofNat_toNat, BitVec.setWidth_eq]

theorem length_zlibOut (s : State) : (zlibOut s).length = (deflateBlock s.srcBytes).bytes.length + 6 :=
  length_zlibStream _ _

/-- What `zlib` keeps besides its stream does not depend on OUT_LEN, which the prologue clears (40_control.md R167). -/
theorem zlibKept_clearOutLen (s : State) : zlibKept s.clearOutLen = (zlibKept s).clearOutLen := by
  rw [zlibKept, s.srcBytes_clearOutLen]
  simp only [zlibKept, State.keepTables, State.clearOutLen]

/-- Settles O56: the stream fits, so it is written whole; its trailer and ADLER_ACC are the closed-form Adler-32. -/
theorem zlibWritesTheWrappedBlock : Obligations.ZlibWritesTheWrappedBlock := by
  unfold Obligations.ZlibWritesTheWrappedBlock
  intro s hr b za zb stream hfit
  have hstream : stream = zlibOut s := (zlibOut_eq s).symm
  have hadler : adlerFeed adlerInit s.srcBytes = (za, zb) := adlerFeed_adlerInit s.srcBytes
  have hacc : adlerPack (za, zb) = BitVec.ofNat 32 (zb * 65536 + za) := adlerPack_eq_ofNat (by omega)
  rw [hstream] at hfit ⊢
  rw [exec_zlib_of_regionsOk hr, zlibRule_of_le (by rwa [zlibOut_clearOutLen]), zlibOut_clearOutLen,
    zlibKept_clearOutLen, s.srcBytes_clearOutLen, ← length_zlibOut, hadler, hacc]
  simp [State.writePrefix, State.keepCounts, zlibKept, State.keepTables, State.clearOutLen, State.complete, completed,
    List.take_of_length_le hfit, Nat.min_eq_left hfit, hadler, b]

end Sys2Proof.Machine
end

section
/-! ### The checksum commands (44_checksum.md R270 to R278) -/

namespace Sys2Proof.Machine

open Sys2Proof.Reference

/-! #### The bit-serial CRC-32 and the byte-wise one

A shift is linear over exclusive or, so the bits of a byte may be added to the register all at once, before the eight
shifts; and the bits above the low eight only move down, so the table needs the low eight alone (44_checksum.md R270,
R271). -/

theorem crcShift_xor (x y : Word) : crcShift (x ^^^ y) = crcShift x ^^^ crcShift y := by
  simp only [crcShift, BitVec.getLsbD_xor, BitVec.ushiftRight_xor_distrib]
  cases x.getLsbD 0 <;> cases y.getLsbD 0
  case true.true =>
    calc x >>> 1 ^^^ y >>> 1 = 0xEDB88320 ^^^ (0xEDB88320 ^^^ (x >>> 1 ^^^ y >>> 1)) := (xor_cancel_left _ _).symm
      _ = (x >>> 1 ^^^ 0xEDB88320) ^^^ (y >>> 1 ^^^ 0xEDB88320) := by ac_rfl
  all_goals simp <;> ac_rfl

theorem crcShifts_xor (k : Nat) (x y : Word) : crcShifts k (x ^^^ y) = crcShifts k x ^^^ crcShifts k y := by
  induction k generalizing x y with
  | zero => rfl
  | succ k ih => simp only [crcShifts, crcShift_xor, ih]

theorem crcShifts_succ (k : Nat) (c : Word) : crcShifts (k + 1) c = crcShift (crcShifts k c) := by
  induction k generalizing c with
  | zero => rfl
  | succ k ih => exact ih (crcShift c)

/-- While only zeros leave the register, a shift is a plain one. -/
theorem crcShifts_of_low_zero {k : Nat} {c : Word} (h : ∀ i < k, c.getLsbD i = false) : crcShifts k c = c >>> k := by
  induction k with
  | zero => rfl
  | succ k ih =>
    have hbit : (c >>> k).getLsbD 0 = false := by simp [h k (Nat.lt_succ_self k)]
    rw [crcShifts_succ, ih fun i hi => h i (Nat.lt_succ_of_lt hi), crcShift, hbit]
    exact (BitVec.shiftRight_add c k 1).symm

/-- A bit enters the register as the low bit of a word still to be added. -/
theorem crcBit_xor_shiftRight (c d : Word) : crcBit c (d.getLsbD 0) ^^^ d >>> 1 = crcShift (c ^^^ d) := by
  simp only [crcBit, crcShift, BitVec.getLsbD_xor, BitVec.ushiftRight_xor_distrib]
  cases c.getLsbD 0 <;> cases d.getLsbD 0 <;> simp <;> ac_rfl

/-- After `k` bits the register still lacks the bits of the word from `k` on. -/
theorem foldl_crcBit_xor_shiftRight (acc w : Word) (k : Nat) :
    (List.range k).foldl (fun c i => crcBit c (w.getLsbD i)) acc ^^^ w >>> k = crcShifts k (acc ^^^ w) := by
  induction k with
  | zero => rfl
  | succ k ih =>
    have hbit : w.getLsbD k = (w >>> k).getLsbD 0 := by simp
    rw [List.range_succ, List.foldl_append, List.foldl_cons, List.foldl_nil, hbit, BitVec.shiftRight_add,
      crcBit_xor_shiftRight, ih, crcShifts_succ]

/-- A byte has no bit left after eight shifts. -/
theorem setWidth_shiftRight_eight (b : Byte) : b.setWidth 32 >>> 8 = 0#32 :=
  BitVec.eq_of_getLsbD_eq fun i _ => by simp

theorem crcByte_eq_crcShifts (acc : Word) (b : Byte) : crcByte acc b = crcShifts 8 (acc ^^^ b.setWidth 32) := by
  have h := foldl_crcBit_xor_shiftRight acc (b.setWidth 32) 8
  rw [setWidth_shiftRight_eight, BitVec.xor_zero] at h
  -- The bits of the widened byte are those of the byte by definition.
  exact h

/-- The high bits of the register only move down; the low eight go through the table. -/
theorem crcShifts_eight (x : Word) : crcShifts 8 x = crcTable (x.setWidth 8) ^^^ x >>> 8 := by
  have hlow : ∀ i < 8, ((x.setWidth 8).setWidth 32 ^^^ x).getLsbD i = false := by
    intro i hi
    have hi' : i < 32 := by omega
    simp [hi, hi']
  calc crcShifts 8 x = crcShifts 8 ((x.setWidth 8).setWidth 32 ^^^ ((x.setWidth 8).setWidth 32 ^^^ x)) := by
        rw [xor_cancel_left]
    _ = crcTable (x.setWidth 8) ^^^ ((x.setWidth 8).setWidth 32 ^^^ x) >>> 8 := by
        rw [crcShifts_xor, crcShifts_of_low_zero hlow, crcTable]
    _ = crcTable (x.setWidth 8) ^^^ x >>> 8 := by
        rw [BitVec.ushiftRight_xor_distrib, setWidth_shiftRight_eight, BitVec.zero_xor]

/-- Eight bits into the bit-serial register are one step of the table-driven one (44_checksum.md R270, R271). -/
theorem crcByte_eq_crcStep (acc : Word) (b : Byte) : crcByte acc b = crcStep acc b := by
  rw [crcByte_eq_crcShifts, crcShifts_eight, crcStep, BitVec.ushiftRight_xor_distrib, setWidth_shiftRight_eight,
    BitVec.xor_zero]

theorem crcFeed_eq_foldl_crcByte (acc : Word) (l : List Byte) : crcFeed acc l = l.foldl crcByte acc := by
  rw [crcFeed, funext₂ crcByte_eq_crcStep]

/-! #### The Adler-32 in closed form -/

/-- After one byte both sums are below the modulus, whatever the pair before (44_checksum.md R278). -/
theorem adlerFeed_of_ne_nil (ab : Nat × Nat) {l : List Byte} (h : l ≠ []) :
    adlerFeed ab l = ((ab.1 + byteSum l) % 65521, (ab.2 + l.length * ab.1 + weightedSum l) % 65521) := by
  obtain ⟨ha, hb⟩ := adlerFeed_modEq ab l
  cases l with
  | nil => exact absurd rfl h
  | cons x l =>
    obtain ⟨ha', hb'⟩ := adlerFeed_lt l (adlerStep_lt ab x)
    exact Prod.ext ((Nat.mod_eq_of_lt ha').symm.trans ha) ((Nat.mod_eq_of_lt hb').symm.trans hb)

theorem adlerUnpack_eq (w : Word) : adlerUnpack w = (w.toNat % 65536, w.toNat / 65536) := by
  have hw := w.isLt
  simp only [adlerUnpack, BitVec.extractLsb'_toNat, Nat.shiftRight_eq_div_pow, Prod.mk.injEq]
  omega

/-! #### The four commands -/

/-- What a CRC command does with a sound source region. -/
theorem crcCommand_of_srcOk {start : State → Word} {s : State} (h : s.SrcOk) :
    crcCommand start s = completed { s with outLen := 0, crcAcc := crcFeed (start s.clearOutLen) s.srcBytes } :=
  withPrologue_checksum_of_srcOk h

/-- What an Adler command does with a sound source region. -/
theorem adlerCommand_of_srcOk {start : State → Nat × Nat} {s : State} (h : s.SrcOk) :
    adlerCommand start s =
      completed { s with outLen := 0, adlerAcc := adlerPack (adlerFeed (start s.clearOutLen) s.srcBytes) } :=
  withPrologue_checksum_of_srcOk h

theorem crcAcc_of_crcCommand {start : State → Word} {s t : State} {acc : Word} (hs : s.SrcOk)
    (h : (.next (crcCommand start s) : Host.Outcome State Fault Refusal) = .next t)
    (hstart : start s.clearOutLen = acc) : t.crcAcc = crcFeed acc s.srcBytes := by
  cases h
  rw [crcCommand_of_srcOk hs, hstart]
  rfl

theorem adlerAcc_of_adlerCommand {start : State → Nat × Nat} {s t : State} {ab : Nat × Nat} (hs : s.SrcOk)
    (h : (.next (adlerCommand start s) : Host.Outcome State Fault Refusal) = .next t)
    (hstart : start s.clearOutLen = ab) : t.adlerAcc = adlerPack (adlerFeed ab s.srcBytes) := by
  cases h
  rw [adlerCommand_of_srcOk hs, hstart]
  rfl

/-- Settles O35: with a sound source the register is the bit-serial one's. -/
theorem crcStartComputesTheCrc : Obligations.CrcStartComputesTheCrc := by
  unfold Obligations.CrcStartComputesTheCrc
  intro s hs
  rw [exec, execCrc32Start, crcCommand_of_srcOk hs, crcFeed_eq_foldl_crcByte, crcInit]

/-- Settles O36: the prologue leaves CRC_ACC alone, so the feed begins at its value. -/
theorem crcContContinuesTheCrc : Obligations.CrcContContinuesTheCrc := by
  unfold Obligations.CrcContContinuesTheCrc
  intro s hs
  rw [exec, execCrc32Cont, crcCommand_of_srcOk hs, crcFeed_eq_foldl_crcByte, State.clearOutLen_crcAcc]

/-- Settles O37: the closed form from the pair (1, 0). -/
theorem adlerStartComputesTheAdler : Obligations.AdlerStartComputesTheAdler := by
  unfold Obligations.AdlerStartComputesTheAdler
  intro s hs
  rw [exec, execAdler32Start, adlerCommand_of_srcOk hs, adlerFeed_adlerInit, adlerPack_eq_ofNat (by omega)]

/-- Settles O38: with no byte the pair is packed again as it was unpacked; otherwise the closed form from any pair. -/
theorem adlerContContinuesTheAdler : Obligations.AdlerContContinuesTheAdler := by
  unfold Obligations.AdlerContContinuesTheAdler
  intro s hs a b l
  rw [exec, execAdler32Cont, adlerCommand_of_srcOk hs, State.clearOutLen_adlerAcc]
  by_cases hn : s.latch.n = 0
  · have hnil : s.srcBytes = [] := List.eq_nil_of_length_eq_zero (by simp [hn])
    rw [if_pos hn, hnil, adlerFeed, List.foldl_nil, adlerPack_adlerUnpack]
  · have hne : s.srcBytes ≠ [] := by
      rw [← List.length_pos_iff, s.length_srcBytes]
      exact Nat.pos_of_ne_zero fun h0 => hn (BitVec.toNat_inj.1 h0)
    rw [if_neg hn, adlerUnpack_eq, adlerFeed_of_ne_nil _ hne, adlerPack_eq_ofNat (by omega)]

/-! #### A string split into START and CONT -/

theorem State.dmemSize_le (s : State) : s.dmemSize ≤ 2 ^ 32 :=
  Nat.pow_le_pow_right (by decide) (Nat.add_le_add_right (Nat.le_of_lt_succ s.dmemLog.isLt) 4)

/-- `s` with the first `k` bytes of its source region for its source region. -/
def State.sourceFirst (s : State) (k : Nat) : State := { s with latch := { s.latch with n := BitVec.ofNat 32 k } }

/-- `t` with the source region of `s` behind its first `k` bytes for its source region. -/
def State.sourceRest (s : State) (k : Nat) (t : State) : State :=
  { t with latch := { s.latch with
      src := BitVec.ofNat 32 (s.latch.src.toNat + k)
      n := s.latch.n - BitVec.ofNat 32 k } }

section

variable {s t : State} {k : Nat} (hk : k ≤ s.latch.n.toNat)

include hk

theorem toNat_sourceFirst_n : (s.sourceFirst k).latch.n.toNat = k :=
  (BitVec.toNat_ofNat k 32).trans (Nat.mod_eq_of_lt (hk.trans_lt s.latch.n.isLt))

theorem toNat_sourceRest_n : (s.sourceRest k t).latch.n.toNat = s.latch.n.toNat - k := by
  have hlen : (BitVec.ofNat 32 k).toNat = k := toNat_sourceFirst_n hk
  have hle : BitVec.ofNat 32 k ≤ s.latch.n := by rwa [BitVec.le_def, hlen]
  rw [State.sourceRest, BitVec.toNat_sub_of_le hle, hlen]

theorem srcOk_sourceFirst (hs : s.SrcOk) : (s.sourceFirst k).SrcOk := by
  rw [State.SrcOk, toNat_sourceFirst_n hk]
  exact (Nat.add_le_add_left hk _).trans hs

/-- Also where the rest is empty and its address wraps to 0. -/
theorem srcOk_sourceRest (hs : s.SrcOk) (ht : t.dmemLog = s.dmemLog) : (s.sourceRest k t).SrcOk := by
  have hsize : (s.sourceRest k t).dmemSize = s.dmemSize := congrArg Config.dmemSizeOf ht
  have hsrc : (s.sourceRest k t).latch.src.toNat ≤ s.latch.src.toNat + k :=
    (BitVec.toNat_ofNat _ 32).trans_le (Nat.mod_le _ _)
  rw [State.SrcOk, toNat_sourceRest_n hk, hsize]
  unfold State.SrcOk at hs
  omega

theorem srcBytes_sourceFirst : (s.sourceFirst k).srcBytes = Memory.readBytes s.dmem s.latch.src.toNat k := by
  rw [State.srcBytes, toNat_sourceFirst_n hk]
  rfl

theorem srcBytes_sourceRest (hs : s.SrcOk) (ht : t.dmem = s.dmem) :
    (s.sourceRest k t).srcBytes = Memory.readBytes s.dmem (s.latch.src.toNat + k) (s.latch.n.toNat - k) := by
  rw [State.srcBytes, toNat_sourceRest_n hk]
  rcases hk.eq_or_lt with rfl | hlt
  · simp [Memory.readBytes]
  · have hbound : s.latch.src.toNat + k < 2 ^ 32 :=
      (Nat.add_lt_add_left hlt _).trans_le (le_trans hs s.dmemSize_le)
    have hsrc : (s.sourceRest k t).latch.src.toNat = s.latch.src.toNat + k :=
      (BitVec.toNat_ofNat _ 32).trans (Nat.mod_eq_of_lt hbound)
    rw [hsrc]
    exact congrArg (Memory.readBytes · _ _) ht

/-- The two parts of a source region hold its string. -/
theorem srcBytes_sourceFirst_append_sourceRest (hs : s.SrcOk) (ht : t.dmem = s.dmem) :
    (s.sourceFirst k).srcBytes ++ (s.sourceRest k t).srcBytes = s.srcBytes := by
  rw [srcBytes_sourceFirst hk, srcBytes_sourceRest hk hs ht, ← Memory.readBytes_append, Nat.add_sub_cancel' hk,
    State.srcBytes]

/-- After a checksum command over the first part, the rest is sound and holds the rest of the string. -/
theorem sourceRest_of_exec {i : Instr} (hs : s.SrcOk) (hi : commandClass i = .checksum)
    (h : exec i (s.sourceFirst k) = .next t) :
    (s.sourceRest k t).SrcOk ∧ (s.sourceFirst k).srcBytes ++ (s.sourceRest k t).srcBytes = s.srcBytes := by
  have hlog : t.dmemLog = (s.sourceFirst k).dmemLog := dmemLog_eq_of_control (exec_ends h).control
  have hdmem : t.dmem = (s.sourceFirst k).dmem := exec_dmem_of_not_transform (by simp [hi]) h
  exact ⟨srcOk_sourceRest hk hs hlog, srcBytes_sourceFirst_append_sourceRest hk hs hdmem⟩

/-- The register that START leaves is the one CONT goes on from. -/
theorem crcAcc_of_split {t1 t2 : State} (hs : s.SrcOk) (h1 : exec .crc32Start (s.sourceFirst k) = .next t1)
    (h2 : exec .crc32Cont (s.sourceRest k t1) = .next t2) (h : exec .crc32Start s = .next t) :
    t2.crcAcc = t.crcAcc := by
  obtain ⟨hrest, hbytes⟩ := sourceRest_of_exec hk hs rfl h1
  calc t2.crcAcc = crcFeed t1.crcAcc (s.sourceRest k t1).srcBytes := crcAcc_of_crcCommand hrest h2 rfl
    _ = crcFeed (crcFeed crcInit (s.sourceFirst k).srcBytes) (s.sourceRest k t1).srcBytes := by
        rw [crcAcc_of_crcCommand (srcOk_sourceFirst hk hs) h1 rfl]
    _ = crcFeed crcInit s.srcBytes := by rw [← crcFeed_append, hbytes]
    _ = t.crcAcc := (crcAcc_of_crcCommand hs h rfl).symm

/-- The pair that START leaves fits its word, so CONT goes on from it. -/
theorem adlerAcc_of_split {t1 t2 : State} (hs : s.SrcOk) (h1 : exec .adler32Start (s.sourceFirst k) = .next t1)
    (h2 : exec .adler32Cont (s.sourceRest k t1) = .next t2) (h : exec .adler32Start s = .next t) :
    t2.adlerAcc = t.adlerAcc := by
  obtain ⟨hrest, hbytes⟩ := sourceRest_of_exec hk hs rfl h1
  obtain ⟨ha, hb⟩ := adlerFeed_lt (ab := adlerInit) (s.sourceFirst k).srcBytes (by decide)
  have hunpack : adlerUnpack t1.adlerAcc = adlerFeed adlerInit (s.sourceFirst k).srcBytes := by
    rw [adlerAcc_of_adlerCommand (srcOk_sourceFirst hk hs) h1 rfl,
      adlerUnpack_adlerPack ⟨ha.trans (by decide), hb.trans (by decide)⟩]
  calc t2.adlerAcc = adlerPack (adlerFeed (adlerUnpack t1.adlerAcc) (s.sourceRest k t1).srcBytes) :=
        adlerAcc_of_adlerCommand hrest h2 rfl
    _ = adlerPack (adlerFeed adlerInit s.srcBytes) := by rw [hunpack, ← adlerFeed_append, hbytes]
    _ = t.adlerAcc := (adlerAcc_of_adlerCommand hs h rfl).symm

end

/-- Settles O39: a feed in two parts is a feed of the whole, for either accumulator. -/
theorem splitChecksumsAgreeWithTheWhole : Obligations.SplitChecksumsAgreeWithTheWhole := by
  unfold Obligations.SplitChecksumsAgreeWithTheWhole
  intro s k hs hk first rest
  exact ⟨fun _ _ _ h1 h2 h => crcAcc_of_split hk hs h1 h2 h, fun _ _ _ h1 h2 h => adlerAcc_of_split hk hs h1 h2 h⟩

end Sys2Proof.Machine
end

section
/-! ### What clears DONE, and the interrupt output (60_exceptions.md R307 to R309) -/

namespace Sys2Proof.Machine

/-! #### DONE -/

theorem writeCmd_done (s : State) (v : Word) : (s.writeCmd v).done = (s.busyFlag && s.done) := by
  cases he : s.eng with
  | idle => rw [writeCmd_of_idle he, busyFlag_of_idle he, Bool.false_and, State.accept_done]
  | busy => rw [writeCmd_of_busy he, busyFlag_of_busy he, Bool.true_and]

theorem writeCtrl_done (s : State) (v : Word) : (s.writeCtrl v).done = (!v.getLsbD 1 && s.done) := by
  cases hv : v.getLsbD 1 with
  | false => rw [writeCtrl_of_not_srst hv, Bool.not_false, Bool.true_and]
  | true => rw [writeCtrl_of_srst hv, applyReset_done, Bool.not_true, Bool.false_and]

theorem releaseReset_done (s : State) : s.releaseReset.done = (!s.inReset && s.done) := by
  unfold State.releaseReset
  cases s.inReset <;> simp

/-- The register writes that clear DONE: a 1 in STATUS bit 1, a CMD write while Idle, SRST. -/
theorem regWrite_done_eq_false_iff {s : State} (hd : s.done = true) (r : Reg) (v : Word) :
    (s.regWrite r v).done = false ↔
      (r = .status ∧ v.getLsbD 1 = true) ∨ (r = .cmd ∧ s.eng = .idle) ∨ (r = .ctrl ∧ v.getLsbD 1 = true) := by
  cases r with
  | status => simp [State.regWrite, State.writeStatus, hd]
  | cmd => cases he : s.eng <;> simp [State.regWrite, writeCmd_done, State.busyFlag, hd, he]
  | ctrl => simp [State.regWrite, writeCtrl_done, hd]
  | srcAddr | srcLen | dstAddr | dstCap | crcAcc | adlerAcc =>
    cases he : s.eng <;> simp [State.regWrite, State.whenIdle, hd, he]
  | id | outLen | errCode | errInfo | crcResult | litCount | matchCount | hdrSizeLo | hdrSizeHi | dmemSize =>
    simp [State.regWrite, hd]

/-- A turn of the engine sets DONE or does nothing. -/
theorem engineStep_keeps_done {s t : State} (h : engineStep s = .next t) (hd : s.done = true) : t.done = true := by
  unfold engineStep at h
  split at h
  · exact (completeWord_ends h).done
  · cases h
    exact hd

/-- A host operation under which DONE falls is a register write that clears it, or a reset. -/
theorem hostStep_clears_done {op : HostOp} {s t : State} (h : hostStep op s = .next t) (hd : s.done = true)
    (ht : t.done = false) :
    (∃ (r : Reg) (v : Word), op = .regWrite .word r.offset v ∧ (s.regWrite r v).done = false) ∨
    op = .assertReset ∨ (s.inReset = true ∧ op = .releaseReset) := by
  rcases hostStep_cases h with ⟨_, _, _, _, _, rfl⟩ | ⟨_, _, _, _, rfl⟩ | ⟨r, v, hop, _, rfl⟩ | ⟨hop, _⟩ |
    ⟨hop, rfl⟩ | ⟨_, rfl⟩
  · simp [hd] at ht
  · simp [hd] at ht
  · exact .inl ⟨r, v, hop, ht⟩
  · exact .inr (.inl hop)
  · rw [releaseReset_done, hd] at ht
    exact .inr (.inr ⟨by simpa using ht, hop⟩)
  · simp [hd] at ht

/-- A register write that steps has a meaning, so it is `regWrite`. -/
theorem eq_regWrite_of_step {s t : State} {r : Reg} {v : Word} (h : step s = .next t)
    (hn : s.HostNext (.regWrite .word r.offset v)) : t = s.takeEvent.regWrite r v := by
  obtain ⟨hr, -, -⟩ := (hostStepIsRefusedExactlyWithoutMeaning s _ hn).1.1 ⟨t, h⟩
  rw [step_regWrite hr hn] at h
  cases h
  rfl

/-- Settles O11: forwards by what a step can do, backwards by what each cause does. -/
theorem doneFallsOnlyByClearAcceptanceReset : Obligations.DoneFallsOnlyByClearAcceptanceReset := by
  unfold Obligations.DoneFallsOnlyByClearAcceptanceReset
  intro s t h hd
  have clears := regWrite_done_eq_false_iff (s := s.takeEvent) hd
  have written : ∀ r v, s.HostNext (.regWrite .word r.offset v) → (s.takeEvent.regWrite r v).done = false →
      t.done = false := by
    intro r v hn hf
    rwa [eq_regWrite_of_step h hn]
  constructor
  · intro ht
    rcases step_cases h with ⟨-, he⟩ | ⟨op, hn, ho⟩
    · rw [engineStep_keeps_done he hd] at ht
      cases ht
    · rcases hostStep_clears_done ho hd ht with ⟨r, v, rfl, hf⟩ | rfl | ⟨hr, rfl⟩
      · rcases (clears r v).1 hf with ⟨rfl, hv⟩ | ⟨rfl, hi⟩ | ⟨rfl, hv⟩
        · exact .inl ⟨v, hv, hn⟩
        · exact .inr (.inl ⟨hi, v, hn⟩)
        · exact .inr (.inr (.inl ⟨v, hv, hn⟩))
      · exact .inr (.inr (.inr (.inl hn)))
      · exact .inr (.inr (.inr (.inr ⟨hr, hn⟩)))
  · rintro (⟨v, hv, hn⟩ | ⟨hi, w, hn⟩ | ⟨v, hv, hn⟩ | hn | ⟨hr, hn⟩)
    · exact written .status v hn ((clears .status v).2 (.inl ⟨rfl, hv⟩))
    · exact written .cmd w hn ((clears .cmd w).2 (.inr (.inl ⟨rfl, hi⟩)))
    · exact written .ctrl v hn ((clears .ctrl v).2 (.inr (.inr ⟨rfl, hv⟩)))
    · rw [step_of_hostNext hn] at h
      cases h
      rfl
    · rw [step_of_hostNext hn] at h
      cases h
      rw [releaseReset_done, State.takeEvent_inReset, hr, Bool.not_true, Bool.false_and]

/-! #### The interrupt output -/

theorem CommandEnds.ie {s t : State} (h : CommandEnds s t) : t.ie = s.ie := congrArg Control.ie h.control

theorem CommandEnds.irq {s t : State} (h : CommandEnds s t) : t.irq = s.ie := by
  rw [State.irq, h.ie, h.done, Bool.and_true]

theorem writeCtrl_irq (s : State) (v : Word) :
    (s.writeCtrl v).irq = (!v.getLsbD 1 && (v.getLsbD 0 && s.done)) := by
  cases hv : v.getLsbD 1 with
  | false => rw [writeCtrl_of_not_srst hv, State.irq, Bool.not_false, Bool.true_and]
  | true => rw [writeCtrl_of_srst hv, irq_of_not_done (applyReset_done s), Bool.not_true, Bool.false_and]

/-- Settles O19: a completion keeps IE and sets DONE; a CTRL write is a soft reset or sets IE alone. -/
theorem interruptFollowsEnableAndDone : Obligations.InterruptFollowsEnableAndDone := by
  unfold Obligations.InterruptFollowsEnableAndDone
  refine ⟨fun s => ?_, fun w s t h => (completeWord_ends h).irq, writeCtrl_irq, fun s w hw => ?_, fun s => rfl⟩
  · rw [State.irq, Bool.and_eq_true]
  · rw [State.regWrite, writeCtrl_done, hw, Bool.not_false, Bool.true_and]

end Sys2Proof.Machine
end

section
/-! ### Resets (70_reset_and_hazards.md R340 to R345)

Either reset is `applyReset`: the registers at their reset values, and DMEM as the abort of a running command leaves
it. -/

namespace Sys2Proof.Machine

/-! #### While Idle -/

/-- A turn of an idle engine (60_exceptions.md R317). -/
theorem engineStep_of_idle {s : State} (h : s.eng = .idle) : engineStep s = .next s := if_neg (by simp [h])

/-- Settles O7: the engine's turn is `engineStep`, which does nothing while Idle. -/
theorem idleEngineTurnChangesNothing : Obligations.IdleEngineTurnChangesNothing := by
  unfold Obligations.IdleEngineTurnChangesNothing
  intro s hi hn
  rw [step_of_engineNext hn, engineStep_of_idle (s := s.takeEvent) hi]

/-- With no command to abort, a reset writes the registers alone; the engine stays Idle. -/
theorem applyReset_of_idle {s : State} (h : s.eng = .idle) : s.applyReset = { s.resetRegisters with eng := s.eng } := by
  rw [State.applyReset, abort_of_idle h, h]
  rfl

theorem step_softReset {s : State} {v : Word} (hr : s.inReset = false) (hv : v.getLsbD 1 = true)
    (h : s.HostNext (.regWrite .word 0x04 v)) : step s = .next s.takeEvent.applyReset := by
  rw [step_regWrite (r := .ctrl) hr h, State.regWrite, writeCtrl_of_srst hv]

theorem step_assertReset {s : State} (h : s.HostNext .assertReset) :
    step s = .next { s.takeEvent.applyReset with inReset := true } := step_of_hostNext h

theorem step_releaseReset {s : State} (hr : s.inReset = true) (h : s.HostNext .releaseReset) :
    step s = .next { s.takeEvent.applyReset with inReset := false } := by
  rw [step_of_hostNext h, hostStep, State.releaseReset, State.takeEvent_inReset, if_pos hr]

/-- Settles O25: the write is `applyReset`, which has nothing to abort. -/
theorem softResetWhileIdle : Obligations.SoftResetWhileIdle := by
  unfold Obligations.SoftResetWhileIdle
  intro s v hi hr hv h
  rw [step_softReset hr hv h, applyReset_of_idle (s := s.takeEvent) hi]
  rfl

/-- Settles O59: the fall is `applyReset`, which has nothing to abort, and holds the block in reset. -/
theorem hardwareResetWhileIdle : Obligations.HardwareResetWhileIdle := by
  unfold Obligations.HardwareResetWhileIdle
  intro s hi h
  rw [step_assertReset h, applyReset_of_idle (s := s.takeEvent) hi]
  rfl

/-- Settles O27: the rise ends the hold with `applyReset`, which has nothing to abort. -/
theorem releaseLeavesTheBlockReady : Obligations.ReleaseLeavesTheBlockReady := by
  unfold Obligations.ReleaseLeavesTheBlockReady
  intro s hi hr h
  rw [step_releaseReset hr h, applyReset_of_idle (s := s.takeEvent) hi]
  rfl

/-! #### While Busy -/

/-- A reset takes from the abort of the running command its DMEM and the draw counter only. -/
theorem applyReset_eq (s : State) :
    s.applyReset = { s.resetRegisters with dmem := s.abort.dmem, draws := s.abort.draws } := by
  rw [State.applyReset]
  rcases abort_cases s with h | ⟨-, l, d, -, h⟩
  · rw [h]
    rfl
  · rw [h]
    rfl

/-- An abort spares every byte outside the destination region (70_reset_and_hazards.md R343, R344). -/
theorem read_abort_outside {s : State} {x : Nat}
    (hx : ¬ (s.latch.dst.toNat ≤ x ∧ x < s.latch.dst.toNat + s.latch.cap.toNat)) :
    Memory.read s.abort.dmem x = Memory.read s.dmem x := by
  rcases abort_cases s with h | ⟨-, l, d, hl, h⟩
  · rw [h]
  · rw [h]
    exact Memory.read_writeBytes_outside (hl ▸ hx)

/-- Without a transform command of sound regions there is nothing to draw. -/
theorem abort_dmem_of_not_transform {s : State} (h : ¬ (wordClass s.latch.cmd = .transform ∧ s.RegionsOk)) :
    s.abort.dmem = s.dmem := by
  rw [State.abort, if_neg fun ha => h ((abortsTransform_iff s).1 ha).2]

/-- Settles O26: either reset is `applyReset`, whose abort draws at most the destination region. -/
theorem resetAbortsTheRunningCommand : Obligations.ResetAbortsTheRunningCommand := by
  unfold Obligations.ResetAbortsTheRunningCommand
  intro s _ h
  have outside := fun x => read_abort_outside (s := s.takeEvent) (x := x)
  have spared := abort_dmem_of_not_transform (s := s.takeEvent)
  rcases h with h | ⟨hr, v, hv, h⟩
  · refine ⟨_, s.takeEvent.abort.draws, true, ?_, fun _ => rfl, (absurd h ·), outside, spared⟩
    rw [step_assertReset h, applyReset_eq]
    rfl
  · have hn : ¬ s.HostNext .assertReset := fun h' => nomatch hostNext_unique h h'
    refine ⟨_, s.takeEvent.abort.draws, s.inReset, ?_, (absurd · hn), fun _ => hr, outside, spared⟩
    rw [step_softReset hr hv h, applyReset_eq]
    rfl

end Sys2Proof.Machine
end

section
/-! ### A running command comes to an end (70_reset_and_hazards.md R353)

While a command runs each step ends it, or is refused, or takes an inbox entry away, or, a poll of `wait`, puts the
engine's turn first; and the engine's turn ends it. -/

namespace Sys2Proof.Machine

/-! #### The inbox -/

theorem applyReset_inbox (s : State) : s.applyReset.inbox = s.inbox := by rw [applyReset_eq, State.resetRegisters_inbox]

theorem releaseReset_inbox (s : State) : s.releaseReset.inbox = s.inbox := by
  unfold State.releaseReset
  split
  · exact applyReset_inbox s
  · rfl

theorem whenIdle_inbox {s t : State} (h : t.inbox = s.inbox) : (s.whenIdle t).inbox = s.inbox := by
  unfold State.whenIdle
  split
  · rfl
  · exact h

theorem doRegWrite_inbox (s : State) (off : BitVec 8) (v : Word) : (s.doRegWrite off v).inbox = s.inbox := by
  unfold State.doRegWrite
  split
  next r _ =>
    rcases regWrite_cases s r v with h | ⟨-, -, h⟩ | ⟨-, h⟩ | ⟨ie, keep, ovr, h⟩ | ⟨src, n, dst, cap, crc, adler, h⟩
    · rw [h]
    · rw [h, applyReset_inbox]
    · rw [h, State.accept_inbox]
    · rw [h]
    · rw [h]
      exact whenIdle_inbox rfl
  next => rfl

theorem inbox_eq_of_step {s t u : State} (h : step s = .next t) (hu : step s = .next u) : t.inbox = u.inbox := by
  cases h.symm.trans hu
  rfl

/-- A host operation adds nothing to the pending input, but for the poll of `wait`, which puts the engine's turn
first. -/
theorem step_inbox_of_hostNext {op : HostOp} {s t : State} (hn : s.HostNext op) (h : step s = .next t) :
    t.inbox = s.inbox.tail ∨ t.EngineNext := by
  have hm : s.HasMeaning op := (hostStepIsRefusedExactlyWithoutMeaning s op hn).1.1 ⟨t, h⟩
  cases op with
  | regWrite w off v =>
    obtain ⟨hr, rfl, ha⟩ := hm
    exact .inl ((inbox_eq_of_step h (step_regWrite_word hr ha hn)).trans (doRegWrite_inbox s.takeEvent off v))
  | regRead w off =>
    obtain ⟨hr, rfl, ha⟩ := hm
    exact .inl (inbox_eq_of_step h (step_regRead_word hr ha hn))
  | byteWrite a b => exact .inl (inbox_eq_of_step h (step_byteWrite hn hm))
  | byteRead a => exact .inl (inbox_eq_of_step h (step_byteRead hn hm))
  | wordWrite a w => exact .inl (inbox_eq_of_step h (step_wordWrite hn hm))
  | wordRead a => exact .inl (inbox_eq_of_step h (step_wordRead hn hm))
  | wait =>
    rw [step_wait hm hn, pollStatus_eq] at h
    split at h
    · cases h
      exact .inr (.inr rfl)
    · cases h
      exact .inl rfl
  | assertReset => exact .inl ((inbox_eq_of_step h (step_assertReset hn)).trans (applyReset_inbox s.takeEvent))
  | releaseReset => exact .inl ((inbox_eq_of_step h (step_of_hostNext hn)).trans (releaseReset_inbox s.takeEvent))

/-! #### The run -/

/-- The run of k steps from `s` leaves the engine Idle, or a refusal ends it. -/
def EndsAfter (k : Nat) (s : State) : Prop :=
  (∃ t : State, Host.Core.run core k s = .next t ∧ t.eng = .idle) ∨ ∃ r : Refusal, Host.Core.run core k s = .refused r

theorem run_succ_of_next {s t : State} (h : step s = .next t) (k : Nat) :
    Host.Core.run core (k + 1) s = Host.Core.run core k t := by
  simp [Host.Core.run, core, h]

theorem run_succ_of_refused {s : State} {r : Refusal} (h : step s = .refused r) (k : Nat) :
    Host.Core.run core (k + 1) s = .refused r := by
  simp [Host.Core.run, core, h]

theorem EndsAfter.of_idle {s : State} (h : s.eng = .idle) : EndsAfter 0 s := .inl ⟨s, rfl, h⟩

theorem EndsAfter.of_refused {s : State} {r : Refusal} (h : step s = .refused r) : EndsAfter 1 s :=
  .inr ⟨r, run_succ_of_refused h 0⟩

theorem EndsAfter.of_next {s t : State} {k : Nat} (h : step s = .next t) (ht : EndsAfter k t) :
    EndsAfter (k + 1) s := by
  rwa [EndsAfter, run_succ_of_next h]

/-- The engine's turn completes the running command (40_control.md R163). -/
theorem EndsAfter.of_engineNext {s : State} (hb : s.eng = .busy) (hn : s.EngineNext) : EndsAfter 1 s := by
  obtain ⟨t, ht⟩ := exists_next_completeWord s.latch.cmd s.takeEvent
  exact .of_next ((step_of_busy hb hn).trans ht) (.of_idle (completeWord_ends ht).eng)

/-- A running command ends within one step more than there are pending entries: each entry costs one step, and the turn
that ends the command, from the inbox or behind a poll, one more. -/
theorem exists_endsAfter_of_busy {s : State} {q : List Event} (hq : s.inbox = q) (hb : s.eng = .busy) :
    ∃ k, k ≤ q.length + 1 ∧ EndsAfter k s := by
  induction q generalizing s with
  | nil => exact ⟨1, Nat.le_refl 1, .of_engineNext hb (.inl hq)⟩
  | cons e q ih =>
    cases e with
    | engine => exact ⟨1, Nat.le_add_left 1 _, .of_engineNext hb (.inr (congrArg List.head? hq))⟩
    | host op =>
      have hn : s.HostNext op := congrArg List.head? hq
      cases h : step s with
      | fault f => cases f
      | refused r => exact ⟨1, Nat.le_add_left 1 _, .of_refused h⟩
      | next t =>
        cases ht : t.eng with
        | idle => exact ⟨1, Nat.le_add_left 1 _, .of_next h (.of_idle ht)⟩
        | busy =>
          rcases step_inbox_of_hostNext hn h with hi | he
          · obtain ⟨k, hk, hend⟩ := ih (hi.trans (congrArg List.tail hq)) ht
            exact ⟨k + 1, Nat.succ_le_succ hk, .of_next h hend⟩
          · exact ⟨2, Nat.le_add_left 2 _, .of_next h (.of_engineNext ht he)⟩

/-- Settles O9: one step for each pending entry and one for the engine's turn suffice. -/
theorem acceptedCommandComesToAnEnd : Obligations.AcceptedCommandComesToAnEnd := by
  unfold Obligations.AcceptedCommandComesToAnEnd
  intro s hb
  obtain ⟨k, hk, hend⟩ := exists_endsAfter_of_busy rfl hb
  exact ⟨k, Nat.le_succ_of_le hk, hend⟩

end Sys2Proof.Machine
end
